-- ==== Sys2Proof/Word.lean ====
section
/-! DEFINITION. The word types of BOOLDEC: bytes, frame-buffer addresses, and the shapes of the probability tables
(00_scope R10, 10_state R38 to R40). -/

namespace Sys2Proof

/-- An 8-bit byte of the frame buffer (20_memory R60). -/
abbrev Byte := BitVec 8

/-- An unsigned 8-bit probability, "probability that the bit is 0" (00_scope R12). -/
abbrev Prob := BitVec 8

/-- `FB_AW` = 32 (00_scope R10, decision D18). -/
abbrev addrWidth : Nat := 32

/-- A frame-buffer byte address, offset or length of `FB_AW` bits (10_state R31). -/
abbrev Addr := BitVec addrWidth

/-- The number of frame-buffer addresses, `2^FB_AW`. -/
abbrev addrSpace : Nat := 2 ^ addrWidth

/-- The 16-bit command word (30_encoding R80). -/
abbrev CmdWord := BitVec 16

/-- The coefficient table shape: block type x coeff band x context x tree node, 4 x 8 x 3 x 11 (10_state R40). -/
abbrev CoeffTable := Vector (Vector (Vector (Vector Prob 11) 3) 8) 4

/-- The motion-vector table shape: 2 contexts x 19 entries (10_state R40). -/
abbrev MvTable := Vector (Vector Prob 19) 2

end Sys2Proof
end

