-- ==== Sys2Proof/Syntax.lean ====
section
/-! DEFINITION. The command set: one constructor per row of spec/opcode_table.json (00_scope R3, 30_encoding R82). -/

namespace Sys2Proof

/-- The seven commands of "BOOLDEC command set, spec edition 1" (00_scope R3).  An operand is the `arg` byte of the
command word, "used as an unsigned 8-bit number" (30_encoding R81); which values are legal is `Instr.wf`. -/
inductive Instr where
  /-- `BD.INIT` (40_bd_commands R110). -/
  | bdInit
  /-- `BD.RBOOL p` (R115). -/
  | bdRbool (p : Byte)
  /-- `BD.RLIT n` (R116). -/
  | bdRlit (n : Byte)
  /-- `BD.RSLIT n` (R117); `n` magnitude bits, the sign bit not counted. -/
  | bdRslit (n : Byte)
  /-- `BD.RFLAG` (R118). -/
  | bdRflag
  /-- `BD.POS` (R119). -/
  | bdPos
  /-- `FH.PARSE` (41_frame_header R150). -/
  | fhParse
deriving DecidableEq, Repr

end Sys2Proof
end

