-- ==== Sys2Proof/WellFormed.lean ====
section
/-! DEFINITION. Which instructions are legal commands: the bounds on the literal widths (30_encoding R81, R83). -/

namespace Sys2Proof

/-- `LIT_MAX`, the largest `numBits` of `BD.RLIT` (00_scope R10, decision D7). -/
abbrev litMax : Nat := 32

/-- `SLIT_MAX`, the largest `numBits` of `BD.RSLIT` (00_scope R10, decision D7). -/
abbrev slitMax : Nat := 31

/-- A legal command: `BD.RLIT` takes 0 to 32 bits, `BD.RSLIT` 0 to 31 magnitude bits, every probability is legal
(30_encoding R81). -/
def Instr.wf : Instr → Bool
  | .bdInit => true
  | .bdRbool _ => true
  | .bdRlit n => decide (n.toNat ≤ litMax)
  | .bdRslit n => decide (n.toNat ≤ slitMax)
  | .bdRflag => true
  | .bdPos => true
  | .fhParse => true

end Sys2Proof
end

