-- ==== Sys2Proof/Decode.lean ====
section
/-! DEFINITION. The command word: the decoder, total on all 65536 words and rejecting by name, and the encoder
(30_encoding R80 to R83). -/

namespace Sys2Proof

/-- Why a command word is illegal (30_encoding R83).  The machine makes no difference between them: each is
`E_ILLEGAL_CMD`. -/
inductive Illegal where
  /-- `op` is 0x0, 0x7 or 0x9 to 0xF. -/
  | reservedOp
  /-- The `zero` field is not 0. -/
  | zeroFieldSet
  /-- `arg` is not 0 for a command without an operand. -/
  | argNotZero
  /-- `arg > 32` for `BD.RLIT`. -/
  | literalTooLong
  /-- `arg > 31` for `BD.RSLIT`. -/
  | signedLiteralTooLong
deriving DecidableEq, Repr

/-- Bits 15:12 (30_encoding R80). -/
def opField (w : CmdWord) : BitVec 4 := w.extractLsb' 12 4

/-- Bits 11:8, which must be 0 (30_encoding R80). -/
def zeroField (w : CmdWord) : BitVec 4 := w.extractLsb' 8 4

/-- Bits 7:0, the one immediate operand (30_encoding R80). -/
def argField (w : CmdWord) : Byte := w.extractLsb' 0 8

/-- The commands without an operand: `arg` must be 0 (30_encoding R81). -/
def decodePlain (arg : Byte) (i : Instr) : Except Illegal Instr :=
  if arg = 0 then .ok i else .error .argNotZero

/-- The opcode map, once the `zero` field is known to be 0 (30_encoding R82, R83). -/
def decodeOp (op : BitVec 4) (arg : Byte) : Except Illegal Instr :=
  if op = 0x1 then decodePlain arg .bdInit
  else if op = 0x2 then .ok (.bdRbool arg)
  else if op = 0x3 then if arg.toNat ≤ litMax then .ok (.bdRlit arg) else .error .literalTooLong
  else if op = 0x4 then if arg.toNat ≤ slitMax then .ok (.bdRslit arg) else .error .signedLiteralTooLong
  else if op = 0x5 then decodePlain arg .bdRflag
  else if op = 0x6 then decodePlain arg .bdPos
  else if op = 0x8 then decodePlain arg .fhParse
  else .error .reservedOp

/-- The decoder: "a decoder tells everything from the one 16-bit word" (30_encoding R84). -/
def decode (w : CmdWord) : Except Illegal Instr :=
  if zeroField w = 0 then decodeOp (opField w) (argField w) else .error .zeroFieldSet

/-- `op ++ zero ++ arg` with `zero` = 0 (30_encoding R80). -/
def wordOf (op : BitVec 4) (arg : Byte) : CmdWord := op ++ ((0 : BitVec 4) ++ arg)

/-- The encoder, from the opcode map's word column (30_encoding R82). -/
def encode : Instr → CmdWord
  | .bdInit => wordOf 0x1 0
  | .bdRbool p => wordOf 0x2 p
  | .bdRlit n => wordOf 0x3 n
  | .bdRslit n => wordOf 0x4 n
  | .bdRflag => wordOf 0x5 0
  | .bdPos => wordOf 0x6 0
  | .fhParse => wordOf 0x8 0

/-- The instruction the decoder reads from the `nbits` low bits of `w`, numbered as spec/opcode_table.json numbers
them; a command word is one 16-bit word, so bit 0 of the table is bit 0 of the word. -/
def decodeTableWord (nbits w : Nat) : Option Instr :=
  match decode (BitVec.ofNat 16 (w % 2 ^ nbits)) with
  | .ok i => some i
  | .error _ => none

end Sys2Proof
end

