-- ==== Sys2Proof/Machine/Regs.lean ====
section
/-! DEFINITION. The register groups of BOOLDEC as plain records: the BD working registers, the persistent codec state,
the frame-header result registers, the partition table, the FH sequencer's hidden registers, and the moves HOST has
(10_state R20 to R44, 70_reset_and_hazards R261). -/

namespace Sys2Proof.Machine

/-- The three results of a command (60_exceptions R220). -/
inductive Result where
  | ok
  | brokenData
  | error
deriving DecidableEq, Repr, Inhabited

/-- The numeric code of a result in `STATUS.result` (10_state R32; code 3 is never written). -/
def Result.code : Result → BitVec 2
  | .ok => 0
  | .brokenData => 1
  | .error => 2

/-- Why a command fails (60_exceptions R221).  "The hardware reports only the result code": a cause is never stored. -/
inductive Cause where
  /-- `E_ILLEGAL_CMD` -/
  | illegalCmd
  /-- `E_BD_NOT_INIT` -/
  | bdNotInit
  /-- `E_NULL_BUFFER` -/
  | nullBuffer
  /-- `E_ZERO_SIZE` -/
  | zeroSize
  /-- `B_SHORT_FRAME` -/
  | shortFrame
  /-- `B_BAD_START_CODE` -/
  | badStartCode
  /-- `B_BAD_ENUM` -/
  | badEnum
  /-- `B_FIRST_PART_OVERFLOW` -/
  | firstPartOverflow
  /-- `B_PART_TABLE_OVERFLOW` -/
  | partTableOverflow
  /-- `B_PART_ZERO_SIZE` -/
  | partZeroSize
  /-- `B_PART_OVERFLOW` -/
  | partOverflow
deriving DecidableEq, Repr

/-- The result column of the cause table (60_exceptions R221). -/
def Cause.result : Cause → Result
  | .illegalCmd => .error
  | .bdNotInit => .error
  | .nullBuffer => .error
  | .zeroSize => .error
  | .shortFrame => .brokenData
  | .badStartCode => .brokenData
  | .badEnum => .brokenData
  | .firstPartOverflow => .brokenData
  | .partTableOverflow => .brokenData
  | .partZeroSize => .brokenData
  | .partOverflow => .brokenData

/-- The BD working registers and the validity flag (10_state R20 to R25). -/
structure Bd where
  /-- `BD.range` (R20). -/
  range : BitVec 8
  /-- `BD.value` (R21). -/
  value : BitVec 16
  /-- `BD.bit_count` (R22). -/
  bitCount : BitVec 3
  /-- `BD.base` (R23). -/
  base : Addr
  /-- `BD.len` (R23). -/
  len : Addr
  /-- `BD.cursor` (R24: "a model may use an unbounded natural"). -/
  cursor : Nat
  /-- `BD.valid` (R25). -/
  valid : Bool
  /-- The model's own: what this decoder will see in place of the bytes HOST has changed inside its unread window
  (93_implementation_defined U5, log entry 4). -/
  overlay : List Host.Cell
deriving DecidableEq, Repr, Inhabited

/-- `PCS.seg`, the segmentation header (10_state R38). -/
structure Seg where
  enabled : Bool
  featureMode : Bool
  quant : Vector Int 4
  lf : Vector Int 4
  prob : Vector Prob 3
deriving DecidableEq, Repr, Inhabited

/-- `PCS.lf`, the loop-filter header (10_state R39). -/
structure LoopFilter where
  /-- `type` -/
  filterType : Bool
  level : Nat
  sharpness : BitVec 3
  adjEnable : Bool
  refDelta : Vector Int 4
  modeDelta : Vector Int 4
deriving DecidableEq, Repr, Inhabited

/-- The entropy tables (10_state R40). -/
structure Entropy where
  coeff : CoeffTable
  ymode : Vector Prob 4
  uvmode : Vector Prob 3
  mv : MvTable
deriving DecidableEq, Repr, Inhabited

/-- One coefficient probability, by block type, coeff band, context and tree node (10_state R40). -/
def Entropy.coeffAt (e : Entropy) (i : Fin 4) (j : Fin 8) (k : Fin 3) (l : Fin 11) : Prob := e.coeff[i][j][k][l]

/-- One motion-vector probability, by context and entry (10_state R40). -/
def Entropy.mvAt (e : Entropy) (c : Fin 2) (x : Fin 19) : Prob := e.mv[c][x]

/-- The persistent codec state (10_state section 4). -/
structure Pcs where
  seg : Seg
  lf : LoopFilter
  entropy : Entropy
deriving DecidableEq, Repr, Inhabited

/-- `FHR.quant`: base index and the five deltas Y1-DC, Y2-DC, Y2-AC, UV-DC, UV-AC (10_state R44). -/
structure Quant where
  base : BitVec 7
  delta : Vector Int 5
deriving DecidableEq, Repr, Inhabited

/-- The refresh bookkeeping fields of `FHR` decoded or forced in S5 (10_state R44). -/
structure Refresh where
  golden : Bool
  alternate : Bool
  copyToGolden : BitVec 2
  copyToAlternate : BitVec 2
  signBiasGolden : Bool
  signBiasAlternate : Bool
deriving DecidableEq, Repr, Inhabited

/-- The frame-header result registers (10_state R44). -/
structure Fhr where
  keyFrame : Bool
  version : BitVec 2
  showFrame : Bool
  firstPartSize : BitVec 19
  firstPartOffset : Nat
  width : BitVec 14
  height : BitVec 14
  horizontalScale : BitVec 2
  verticalScale : BitVec 2
  colorSpace : Bool
  clampingType : Bool
  seg : Seg
  updateMbSegmentationMap : Bool
  updateSegmentFeatureData : Bool
  lf : LoopFilter
  /-- `lf.delta_update` -/
  lfDeltaUpdate : Bool
  quant : Quant
  /-- `refresh_golden_frame`, `refresh_alternate_frame`, the copy modes and the sign biases. -/
  refresh : Refresh
  refreshEntropyProbs : Bool
  refreshLast : Bool
  entropy : Entropy
  mbNoSkipCoeff : Bool
  probSkipFalse : Prob
  probIntra : Prob
  probLast : Prob
  probGf : Prob
  numOfDctPartitions : BitVec 4
deriving DecidableEq, Repr, Inhabited

/-- One entry of the partition table (10_state R36). -/
structure PtEntry where
  offsetAbs : Addr
  offsetRel : Addr
  size : Addr
deriving DecidableEq, Repr, Inhabited

/-- The partition table (10_state R36). -/
structure Pt where
  count : BitVec 4
  entry : Vector PtEntry 8
deriving DecidableEq, Repr, Inhabited

/-- The FH sequencer's control states, in their order (10_state R29). -/
inductive Phase where
  | idle | s1 | s2 | s3 | s3p | s4 | s5 | s6t | s7 | s6i | s6m | s8 | done
deriving DecidableEq, Repr, Inhabited

/-- The FH sequencer's hidden registers (10_state R28, R29). -/
structure Fh where
  phase : Phase
  /-- `FH.bytepos`, the frame-relative offset of the next byte-aligned field. -/
  bytepos : Addr
deriving DecidableEq, Repr, Inhabited

/-- What HOST can do to the block (10_state R37, 70_reset_and_hazards R261: "a finite list of HOST actions (register
writes, FB writes between commands, command words)"). -/
inductive HostAction where
  /-- Write a command word to `CMD` (R30). -/
  | writeCmd (w : CmdWord)
  /-- `SET ARG_BASE` (R31, 30_encoding R84). -/
  | setArgBase (v : Addr)
  /-- `SET ARG_LEN` -/
  | setArgLen (v : Addr)
  /-- `SET ARG_NULL` -/
  | setArgNull (v : Bool)
  /-- Write one byte of FB (20_memory R60, R72). -/
  | writeFb (a : Addr) (b : Byte)
deriving DecidableEq, Repr

end Sys2Proof.Machine
end

