-- ==== Sys2Proof/Config.lean ====
section
/-! DEFINITION. What is fixed for one BOOLDEC: the parameters of 00_scope R10, and the free values of the machine
(93_implementation_defined part 1). -/

namespace Sys2Proof

/-- `TAG_BIT3_POLICY` (00_scope R10, decision D20). -/
inductive TagBit3Policy where
  | ignore
  | versionMsb
deriving DecidableEq, Repr, Inhabited

/-- `SEG_ENTRY_ABSENT` (00_scope R10, decision D33). -/
inductive SegEntryAbsent where
  | reset
  | keep
deriving DecidableEq, Repr, Inhabited

/-- `INTRA_GATING` (00_scope R10, 90_conflicts C8). -/
inductive IntraGating where
  | perEntry
  | perGroup
deriving DecidableEq, Repr, Inhabited

/-- `MV_PROB_CODING` (00_scope R10, 90_conflicts C8). -/
inductive MvProbCoding where
  | lit8
  | lit7Shift
deriving DecidableEq, Repr, Inhabited

/-- `PCS_ON_FAILURE` (00_scope R10, decision D12). -/
inductive PcsOnFailure where
  | rollback
  | any
deriving DecidableEq, Repr, Inhabited

/-- Every OPEN parameter of the block: "the model takes it as an argument" (00_scope R10, 92_eei_decisions section 5). -/
structure Params where
  /-- `START_CODE`, in stream order. -/
  startCode : Vector Byte 3
  /-- `QDELTA_BITS`: "magnitude ≤ 127 (so at most 7)". -/
  qdeltaBits : Fin 8
  /-- `SEG_Q_BITS` -/
  segQBits : Nat
  /-- `SEG_LF_BITS` -/
  segLfBits : Nat
  /-- `LF_LEVEL_BITS` -/
  lfLevelBits : Nat
  /-- `LF_DELTA_BITS` -/
  lfDeltaBits : Nat
  /-- `PARTCNT_BITS`: at most 2, since the count `2 ^ field` is at most `MAX_PART` = 8. -/
  partCntBits : Fin 3
  /-- `COEFF_UPDATE_PROBS` -/
  coeffUpdateProbs : CoeffTable
  /-- `MV_UPDATE_PROBS` -/
  mvUpdateProbs : MvTable
  /-- `INTRA_UPDATE_PROB` -/
  intraUpdateProb : Prob
  /-- `DEFAULT_COEFF_PROBS` -/
  defaultCoeffProbs : CoeffTable
  /-- `DEFAULT_YMODE_PROBS` -/
  defaultYmodeProbs : Vector Prob 4
  /-- `DEFAULT_UVMODE_PROBS` -/
  defaultUvmodeProbs : Vector Prob 3
  /-- `DEFAULT_MV_PROBS` -/
  defaultMvProbs : MvTable
  /-- `DEFAULT_SEG_PROBS` -/
  defaultSegProbs : Vector Prob 3
  /-- `MV_PROB_CODING` -/
  mvProbCoding : MvProbCoding
  /-- `ZERO_SIZE_PART_BROKEN` -/
  zeroSizePartBroken : Bool
  /-- `COPYMODE3_BROKEN` -/
  copymode3Broken : Bool
  /-- `TAG_BIT3_POLICY` -/
  tagBit3Policy : TagBit3Policy
  /-- `SEG_ENTRY_ABSENT` -/
  segEntryAbsent : SegEntryAbsent
  /-- `INTRA_GATING` -/
  intraGating : IntraGating
  /-- `GK_ROWS`: whether `color_space`, `clamping_type`, `refresh_last` are decoded. -/
  gkRows : Bool
  /-- `PCS_ON_FAILURE` -/
  pcsOnFailure : PcsOnFailure
deriving DecidableEq, Repr

namespace Config

/-- `RANGE_INIT` (00_scope R10, decision D4). -/
abbrev rangeInit : BitVec 8 := 255

/-- `RENORM_MIN` (00_scope R10). -/
abbrev renormMin : Nat := 128

/-- `LIT_PROB` (00_scope R10). -/
abbrev litProb : Prob := 128

/-- `COEFF_UPDATE_PROBS`: OPEN, "no value given" (91_not_in_source N4), so nothing is known of it. -/
opaque coeffUpdateProbs : CoeffTable

/-- `DEFAULT_COEFF_PROBS`: OPEN, "no value given" (91_not_in_source N4), so nothing is known of it. -/
opaque defaultCoeffProbs : CoeffTable

/-- `MV_UPDATE_PROBS` as suggested (93_implementation_defined G15; PRESUMED, log entry 2). -/
def mvUpdateProbs : MvTable :=
  #v[#v[237, 246, 253, 253, 254, 254, 254, 254, 254, 254, 254, 254, 254, 254, 250, 250, 252, 254, 254],
     #v[231, 243, 245, 253, 254, 254, 254, 254, 254, 254, 254, 254, 254, 254, 251, 251, 254, 254, 254]]

/-- `DEFAULT_MV_PROBS` as suggested (93_implementation_defined G14; PRESUMED, log entry 2). -/
def defaultMvProbs : MvTable :=
  #v[#v[162, 128, 225, 146, 172, 147, 214, 39, 156, 128, 129, 132, 75, 145, 178, 206, 239, 254, 254],
     #v[164, 128, 204, 170, 119, 235, 140, 230, 228, 128, 130, 130, 74, 148, 180, 203, 236, 254, 254]]

/-- The parameters with every value the spec suggests or defaults to, over the two coefficient tables it leaves to the
model's argument (00_scope R10; 95_test_vectors `SUGG`). -/
def suggested (coeffUpdate defaultCoeff : CoeffTable) : Params where
  startCode := #v[0x9D, 0x01, 0x2A]
  qdeltaBits := 4
  segQBits := 7
  segLfBits := 6
  lfLevelBits := 6
  lfDeltaBits := 6
  partCntBits := 2
  coeffUpdateProbs := coeffUpdate
  mvUpdateProbs := mvUpdateProbs
  intraUpdateProb := 128
  defaultCoeffProbs := defaultCoeff
  defaultYmodeProbs := #v[112, 86, 140, 37]
  defaultUvmodeProbs := #v[162, 101, 204]
  defaultMvProbs := defaultMvProbs
  defaultSegProbs := #v[255, 255, 255]
  mvProbCoding := .lit8
  zeroSizePartBroken := true
  copymode3Broken := true
  tagBit3Policy := .ignore
  segEntryAbsent := .reset
  intraGating := .perEntry
  gkRows := true
  pcsOnFailure := .rollback

/-- The parameters of the machine after reset. -/
def params : Params := suggested coeffUpdateProbs defaultCoeffProbs

/-! Free values: nothing is known of them.  Each is applied to a draw number that no other draw of the run has
(`State.draws`; log entry 3). -/

/-- A byte HOST changed inside the unread window of a decoder (93_implementation_defined U5). -/
opaque freeByte : Nat → Byte

/-- The BD working registers while `BD.valid = 0` after an `FH.PARSE` (41_frame_header R188, U7). -/
opaque freeBd : Nat → Machine.Bd

/-- `FHR` after a failed `FH.PARSE`, and its fields that a frame does not code (41_frame_header R188, U7). -/
opaque freeFhr : Nat → Machine.Fhr

/-- `PT` after a failed `FH.PARSE`, and its entries beyond the count (10_state R36, U7). -/
opaque freePt : Nat → Machine.Pt

/-- `POS_BYTE` after a failed `FH.PARSE` (R188), and where the position has more than `FB_AW` bits (U8). -/
opaque freePosByte : Nat → Addr

/-- `POS_BIT` after a failed `FH.PARSE` (41_frame_header R188). -/
opaque freePosBit : Nat → BitVec 3

/-- PCS after `BrokenData` where `PCS_ON_FAILURE` is `any` (93_implementation_defined U2). -/
opaque freePcs : Nat → Machine.Pcs

end Config

end Sys2Proof
end

