-- ==== Sys2Proof/Machine/State.lean ====
section
/-! DEFINITION. The state of BOOLDEC (10_state), its value after reset (10_state R47), and the reasons a step can
stop. -/

namespace Sys2Proof.Machine

/-- The frame buffer FB (20_memory R60): its bytes other than 0, by strictly rising address; an address that is not
listed reads as `fbDefault` (Ops.lean). -/
abbrev Memory := List Host.Cell

/-- The whole state: what 10_state lists, then the three fields that are the model's own. -/
structure State where
  /-- The frame buffer (20_memory R60). -/
  fb : Memory
  /-- `ARG_BASE` (R31). -/
  argBase : Addr
  /-- `ARG_LEN` (R31). -/
  argLen : Addr
  /-- `ARG_NULL` (R31). -/
  argNull : Bool
  /-- The BD working registers and `BD.valid` (R20 to R25). -/
  bd : Bd
  /-- `STATUS.result` (R32). -/
  result : Result
  /-- `STATUS.fhr_valid` (R32). -/
  fhrValid : Bool
  /-- `RES` (R33). -/
  res : BitVec 32
  /-- `POS_BYTE` (R34). -/
  posByte : Addr
  /-- `POS_BIT` (R34). -/
  posBit : BitVec 3
  /-- `FHR` (R35, R44). -/
  fhr : Fhr
  /-- `PT` (R36). -/
  pt : Pt
  /-- `PCS` (R38 to R40). -/
  pcs : Pcs
  /-- `PCS_SNAP` (R42). -/
  pcsSnap : Pcs
  /-- `W`, the working copy of the entropy tables (R43). -/
  w : Entropy
  /-- `FH.phase` and `FH.bytepos` (R28, R29). -/
  fh : Fh
  /-- The parameters of the step function (R45), which no step changes; they stand here because `exec` and `step` take
  no other argument (log entry 1). -/
  cfg : Params
  /-- The model's own: how many free values have been drawn (log entry 3). -/
  draws : Nat
  /-- The model's own: the HOST actions still to come, the next one first (R261, log entry 5). -/
  pending : List HostAction
deriving DecidableEq, Repr

/-- The faults of a step: none.  "The block has no traps in the processor sense" (60_exceptions); every command
completes with a result in `STATUS` (R220). -/
inductive Fault where
deriving DecidableEq, Repr

/-- The refusals of a step. -/
inductive Refusal where
  /-- Raised by the arm of an instruction that has no meaning yet; no arm is one.  Safe. -/
  | notModelled (mnemonic : String)
  /-- Raised by `BD.INIT` and `FH.PARSE` when `ARG_NULL = 0` and `ARG_BASE + ARG_LEN > 2^FB_AW`: "the behaviour is
  93_implementation_defined entry U8", whose treatment is `refuse` (20_memory R69, log entry 6).  Safe. -/
  | bufferBeyondAddressSpace
deriving DecidableEq, Repr

/-- The BD registers after reset: `BD.valid` = 0 (R47); the others by log entry 7. -/
def Bd.reset : Bd :=
  { range := 0, value := 0, bitCount := 0, base := 0, len := 0, cursor := 0, valid := false, overlay := [] }

/-- Log entry 7. -/
def Seg.reset : Seg :=
  { enabled := false, featureMode := false, quant := #v[0, 0, 0, 0], lf := #v[0, 0, 0, 0], prob := #v[0, 0, 0] }

/-- Log entry 7. -/
def LoopFilter.reset : LoopFilter :=
  { filterType := false, level := 0, sharpness := 0, adjEnable := false
    refDelta := #v[0, 0, 0, 0], modeDelta := #v[0, 0, 0, 0] }

/-- Log entry 7. -/
def Entropy.reset : Entropy where
  coeff := Vector.replicate 4 (Vector.replicate 8 (Vector.replicate 3 (Vector.replicate 11 0)))
  ymode := #v[0, 0, 0, 0]
  uvmode := #v[0, 0, 0]
  mv := Vector.replicate 2 (Vector.replicate 19 0)

/-- Log entry 7. -/
def Pcs.reset : Pcs := { seg := Seg.reset, lf := LoopFilter.reset, entropy := Entropy.reset }

/-- Log entry 7. -/
def Fhr.reset : Fhr where
  keyFrame := false
  version := 0
  showFrame := false
  firstPartSize := 0
  firstPartOffset := 0
  width := 0
  height := 0
  horizontalScale := 0
  verticalScale := 0
  colorSpace := false
  clampingType := false
  seg := Seg.reset
  updateMbSegmentationMap := false
  updateSegmentFeatureData := false
  lf := LoopFilter.reset
  lfDeltaUpdate := false
  quant := { base := 0, delta := #v[0, 0, 0, 0, 0] }
  refresh := { golden := false, alternate := false, copyToGolden := 0, copyToAlternate := 0
               signBiasGolden := false, signBiasAlternate := false }
  refreshEntropyProbs := false
  refreshLast := false
  entropy := Entropy.reset
  mbNoSkipCoeff := false
  probSkipFalse := 0
  probIntra := 0
  probLast := 0
  probGf := 0
  numOfDctPartitions := 0

/-- Log entry 7. -/
def Pt.reset : Pt :=
  { count := 0, entry := Vector.replicate 8 { offsetAbs := 0, offsetRel := 0, size := 0 } }

/-- The state right after hardware reset (10_state R47, 70_reset_and_hazards R250): idle, `BD.valid = 0`,
`STATUS = 0x0000`, `ARG_NULL = 1`, "everything else is unspecified" and zero here by log entry 7. -/
def State.reset : State where
  fb := []
  argBase := 0
  argLen := 0
  argNull := true
  bd := Bd.reset
  result := .ok
  fhrValid := false
  res := 0
  posByte := 0
  posBit := 0
  fhr := Fhr.reset
  pt := Pt.reset
  pcs := Pcs.reset
  pcsSnap := Pcs.reset
  w := Entropy.reset
  fh := { phase := .idle, bytepos := 0 }
  cfg := Config.params
  draws := 0
  pending := []

end Sys2Proof.Machine
end

