-- ==== Sys2Proof/Machine/Ops.lean ====
section
/-! DEFINITION. The named operations: reading and writing FB, the BD unit's primitives `NextByte`, `Renormalise` and
`DecodeBool`, its construction and position, and what a failing command leaves (20_memory, 40_bd_commands R110 to R114,
60_exceptions R225 and R226). -/

namespace Sys2Proof.Machine

/-! ### The frame buffer -/

/-- What a byte of FB that nothing has written reads as (DESIGN CHOICE, log entry 8). -/
def fbDefault : Byte := 0

/-- `MemRead(a, 1)[0]` (20_memory R62). -/
def Memory.read : Memory → Nat → Byte
  | [], _ => fbDefault
  | (k, v) :: rest, a => if k = a then v else Memory.read rest a

/-- HOST's write of one byte, which keeps the canonical form.  The block itself has no `MemWrite` (20_memory R61). -/
def Memory.write : Memory → Nat → Byte → Memory
  | [], a, b => if b = fbDefault then [] else [(a, b)]
  | (k, v) :: rest, a, b =>
    if a < k then
      if b = fbDefault then (k, v) :: rest else (a, b) :: (k, v) :: rest
    else if a = k then
      if b = fbDefault then rest else (a, b) :: rest
    else (k, v) :: Memory.write rest a b

/-- The canonical form: addresses strictly rising and inside FB, and no entry equal to what an unlisted address reads
as. -/
abbrev Memory.wf (m : Memory) : Prop :=
  m.Pairwise (fun x y => x.1 < y.1) ∧ ∀ c ∈ m, c.1 < addrSpace ∧ c.2 ≠ fbDefault

/-- A 3-byte little-endian field at FB address `a` (20_memory R63). -/
def Memory.read24 (m : Memory) (a : Nat) : BitVec 24 := m.read (a + 2) ++ (m.read (a + 1) ++ m.read a)

/-- A 2-byte little-endian field at FB address `a` (20_memory R63, 30_encoding R88). -/
def Memory.read16 (m : Memory) (a : Nat) : BitVec 16 := m.read (a + 1) ++ m.read a

/-! ### The boolean decoder -/

/-- A read of the boolean decoder: from the BD registers to a value and the BD registers after it. -/
abbrev Rd (α : Type) := StateM Bd α

/-- The entry of a list of cells for an address. -/
def lookupCell : List Host.Cell → Nat → Option Byte
  | [], _ => none
  | (k, v) :: rest, a => if k = a then some v else lookupCell rest a

/-- The byte at slice index `i` as this decoder sees it: FB's, but for the bytes HOST has changed against
70_reset_and_hazards R256, which are free (93_implementation_defined U5). -/
def Bd.sliceByte (fb : Memory) (d : Bd) (i : Nat) : Byte :=
  (lookupCell d.overlay (d.base.toNat + i)).getD (fb.read (d.base.toNat + i))

/-- `NextByte()` (40_bd_commands R111). -/
def nextByte (fb : Memory) : Rd Byte := fun d =>
  (if d.cursor < d.len.toNat then d.sliceByte fb d.cursor else 0x00, { d with cursor := d.cursor + 1 })

/-- One pass of the loop of `Renormalise()` (40_bd_commands R114). -/
def shiftOnce (fb : Memory) (d : Bd) : Bd :=
  if d.bitCount = 7 then
    let r := nextByte fb { d with value := d.value <<< 1, range := d.range <<< 1, bitCount := 0 }
    { r.2 with value := r.2.value ||| r.1.setWidth 16 }
  else
    { d with value := d.value <<< 1, range := d.range <<< 1, bitCount := d.bitCount + 1 }

/-- The loop of `Renormalise()`, bounded by the number of passes left. -/
def renormLoop (fb : Memory) : Nat → Bd → Bd
  | 0, d => d
  | k + 1, d => if d.range.toNat < Config.renormMin then renormLoop fb k (shiftOnce fb d) else d

/-- `Renormalise()`: the loop runs "at most 7 times (when it is 1)" (40_bd_commands R114; log entry 9 on `range` = 0). -/
def renormalise (fb : Memory) (d : Bd) : Bd := renormLoop fb 7 d

/-- `split` (40_bd_commands R113). -/
def splitOf (range : BitVec 8) (p : Prob) : Nat := 1 + ((range.toNat - 1) * p.toNat) >>> 8

/-- `DecodeBool(p)` (40_bd_commands R113). -/
def decodeBool (fb : Memory) (p : Prob) : Rd Bool := fun d =>
  let split := splitOf d.range p
  let bigsplit := split <<< 8
  if bigsplit ≤ d.value.toNat then
    (true, renormalise fb
      { d with range := BitVec.ofNat 8 (d.range.toNat - split), value := BitVec.ofNat 16 (d.value.toNat - bigsplit) })
  else
    (false, renormalise fb { d with range := BitVec.ofNat 8 split })

/-- The decoder `BD.INIT` and `FH.PARSE` construct over a slice (40_bd_commands R110, 41_frame_header R158). -/
def Bd.construct (fb : Memory) (base len : Addr) : Bd :=
  let b0 := nextByte fb
    { range := Config.rangeInit, value := 0, bitCount := 0, base, len, cursor := 0, valid := true, overlay := [] }
  let b1 := nextByte fb b0.2
  { b1.2 with value := b0.1 ++ b1.1 }

/-- The stream position `P`, the number of shifts since construction (10_state R27). -/
def Bd.pos (d : Bd) : Nat := 8 * (d.cursor - 2) + d.bitCount.toNat

/-- Writing `POS_BYTE` with `P div 8` and `POS_BIT` with `P mod 8` (10_state R34, 40_bd_commands R119).  A byte offset of
more than `FB_AW` bits has no stated value and is free (93_implementation_defined U8, log entry 6). -/
def State.reportPos (s : State) : State :=
  if s.bd.pos / 8 < addrSpace then
    { s with posByte := BitVec.ofNat addrWidth (s.bd.pos / 8), posBit := BitVec.ofNat 3 (s.bd.pos % 8) }
  else
    { s with posByte := Config.freePosByte s.draws, posBit := BitVec.ofNat 3 (s.bd.pos % 8), draws := s.draws + 1 }

/-! ### Failures -/

/-- `raise Error(c)` in a BD command or for an illegal word: "Only `STATUS.result <- Error` is written"
(60_exceptions R226, 30_encoding R83). -/
def State.raise (c : Cause) (s : State) : State := { s with result := c.result }

/-- A value held to a signed field of `w + 1` bits.  DESIGN CHOICE (log entry 22): the field holds `-2^w` to `2^w - 1`,
though 10_state R38, R39 and R44 give its width alone and no coded value is `-2^w` (40_bd_commands R117). -/
def holdInt (w : Nat) (x : Int) : Int := if -(2 : Int) ^ w ≤ x ∧ x < 2 ^ w then x else 0

/-- Segmentation values within the widths of 10_state R38. -/
def Seg.hold (c : Params) (g : Seg) : Seg :=
  { g with quant := g.quant.map (holdInt c.segQBits), lf := g.lf.map (holdInt c.segLfBits) }

/-- Loop-filter values within the widths of 10_state R39. -/
def LoopFilter.hold (c : Params) (f : LoopFilter) : LoopFilter :=
  { f with
    level := f.level % 2 ^ c.lfLevelBits
    refDelta := f.refDelta.map (holdInt c.lfDeltaBits), modeDelta := f.modeDelta.map (holdInt c.lfDeltaBits) }

/-- A codec state with every field "still within its type" (93_implementation_defined U2). -/
def Pcs.hold (c : Params) (p : Pcs) : Pcs := { p with seg := p.seg.hold c, lf := p.lf.hold c }

/-- Header results with every field within its width in 10_state R44. -/
def Fhr.hold (c : Params) (h : Fhr) : Fhr :=
  { h with
    seg := h.seg.hold c, lf := h.lf.hold c
    quant := { h.quant with delta := h.quant.delta.map (holdInt c.qdeltaBits) } }

/-- PCS after `BrokenData`, by `PCS_ON_FAILURE` (41_frame_header R188, 93_implementation_defined U2). -/
def State.pcsAfterFailure (s : State) : Pcs :=
  match s.cfg.pcsOnFailure with
  | .rollback => s.pcsSnap
  | .any => (Config.freePcs s.draws).hold s.cfg

/-- The BD registers while `BD.valid = 0` after an `FH.PARSE`: unspecified (41_frame_header R188, U7). -/
def closedBd (draw : Nat) : Bd := { Config.freeBd draw with valid := false, overlay := [] }

/-- What an `FH.PARSE` that fails does to its outputs: `FHR`, `PT`, `POS_BYTE`, `POS_BIT <- any`, `fhr_valid <- 0`
(41_frame_header R188), `FHR` within the widths of 10_state R44. -/
def State.outputsAny (s : State) : State :=
  { s with
    fhr := (Config.freeFhr s.draws).hold s.cfg, pt := Config.freePt s.draws
    posByte := Config.freePosByte s.draws, posBit := Config.freePosBit s.draws
    fhrValid := false, draws := s.draws + 1, fh := { s.fh with phase := .idle } }

/-- `raise` inside `FH.PARSE` (41_frame_header R188, 60_exceptions R225 and R226): an `Error` leaves PCS and BD as they
are, a `BrokenData` restores PCS and leaves no decoder. -/
def State.failParse (c : Cause) (s : State) : State :=
  match c.result with
  | .brokenData =>
    ({ s with result := .brokenData, pcs := s.pcsAfterFailure, bd := closedBd s.draws } : State).outputsAny
  | r => ({ s with result := r } : State).outputsAny

end Sys2Proof.Machine
end

