-- ==== Sys2Proof/Machine/Flags.lean ====
section
/-! DEFINITION. The status bits.  "The block has no condition codes, carry, overflow or predicate flags. The only status
bits are `STATUS.result`, `STATUS.bd_valid` and `STATUS.fhr_valid`" (10_state R46). -/

namespace Sys2Proof.Machine

/-- `STATUS` as HOST reads it (10_state R32): bits 1:0 `result`, bit 2 `bd_valid`, "copy of `BD.valid`", bit 3
`fhr_valid`, bits 15:4 read as 0. -/
def State.status (s : State) : BitVec 16 :=
  (0 : BitVec 12) ++ (BitVec.ofBool s.fhrValid ++ (BitVec.ofBool s.bd.valid ++ s.result.code))

/-- `STATUS.result <- Ok` at the end of a BD command (40_bd_commands). -/
def State.complete (s : State) : State := { s with result := .ok }

end Sys2Proof.Machine
end

