-- ==== Sys2Proof/Machine/Operands.lean ====
section
/-! DEFINITION. The operand forms: the buffer of `ARG_NULL`, `ARG_BASE`, `ARG_LEN`, the four kinds of coded element
`B(p)`, `L(n)`, `F`, `S(n)` (30_encoding R90), and the gated and indexed forms the header is built of
(41_frame_header R159). -/

namespace Sys2Proof.Machine

/-- HOST's obligation on the buffer, `ARG_BASE + ARG_LEN <= 2^FB_AW` (20_memory R69). -/
def State.bufferFits (s : State) : Bool := decide (s.argBase.toNat + s.argLen.toNat ≤ addrSpace)

/-- `F[i] = MemRead(ARG_BASE + i, 1)[0]` (30_encoding R85). -/
def State.frameByte (s : State) (i : Nat) : Byte := s.fb.read (s.argBase.toNat + i)

/-- The loop of `readLiteral`: `v <- (v << 1) | DecodeBool(128)`, `n` times (40_bd_commands R116). -/
def litFrom (fb : Memory) : Nat → Nat → Rd Nat
  | 0, v => pure v
  | n + 1, v => do
    let b ← decodeBool fb Config.litProb
    litFrom fb n (2 * v + b.toNat)

/-- `L(n)`: `n` bits of probability 128, most significant first (30_encoding R90). -/
def lit (fb : Memory) (n : Nat) : Rd Nat := litFrom fb n 0

/-- `L(n)` held in a field of `w` bits. -/
def litField (fb : Memory) (w n : Nat) : Rd (BitVec w) := do
  let v ← lit fb n
  pure (BitVec.ofNat w v)

/-- `F` (30_encoding R90). -/
def flag (fb : Memory) : Rd Bool := decodeBool fb Config.litProb

/-- `S(n)`: `n` magnitude bits, then a sign bit (30_encoding R90, 40_bd_commands R117). -/
def signedLit (fb : Memory) (n : Nat) : Rd Int := do
  let m ← lit fb n
  let s ← decodeBool fb Config.litProb
  pure (if s then -(m : Int) else (m : Int))

/-- "decode a presence bit ...; if set, decode a replacement ... and overwrite": the presence bit is `B(p)` and the
value without it is `absent` (41_frame_header R173). -/
def updateAt {α : Type} (fb : Memory) (p : Prob) (rd : Rd α) (absent : α) : Rd α := do
  if ← decodeBool fb p then rd else pure absent

/-- The same behind a plain flag `F` (41_frame_header R161, R166, R168). -/
def whenFlag {α : Type} (fb : Memory) (rd : Rd α) (absent : α) : Rd α := updateAt fb Config.litProb rd absent

/-- A group behind an update flag already decoded: with the flag 0 it stays "untouched" (41_frame_header R161, R166). -/
def whenSet {α : Type} (update : Bool) (rd : α → Rd α) (x : α) : Rd α := if update then rd x else pure x

/-- `f` at each pair of a list in order. -/
def eachL {α β : Type} (f : α → β → Rd β) : List (α × β) → Rd (List β)
  | [] => pure []
  | (a, b) :: rest => do
    let x ← f a b
    let xs ← eachL f rest
    pure (x :: xs)

theorem eachL_length {α β : Type} (f : α → β → Rd β) (l : List (α × β)) (d : Bd) :
    (eachL f l d).1.length = l.length := by
  induction l generalizing d with
  | nil => rfl
  | cons ab rest ih => exact congrArg (· + 1) (ih (f ab.1 ab.2 d).2)

/-- `f` at each entry of a table of `n` entries in index order, beside a table of the entries' parameters. -/
def eachV {α β : Type} {n : Nat} (f : α → β → Rd β) (params : Vector α n) (old : Vector β n) : Rd (Vector β n) :=
  fun d =>
    let r := eachL f (params.toList.zip old.toList)
    (⟨(r d).1.toArray, by simp [r, eachL_length]⟩, (r d).2)

/-- `f` at each entry of a table in index order. -/
def each {β : Type} {n : Nat} (f : β → Rd β) (old : Vector β n) : Rd (Vector β n) := eachV (fun _ b => f b) old old

end Sys2Proof.Machine
end

