-- ==== Sys2Proof/Machine/BoolDecoder.lean ====
section
/-! DEFINITION. The meanings of the six BD commands (40_bd_commands R110, R115 to R119). -/

namespace Sys2Proof.Machine

/-- What a command answers: always a next state, but for the refusal of 20_memory R69. -/
abbrev Answer := Host.Outcome State Fault Refusal

/-- A BD read command (40_bd_commands R112, R115 to R118): with a decoder, the read's value goes to `RES`; without one,
`Error(E_BD_NOT_INIT)` and nothing else. -/
def readToRes (rd : Memory → Rd (BitVec 32)) (s : State) : Answer :=
  if s.bd.valid then
    let r := rd s.fb s.bd
    .next ({ s with bd := r.2, res := r.1 } : State).complete
  else
    .next (s.raise .bdNotInit)

/-- `zext_32` of one decoded bit. -/
def boolWord (fb : Memory) (p : Prob) : Rd (BitVec 32) := do
  let b ← decodeBool fb p
  pure ((BitVec.ofBool b).setWidth 32)

/-- `zext_32` of an unsigned literal. -/
def litWord (fb : Memory) (n : Nat) : Rd (BitVec 32) := do
  let v ← lit fb n
  pure (BitVec.ofNat 32 v)

/-- `sext_32` of a signed literal. -/
def signedWord (fb : Memory) (n : Nat) : Rd (BitVec 32) := do
  let r ← signedLit fb n
  pure (BitVec.ofInt 32 r)

/-- `BD.INIT` (40_bd_commands R110; the refusal: 20_memory R69). -/
def execBdInit (s : State) : Answer :=
  if s.argNull then .next (s.raise .nullBuffer)
  else if s.bufferFits then .next ({ s with bd := Bd.construct s.fb s.argBase s.argLen } : State).complete
  else .refused .bufferBeyondAddressSpace

/-- `BD.RBOOL p` (40_bd_commands R115). -/
def execBdRbool (p : Byte) (s : State) : Answer := readToRes (fun fb => boolWord fb p) s

/-- `BD.RLIT n` (40_bd_commands R116); `n > 32` is an illegal command (30_encoding R83). -/
def execBdRlit (n : Byte) (s : State) : Answer :=
  if n.toNat ≤ litMax then readToRes (fun fb => litWord fb n.toNat) s else .next (s.raise .illegalCmd)

/-- `BD.RSLIT n` (40_bd_commands R117); `n > 31` is an illegal command (30_encoding R83). -/
def execBdRslit (n : Byte) (s : State) : Answer :=
  if n.toNat ≤ slitMax then readToRes (fun fb => signedWord fb n.toNat) s else .next (s.raise .illegalCmd)

/-- `BD.RFLAG` (40_bd_commands R118). -/
def execBdRflag (s : State) : Answer := readToRes (fun fb => boolWord fb Config.litProb) s

/-- `BD.POS` (40_bd_commands R119). -/
def execBdPos (s : State) : Answer :=
  if s.bd.valid then .next s.reportPos.complete else .next (s.raise .bdNotInit)

end Sys2Proof.Machine
end

