-- ==== Sys2Proof/Machine/FrameTag.lean ====
section
/-! DEFINITION. S1 of `FH.PARSE`: the byte-aligned prefix of a frame, the keyframe reset, and the construction of the
header's decoder (41_frame_header R152 to R158, 30_encoding R86 to R89). -/

namespace Sys2Proof.Machine

/-- A step of the sequencer that can `raise`: the cause with the state it was met in, or the state after. -/
abbrev Pass := Except (Cause × State) State

/-- `phase <- Sx` (10_state R29). -/
def State.enter (p : Phase) (s : State) : State := { s with fh := { s.fh with phase := p } }

/-- The entry of `FH.PARSE` once `S0` has passed: the snapshot (41_frame_header R152), `FH.bytepos` = 0 (10_state R28),
and `FHR` with nothing known of any field (what the frame codes is written below; the rest stays free, U7). -/
def State.beginParse (s : State) : State :=
  { s with pcsSnap := s.pcs, fhr := Config.freeFhr s.draws, fh := { phase := .s1, bytepos := 0 } }

/-- `T`, the frame tag as a 24-bit number (30_encoding R86). -/
def State.tag (s : State) : BitVec 24 := s.fb.read24 s.argBase.toNat

/-- `TAG_BIT3_POLICY`: whether the tag's version exceeds 3 as `version_msb` counts it (30_encoding R86). -/
def versionBroken (c : Params) (t : BitVec 24) : Bool :=
  match c.tagBit3Policy with
  | .ignore => false
  | .versionMsb => decide (3 < (t.extractLsb' 1 3).toNat)

/-- The fields of the tag and `FH.bytepos` (41_frame_header R153). -/
def State.setTag (s : State) : State :=
  { s with
    fhr := { s.fhr with
      keyFrame := !s.tag.getLsbD 0
      version := s.tag.extractLsb' 1 2
      showFrame := s.tag.getLsbD 4
      firstPartSize := s.tag.extractLsb' 5 19 }
    fh := { s.fh with bytepos := 3 } }

/-- `S1`, ParseFrameTag (41_frame_header R153). -/
def parseTag (s : State) : Pass :=
  if s.argLen.toNat < 3 then .error (.shortFrame, s)
  else if versionBroken s.cfg s.tag then .error (.badEnum, s)
  else .ok s.setTag

/-- `resetToDefaults(PCS)` (41_frame_header R155). -/
def defaultPcs (c : Params) : Pcs where
  seg := { enabled := false, featureMode := false, quant := #v[0, 0, 0, 0], lf := #v[0, 0, 0, 0]
           prob := c.defaultSegProbs }
  lf := { filterType := false, level := 0, sharpness := 0, adjEnable := false
          refDelta := #v[0, 0, 0, 0], modeDelta := #v[0, 0, 0, 0] }
  entropy := { coeff := c.defaultCoeffProbs, ymode := c.defaultYmodeProbs, uvmode := c.defaultUvmodeProbs
               mv := c.defaultMvProbs }

/-- Whether `F[3..5]` are `START_CODE` (30_encoding R87). -/
def State.startCodeOk (s : State) : Bool :=
  s.frameByte 3 == s.cfg.startCode[0] && s.frameByte 4 == s.cfg.startCode[1] && s.frameByte 5 == s.cfg.startCode[2]

/-- A keyframe's dimensions (30_encoding R88), `FH.bytepos` and the reset of PCS (41_frame_header R154, R155). -/
def State.keyExtension (s : State) : State :=
  let wd := s.fb.read16 (s.argBase.toNat + 6)
  let ht := s.fb.read16 (s.argBase.toNat + 8)
  { s with
    fhr := { s.fhr with
      width := wd.extractLsb' 0 14, horizontalScale := wd.extractLsb' 14 2
      height := ht.extractLsb' 0 14, verticalScale := ht.extractLsb' 14 2 }
    fh := { s.fh with bytepos := 10 }
    pcs := defaultPcs s.cfg }

/-- `FHR.first_part_offset <- FH.bytepos` (41_frame_header R154). -/
def State.setFirstPartOffset (s : State) : State :=
  { s with fhr := { s.fhr with firstPartOffset := s.fh.bytepos.toNat } }

/-- `S1` continued: the keyframe extension, then `FHR.first_part_offset` (41_frame_header R154). -/
def parseKeyExtension (s : State) : Pass :=
  if s.fhr.keyFrame then
    if s.argLen.toNat < 10 then .error (.shortFrame, s)
    else if s.startCodeOk then .ok s.keyExtension.setFirstPartOffset
    else .error (.badStartCode, s)
  else .ok s.setFirstPartOffset

/-- `first_part_offset + first_part_size`, the end of the first partition (41_frame_header R156, R181). -/
def Fhr.firstPartEnd (h : Fhr) : Nat := h.firstPartOffset + h.firstPartSize.toNat

/-- First-partition bounds (41_frame_header R156). -/
def checkFirstPart (s : State) : Pass :=
  if s.argLen.toNat < s.fhr.firstPartEnd then .error (.firstPartOverflow, s) else .ok s

/-- The working copy `W <- PCS.entropy` (41_frame_header R157) and the decoder over the first partition (R158). -/
def State.openFirstPart (s : State) : State :=
  { s with
    w := s.pcs.entropy
    bd := Bd.construct s.fb (s.argBase + BitVec.ofNat addrWidth s.fhr.firstPartOffset)
      (s.fhr.firstPartSize.setWidth addrWidth) }

/-- All of `S1` up to the first coded element. -/
def parsePrefix (s : State) : Pass := do
  let s ← parseTag s
  let s ← parseKeyExtension s
  let s ← checkFirstPart s
  pure s.openFirstPart

end Sys2Proof.Machine
end

