-- ==== Sys2Proof/Machine/HeaderElements.lean ====
section
/-! DEFINITION. The coded elements of the first partition, S1 rows 1 and 2 to S6M of `FH.PARSE`, in the order of
41_frame_header R160. -/

namespace Sys2Proof.Machine

/-- Run a read on the live decoder and store what it gives: the shape of every pass below. -/
def State.decoding {α : Type} (s : State) (rd : Rd α) (store : α → State → State) : State :=
  store (rd s.bd).1 { s with bd := (rd s.bd).2 }

/-! ### Rows 1 and 2 -/

/-- `color_space`, then `clamping_type`. -/
def colorHeader (fb : Memory) : Rd (Bool × Bool) := do
  let space ← flag fb
  let clamping ← flag fb
  pure (space, clamping)

/-- What the pass stores. -/
def State.setColor (r : Bool × Bool) (s : State) : State :=
  { s with fhr := { s.fhr with colorSpace := r.1, clampingType := r.2 } }

/-- Keyframes with `GK_ROWS` present (41_frame_header R160 rows 1 and 2). -/
def parseColor (s : State) : State :=
  if s.fhr.keyFrame && s.cfg.gkRows then s.decoding (colorHeader s.fb) State.setColor else s

/-! ### S2, segmentation -/

/-- The value of a per-segment entry whose group is updated but whose own presence bit is 0 (41_frame_header R163). -/
def absentEntry {α : Type} (c : Params) (resetTo old : α) : α :=
  match c.segEntryAbsent with
  | .reset => resetTo
  | .keep => old

/-- The group of `update_segment_feature_data`, rows 6 to 8 (41_frame_header R161). -/
def segFeatureData (c : Params) (fb : Memory) (g : Seg) : Rd Seg := do
  let mode ← flag fb
  let quant ← each (fun old => whenFlag fb (signedLit fb c.segQBits) (absentEntry c 0 old)) g.quant
  let lf ← each (fun old => whenFlag fb (signedLit fb c.segLfBits) (absentEntry c 0 old)) g.lf
  pure { g with featureMode := mode, quant := quant, lf := lf }

/-- The group of `update_mb_segmentation_map`, row 9 (41_frame_header R161). -/
def segTreeProbs (c : Params) (fb : Memory) (g : Seg) : Rd Seg := do
  let prob ← each (fun old => whenFlag fb (litField fb 8 8) (absentEntry c 255 old)) g.prob
  pure { g with prob := prob }

/-- ParseSegmentationHeader, with the two update flags (41_frame_header R161). -/
def segHeader (c : Params) (fb : Memory) (g : Seg) : Rd (Seg × Bool × Bool) := do
  let enabled ← flag fb
  if enabled then do
    let updateMap ← flag fb
    let updateData ← flag fb
    let g ← whenSet updateData (segFeatureData c fb) { g with enabled := true }
    let g ← whenSet updateMap (segTreeProbs c fb) g
    pure (g, updateMap, updateData)
  else pure ({ g with enabled := false }, false, false)

/-- What the pass stores. -/
def State.setSegmentation (r : Seg × Bool × Bool) (s : State) : State :=
  { s with
    pcs := { s.pcs with seg := r.1 }
    fhr := { s.fhr with updateMbSegmentationMap := r.2.1, updateSegmentFeatureData := r.2.2 } }

/-- `S2` (41_frame_header R161). -/
def parseSegmentation (s : State) : State :=
  (s.enter .s2).decoding (segHeader s.cfg s.fb s.pcs.seg) State.setSegmentation

/-! ### S3, loop filter -/

/-- The eight deltas, "each preceded by its own presence bit; unset entries keep prior value" (41_frame_header R166). -/
def lfDeltas (c : Params) (fb : Memory) (f : LoopFilter) : Rd LoopFilter := do
  let ref ← each (fun old => whenFlag fb (signedLit fb c.lfDeltaBits) old) f.refDelta
  let mode ← each (fun old => whenFlag fb (signedLit fb c.lfDeltaBits) old) f.modeDelta
  pure { f with refDelta := ref, modeDelta := mode }

/-- ParseLoopFilterHeader, with `delta_update` (41_frame_header R164, R166). -/
def lfHeader (c : Params) (fb : Memory) (f : LoopFilter) : Rd (LoopFilter × Bool) := do
  let type ← flag fb
  let level ← lit fb c.lfLevelBits
  let sharpness ← litField fb 3 3
  let adj ← flag fb
  let f := { f with filterType := type, level := level, sharpness := sharpness, adjEnable := adj }
  if adj then do
    let update ← flag fb
    let f ← whenSet update (lfDeltas c fb) f
    pure (f, update)
  else pure (f, false)

/-- What the pass stores. -/
def State.setLoopFilter (r : LoopFilter × Bool) (s : State) : State :=
  { s with pcs := { s.pcs with lf := r.1 }, fhr := { s.fhr with lfDeltaUpdate := r.2 } }

/-- `S3` (41_frame_header R164, R166). -/
def parseLoopFilter (s : State) : State :=
  (s.enter .s3).decoding (lfHeader s.cfg s.fb s.pcs.lf) State.setLoopFilter

/-! ### S3P and S4, partition count and quantiser -/

/-- `FHR.num_of_dct_partitions <- 1 << v` (41_frame_header R167). -/
def State.setPartCount (v : Nat) (s : State) : State :=
  { s with fhr := { s.fhr with numOfDctPartitions := BitVec.ofNat 4 (1 <<< v) } }

/-- `S3P` (41_frame_header R167). -/
def parsePartCount (s : State) : State :=
  (s.enter .s3p).decoding (lit s.fb s.cfg.partCntBits) State.setPartCount

/-- ParseQuantizationHeader (41_frame_header R168). -/
def quantHeader (c : Params) (fb : Memory) : Rd Quant := do
  let base ← litField fb 7 7
  let delta ← each (fun absent => whenFlag fb (signedLit fb c.qdeltaBits) absent) #v[0, 0, 0, 0, 0]
  pure { base := base, delta := delta }

/-- What the pass stores. -/
def State.setQuant (q : Quant) (s : State) : State := { s with fhr := { s.fhr with quant := q } }

/-- `S4` (41_frame_header R168). -/
def parseQuant (s : State) : State := (s.enter .s4).decoding (quantHeader s.cfg s.fb) State.setQuant

/-! ### S5, refresh bookkeeping -/

/-- What a keyframe forces the refresh fields to (41_frame_header R170; PRESUMED, log entry 10). -/
def keyRefresh : Refresh where
  golden := true
  alternate := true
  copyToGolden := 0
  copyToAlternate := 0
  signBiasGolden := false
  signBiasAlternate := false

/-- A 2-bit copy mode, coded "only if a buffer is *not* refreshed", else 0 (41_frame_header R169). -/
def copyMode (fb : Memory) (refreshed : Bool) : Rd (BitVec 2) :=
  if refreshed then pure 0 else litField fb 2 2

/-- An invalid copy mode (41_frame_header R171). -/
def copyModeBroken (c : Params) (m : BitVec 2) : Bool := c.copymode3Broken && m == 3

/-- `refresh_last` of an interframe, row 28, with `GK_ROWS` present; else it stays `absent` (41_frame_header R172). -/
def refreshLast (c : Params) (fb : Memory) (absent : Bool) : Rd Bool :=
  if c.gkRows then flag fb else pure absent

/-- Rows 25 to 28 of an interframe: the sign biases, `refresh_entropy_probs`, `refresh_last` (41_frame_header R169,
R172). -/
def interRefreshTail (c : Params) (fb : Memory) (absent golden alternate : Bool) (toGolden toAlternate : BitVec 2) :
    Rd (Refresh × Bool × Bool) := do
  let biasGolden ← flag fb
  let biasAlternate ← flag fb
  let entropy ← flag fb
  let last ← refreshLast c fb absent
  pure ({ golden := golden, alternate := alternate, copyToGolden := toGolden, copyToAlternate := toAlternate
          signBiasGolden := biasGolden, signBiasAlternate := biasAlternate }, entropy, last)

/-- `S5` on an interframe, rows 21 to 28: the refresh fields, `refresh_entropy_probs` and `refresh_last`
(41_frame_header R169, R171, R172). -/
def interRefresh (c : Params) (fb : Memory) (absent : Bool) : Rd (Except Cause (Refresh × Bool × Bool)) := do
  let golden ← flag fb
  let alternate ← flag fb
  let toGolden ← copyMode fb golden
  if copyModeBroken c toGolden then pure (.error .badEnum)
  else do
    let toAlternate ← copyMode fb alternate
    if copyModeBroken c toAlternate then pure (.error .badEnum)
    else do
      let r ← interRefreshTail c fb absent golden alternate toGolden toAlternate
      pure (.ok r)

/-- `S5` on a keyframe, row 20: the forced values, `refresh_last` = 1 among them, and `refresh_entropy_probs`
(41_frame_header R170, R172; the values PRESUMED, log entry 10).  `GK_ROWS` says what is decoded, and none of the forced
values is. -/
def keyRefreshHeader (fb : Memory) : Rd (Refresh × Bool × Bool) := do
  let entropy ← flag fb
  pure (keyRefresh, entropy, true)

/-- What the pass stores. -/
def State.setRefresh (r : Refresh × Bool × Bool) (s : State) : State :=
  { s with fhr := { s.fhr with refresh := r.1, refreshEntropyProbs := r.2.1, refreshLast := r.2.2 } }

/-- The BD registers after a read whose value raises or is stored. -/
def State.setBd (d : Bd) (s : State) : State := { s with bd := d }

/-- `S5` on an interframe (41_frame_header R169, R171, R172). -/
def parseInterRefresh (s : State) : Pass :=
  match (interRefresh s.cfg s.fb s.fhr.refreshLast s.bd).1 with
  | .error c => .error (c, s.setBd (interRefresh s.cfg s.fb s.fhr.refreshLast s.bd).2)
  | .ok r => .ok ((s.setBd (interRefresh s.cfg s.fb s.fhr.refreshLast s.bd).2).setRefresh r)

/-- `S5` on a keyframe (41_frame_header R170, R172). -/
def parseKeyRefresh (s : State) : State :=
  s.decoding (keyRefreshHeader s.fb) State.setRefresh

/-- `S5` (41_frame_header R169 to R172). -/
def parseRefresh (s : State) : Pass :=
  if s.fhr.keyFrame then .ok (parseKeyRefresh (s.enter .s5)) else parseInterRefresh (s.enter .s5)

/-! ### S6T, S7, S6I, S6M: probabilities -/

/-- ParseTokenProbs over the whole table, "block type outermost, tree node innermost" (41_frame_header R173). -/
def tokenProbs (c : Params) (fb : Memory) (old : CoeffTable) : Rd CoeffTable :=
  eachV (eachV (eachV (eachV fun p o => updateAt fb p (litField fb 8 8) o))) c.coeffUpdateProbs old

/-- What the pass stores. -/
def State.setTokenProbs (t : CoeffTable) (s : State) : State := { s with w := { s.w with coeff := t } }

/-- `S6T` (41_frame_header R173). -/
def parseTokenProbs (s : State) : State :=
  (s.enter .s6t).decoding (tokenProbs s.cfg s.fb s.w.coeff) State.setTokenProbs

/-- `mb_no_skip_coeff` and `prob_skip_false` (41_frame_header R174). -/
def skipHeader (fb : Memory) : Rd (Bool × Prob) := do
  let noSkip ← flag fb
  if noSkip then do
    let p ← litField fb 8 8
    pure (true, p)
  else pure (false, 0)

/-- `prob_intra`, `prob_last`, `prob_gf` (41_frame_header R175). -/
def interProbs (fb : Memory) : Rd (Prob × Prob × Prob) := do
  let intra ← litField fb 8 8
  let last ← litField fb 8 8
  let gf ← litField fb 8 8
  pure (intra, last, gf)

/-- What the pass stores. -/
def State.setSkip (r : Bool × Prob) (s : State) : State :=
  { s with fhr := { s.fhr with mbNoSkipCoeff := r.1, probSkipFalse := r.2 } }

/-- `S7`, first part (41_frame_header R174). -/
def parseSkip (s : State) : State := (s.enter .s7).decoding (skipHeader s.fb) State.setSkip

/-- What the pass stores. -/
def State.setInterProbs (r : Prob × Prob × Prob) (s : State) : State :=
  { s with fhr := { s.fhr with probIntra := r.1, probLast := r.2.1, probGf := r.2.2 } }

/-- `S7`, second part, interframes only (41_frame_header R175). -/
def parseInterProbs (s : State) : State :=
  if s.fhr.keyFrame then s else s.decoding (interProbs s.fb) State.setInterProbs

/-- One group of mode probabilities, by `INTRA_GATING` (41_frame_header R176). -/
def modeProbs {n : Nat} (c : Params) (fb : Memory) (old : Vector Prob n) : Rd (Vector Prob n) :=
  match c.intraGating with
  | .perEntry => each (fun o => updateAt fb c.intraUpdateProb (litField fb 8 8) o) old
  | .perGroup => whenFlag fb (each (fun _ => litField fb 8 8) old) old

/-- The two groups, Y then UV (41_frame_header R176). -/
def intraProbs (c : Params) (fb : Memory) (y : Vector Prob 4) (uv : Vector Prob 3) : Rd (Vector Prob 4 × Vector Prob 3) := do
  let y ← modeProbs c fb y
  let uv ← modeProbs c fb uv
  pure (y, uv)

/-- What the pass stores. -/
def State.setIntraProbs (r : Vector Prob 4 × Vector Prob 3) (s : State) : State :=
  { s with w := { s.w with ymode := r.1, uvmode := r.2 } }

/-- `S6I`, ParseIntraProbs, interframes only (41_frame_header R176). -/
def parseIntraProbs (s : State) : State :=
  if s.fhr.keyFrame then s
  else (s.enter .s6i).decoding (intraProbs s.cfg s.fb s.w.ymode s.w.uvmode) State.setIntraProbs

/-- A replacement motion-vector probability, by `MV_PROB_CODING` (41_frame_header R177). -/
def mvProb (c : Params) (fb : Memory) : Rd Prob :=
  match c.mvProbCoding with
  | .lit8 => litField fb 8 8
  | .lit7Shift => do
    let x ← lit fb 7
    pure (if x = 0 then 1 else BitVec.ofNat 8 (x <<< 1))

/-- ParseMVProbs over the whole table (41_frame_header R177). -/
def mvProbs (c : Params) (fb : Memory) (old : MvTable) : Rd MvTable :=
  eachV (eachV fun p o => updateAt fb p (mvProb c fb) o) c.mvUpdateProbs old

/-- What the pass stores. -/
def State.setMvProbs (t : MvTable) (s : State) : State := { s with w := { s.w with mv := t } }

/-- `S6M`, interframes only (41_frame_header R177). -/
def parseMvProbs (s : State) : State :=
  if s.fhr.keyFrame then s else (s.enter .s6m).decoding (mvProbs s.cfg s.fb s.w.mv) State.setMvProbs

/-- The elements before the refresh fields, S1 rows 1 and 2 to S4 (41_frame_header R160). -/
def parseFrontElements (s : State) : State :=
  parseQuant (parsePartCount (parseLoopFilter (parseSegmentation (parseColor s))))

/-- The elements after them, S6T to S6M (41_frame_header R160). -/
def parseBackElements (s : State) : State :=
  parseMvProbs (parseIntraProbs (parseInterProbs (parseSkip (parseTokenProbs s))))

/-- All coded elements of the header in the order of 41_frame_header R160. -/
def parseElements (s : State) : Pass := do
  let s ← parseRefresh (parseFrontElements s)
  pure (parseBackElements s)

end Sys2Proof.Machine
end

