-- ==== Sys2Proof/Machine/PartitionLayout.lean ====
section
/-! DEFINITION. S8 of `FH.PARSE`: the partition layout extractor PLE, "a pure function ... with bounds validation"
(41_frame_header R180 to R184, 30_encoding R92). -/

namespace Sys2Proof.Machine

/-- The coded sizes, fields `0` to `n - 1` of the partition-size table at frame offset `t` (30_encoding R92). -/
def codedSizes (fb : Memory) (base t : Nat) : Nat → List Nat
  | 0 => []
  | n + 1 => (fb.read24 (base + t)).toNat :: codedSizes fb base (t + 3) n

/-- A partition table entry from its three numbers (41_frame_header R183, R184). -/
def ptEntry (d0 rel size : Nat) : PtEntry :=
  { offsetAbs := BitVec.ofNat addrWidth (d0 + rel), offsetRel := BitVec.ofNat addrWidth rel
    size := BitVec.ofNat addrWidth size }

/-- Offsets and the last size (41_frame_header R183): the entries of the partitions from relative offset `rel` on, the
coded ones and then the last, whose size is the remainder. -/
def layout (zeroBroken : Bool) (frameLen d0 rel : Nat) : List Nat → Except Cause (List PtEntry)
  | [] => .ok [ptEntry d0 rel (frameLen - (d0 + rel))]
  | size :: rest =>
    if zeroBroken && size == 0 then .error .partZeroSize
    else if frameLen < d0 + rel + size then .error .partOverflow
    else
      match layout zeroBroken frameLen d0 (rel + size) rest with
      | .error c => .error c
      | .ok entries => .ok (ptEntry d0 rel size :: entries)

/-- `PT` with `n` entries; "entries at `i >= PT.count` are unspecified" (10_state R36): those of `rest`. -/
def ptOf (n : BitVec 4) (entries : List PtEntry) (rest : Vector PtEntry 8) : Pt :=
  { count := n, entry := Vector.ofFn fun i => entries.getD i.val rest[i] }

/-- The layout of a frame (41_frame_header R181 to R183): `t` is the declared end of the first partition, `n` the
number of partitions. -/
def extractLayout (zeroBroken : Bool) (fb : Memory) (base frameLen t n : Nat) : Except Cause (List PtEntry) :=
  if frameLen < t + 3 * (n - 1) then .error .partTableOverflow
  else layout zeroBroken frameLen (t + 3 * (n - 1)) 0 (codedSizes fb base t (n - 1))

/-- `phase <- S8` and `FH.bytepos <- t` (41_frame_header R181). -/
def State.enterPartitions (s : State) : State :=
  { s with fh := { phase := .s8, bytepos := BitVec.ofNat addrWidth s.fhr.firstPartEnd } }

/-- What the pass stores. -/
def State.setPt (p : Pt) (s : State) : State := { s with pt := p }

/-- `S8`, ParsePartitions (41_frame_header R180 to R183). -/
def parsePartitions (s : State) : Pass :=
  match extractLayout s.cfg.zeroSizePartBroken s.fb s.argBase.toNat s.argLen.toNat s.fhr.firstPartEnd
      s.fhr.numOfDctPartitions.toNat with
  | .error c => .error (c, s.enterPartitions)
  | .ok entries =>
    .ok (s.enterPartitions.setPt (ptOf s.fhr.numOfDctPartitions entries (Config.freePt s.draws).entry))

end Sys2Proof.Machine
end

