-- ==== Sys2Proof/Machine/FrameHeader.lean ====
section
/-! DEFINITION. The meaning of `FH.PARSE` (41_frame_header R150, R151, R178, R187, R188). -/

namespace Sys2Proof.Machine

/-- Everything of `FH.PARSE` between `S0` and the commit: the prefix, the coded elements, the position capture (R178),
the partition layout. -/
def parseFrame (s : State) : Pass := do
  let s ← parsePrefix s.beginParse
  let s ← parseElements s
  parsePartitions s.reportPos

/-- Commit (41_frame_header R187).  `PCS.entropy` still holds the baseline `B0` here: "All entropy updates of this frame
go to `W`, none to `PCS.entropy` directly" (R157). -/
def State.commit (s : State) : State :=
  { s with
    pcs := { s.pcs with entropy := if s.fhr.refreshEntropyProbs then s.w else s.pcs.entropy }
    fhr := { s.fhr with seg := s.pcs.seg, lf := s.pcs.lf, entropy := s.w }
    bd := closedBd s.draws
    result := .ok
    fhrValid := true
    fh := { s.fh with phase := .idle }
    draws := s.draws + 1 }

/-- `FH.PARSE` (41_frame_header R150, with `S0` of R151; the refusal: 20_memory R69). -/
def execFhParse (s : State) : Answer :=
  if s.argNull then .next (s.failParse .nullBuffer)
  else if s.argLen = 0 then .next (s.failParse .zeroSize)
  else if s.bufferFits then
    match parseFrame s with
    | .ok t => .next t.commit
    | .error (c, t) => .next (t.failParse c)
  else .refused .bufferBeyondAddressSpace

end Sys2Proof.Machine
end

