-- ==== Sys2Proof/Machine/Dispatch.lean ====
section
/-! DEFINITION. The dispatch of a command to its meaning. -/

namespace Sys2Proof.Machine

def exec (i : Instr) (s : State) : Host.Outcome State Fault Refusal :=
  match i with
  | .bdInit => Sys2Proof.Machine.execBdInit s
  | .bdRbool p => Sys2Proof.Machine.execBdRbool p s
  | .bdRlit n => Sys2Proof.Machine.execBdRlit n s
  | .bdRslit n => Sys2Proof.Machine.execBdRslit n s
  | .bdRflag => Sys2Proof.Machine.execBdRflag s
  | .bdPos => Sys2Proof.Machine.execBdPos s
  | .fhParse => Sys2Proof.Machine.execFhParse s

end Sys2Proof.Machine
end

