-- ==== Sys2Proof/Machine/HostOps.lean ====
section
/-! DEFINITION. HOST's moves: a command word written to `CMD`, a write of an argument register, a write of a byte of FB
(10_state R30, R31, R37; 20_memory R72; 70_reset_and_hazards R256, R261). -/

namespace Sys2Proof.Machine

/-- Writing a command word to `CMD` "executes that command to completion as one atomic step" (10_state R30); an illegal
word completes at once with `Error` and "changes no other state" (30_encoding R83). -/
def runCommand (w : CmdWord) (s : State) : Answer :=
  match decode w with
  | .ok i => exec i s
  | .error _ => .next (s.raise .illegalCmd)

/-- Whether FB address `a` is in the part of the slice the decoder has still to fetch (70_reset_and_hazards R256). -/
def Bd.unread (d : Bd) (a : Nat) : Bool :=
  d.valid && decide (d.base.toNat + d.cursor ≤ a) && decide (a < d.base.toNat + d.len.toNat)

/-- HOST writes a byte of FB.  Where this changes a byte the live decoder has still to fetch, what that decoder will see
there is free (93_implementation_defined U5, log entry 4). -/
def State.hostWrite (a : Addr) (b : Byte) (s : State) : State :=
  if s.bd.unread a.toNat && s.fb.read a.toNat != b then
    { s with
      fb := s.fb.write a.toNat b
      bd := { s.bd with overlay := (a.toNat, Config.freeByte s.draws) :: s.bd.overlay }
      draws := s.draws + 1 }
  else { s with fb := s.fb.write a.toNat b }

/-- What HOST can read (10_state R37): `ARG_*`, `STATUS`, `RES`, `POS_*`, `FHR`, `PT`, and FB, which is its own.  A read
changes nothing, so it is no move. -/
structure HostView where
  argBase : Addr
  argLen : Addr
  argNull : Bool
  status : BitVec 16
  res : BitVec 32
  posByte : Addr
  posBit : BitVec 3
  fhr : Fhr
  pt : Pt
deriving DecidableEq, Repr

/-- The registers as HOST reads them (10_state R37). -/
def State.hostView (s : State) : HostView :=
  { argBase := s.argBase, argLen := s.argLen, argNull := s.argNull, status := s.status, res := s.res
    posByte := s.posByte, posBit := s.posBit, fhr := s.fhr, pt := s.pt }

/-- One move of HOST (10_state R37). -/
def perform (a : HostAction) (s : State) : Answer :=
  match a with
  | .writeCmd w => runCommand w s
  | .setArgBase v => .next { s with argBase := v }
  | .setArgLen v => .next { s with argLen := v }
  | .setArgNull v => .next { s with argNull := v }
  | .writeFb a b => .next (s.hostWrite a b)

end Sys2Proof.Machine
end

