-- ==== Sys2Proof/Machine/Step.lean ====
section
/-! DEFINITION. One step of the machine: the next HOST action, or nothing (70_reset_and_hazards R250, R261). -/

namespace Sys2Proof.Machine

/-- "The block does nothing until HOST writes `CMD`" (70_reset_and_hazards R250); with an action pending, it is
performed. -/
def step (s : State) : Host.Outcome State Fault Refusal :=
  match s.pending with
  | [] => .next s
  | a :: rest => perform a { s with pending := rest }

/-- `s` with the command word of the opcode table's bits `w` as HOST's very next action (log entry 5). -/
def State.withFetchWord (s : State) (nbits w : Nat) : State :=
  { s with pending := .writeCmd (BitVec.ofNat 16 (w % 2 ^ nbits)) :: s.pending }

end Sys2Proof.Machine
end

