-- ==== Sys2Proof/Safety.lean ====
section
/-! DEFINITION. The terms claims are made in: the invariant of the machine between HOST's actions, when a frame's prefix
is accepted, which bytes two frame buffers must share, the bits of a slice, and the elements of a header read one after
the other in the order of 41_frame_header R160. -/

namespace Sys2Proof.Machine

/-- 10_state R26 (a), (c), (d) while `BD.valid = 1`, with the window inside FB (20_memory R62, R69); (b) is the width of
`BD.bit_count`. -/
abbrev Bd.Ready (d : Bd) : Prop :=
  128 ≤ d.range.toNat ∧ 2 ≤ d.cursor ∧ d.value.toNat % 2 ^ d.bitCount.toNat = 0 ∧
    d.base.toNat + d.len.toNat ≤ addrSpace

/-- 10_state R26 (e): `BD.value < BD.range * 256`. -/
abbrev Bd.Below (d : Bd) : Prop := d.value.toNat < d.range.toNat * 256

/-- Every entry of a signed table fits `w + 1` bits, from `-2^w` to `2^w - 1` (DESIGN CHOICE, log entry 22). -/
abbrev heldTo {n : Nat} (w : Nat) (v : Vector Int n) : Prop := ∀ i : Fin n, -(2 : Int) ^ w ≤ v[i] ∧ v[i] < 2 ^ w

/-- Every segmentation value is within its width (10_state R38). -/
abbrev Seg.Within (c : Params) (g : Seg) : Prop := heldTo c.segQBits g.quant ∧ heldTo c.segLfBits g.lf

/-- Every loop-filter value is within its width (10_state R39). -/
abbrev LoopFilter.Within (c : Params) (f : LoopFilter) : Prop :=
  f.level < 2 ^ c.lfLevelBits ∧ heldTo c.lfDeltaBits f.refDelta ∧ heldTo c.lfDeltaBits f.modeDelta

/-- Every field of `PCS` of parameter width is within it (10_state R38, R39). -/
abbrev Pcs.Within (c : Params) (p : Pcs) : Prop := p.seg.Within c ∧ p.lf.Within c

/-- Every field of `FHR` of parameter width is within it (10_state R44). -/
abbrev Fhr.Within (c : Params) (h : Fhr) : Prop := h.seg.Within c ∧ h.lf.Within c ∧ heldTo c.qdeltaBits h.quant.delta

/-- What holds between HOST's actions: FB in its canonical form, the sequencer idle (10_state R29), a valid decoder as
R26 says, PCS, its snapshot and `FHR` within their widths, and, while `STATUS.fhr_valid` is 1, a partition count of 1, 2, 4 or 8 in both `PT` and
`FHR` (R36, 41_frame_header R167) and a first-partition offset of 3 or 10 (R44). -/
abbrev State.Inv (s : State) : Prop :=
  s.fb.wf ∧ s.fh.phase = .idle ∧ (s.bd.valid = true → s.bd.Ready) ∧ s.pcs.Within s.cfg ∧
    s.pcsSnap.Within s.cfg ∧ s.fhr.Within s.cfg ∧
    (s.fhrValid = true →
      s.pt.count = s.fhr.numOfDctPartitions ∧ s.pt.count ∈ [1, 2, 4, 8] ∧
        s.fhr.firstPartOffset = if s.fhr.keyFrame then 10 else 3)

/-- The frame tag says keyframe (30_encoding R86). -/
abbrev State.isKeyframe (s : State) : Prop := s.tag.toNat % 2 = 0

/-- The frame's first partition ends here by its tag (41_frame_header R154, R156, 30_encoding R86). -/
abbrev State.declaredEnd (s : State) : Nat := (if s.isKeyframe then 10 else 3) + s.tag.toNat / 32

/-- `S1` raises nothing: the conditions of 41_frame_header R153, R154 and R156. -/
abbrev State.PrefixGood (s : State) : Prop :=
  3 ≤ s.argLen.toNat ∧
    (s.cfg.tagBit3Policy = .versionMsb → s.tag.toNat / 2 % 8 ≤ 3) ∧
    (s.isKeyframe → 10 ≤ s.argLen.toNat ∧
      s.frameByte 3 = s.cfg.startCode[0] ∧ s.frameByte 4 = s.cfg.startCode[1] ∧ s.frameByte 5 = s.cfg.startCode[2]) ∧
    s.declaredEnd ≤ s.argLen.toNat

/-- HOST has passed the caller's contract of `FH.PARSE` (41_frame_header R151, 20_memory R69). -/
abbrev State.CallerGood (s : State) : Prop := s.argNull = false ∧ s.argLen ≠ 0 ∧ s.bufferFits = true

/-- Two frame buffers with the same bytes at `[base, base + len)`. -/
abbrev Memory.agreeOn (base len : Nat) (m m' : Memory) : Prop :=
  ∀ a, base ≤ a → a < base + len → m.read a = m'.read a

/-- The byte at index `i` of a slice, zero beyond its end (40_bd_commands R111). -/
def sliceByteAt (fb : Memory) (base len : Addr) (i : Nat) : Byte :=
  if i < len.toNat then fb.read (base.toNat + i) else 0

/-- Bit `k` of a slice, "bit 0 is the most significant bit of the first byte" (40_bd_commands R122). -/
def streamBit (fb : Memory) (base len : Addr) (k : Nat) : Bool :=
  (sliceByteAt fb base len (k / 8)).getLsbD (7 - k % 8)

/-- Bit `k` of a frame's first partition (41_frame_header R158). -/
def State.headerBit (s : State) (k : Nat) : Bool :=
  streamBit s.fb (BitVec.ofNat addrWidth (s.argBase.toNat + if s.isKeyframe then 10 else 3))
    (BitVec.ofNat addrWidth (s.tag.toNat / 32)) k

/-- The `n` bits of a frame's first partition from bit `k` on as a number, most significant first. -/
def State.headerNum (s : State) (k : Nat) : Nat → Nat
  | 0 => 0
  | n + 1 => 2 * s.headerNum k n + (s.headerBit (k + n)).toNat

/-- A coefficient table read out "block type outermost, tree node innermost" (41_frame_header R173). -/
def coeffList (t : CoeffTable) : List Prob :=
  t.toList.flatMap fun x => x.toList.flatMap fun y => y.toList.flatMap fun z => z.toList

/-- A motion-vector table read out, context outermost (41_frame_header R177). -/
def mvList (t : MvTable) : List Prob := t.toList.flatMap fun x => x.toList

/-! ### The elements of a header (41_frame_header R159, R160) -/

/-- `L(8)` as a probability. -/
def readProb (fb : Memory) (d : Bd) : Prob × Bd := (BitVec.ofNat 8 (lit fb 8 d).1, (lit fb 8 d).2)

/-- "parse presence bit, branch to (decode-and-store) or (no-op)" over several entries in order: each with the probability
of its presence bit and the value it has where that bit is 0. -/
def presenceWalk {α : Type} (fb : Memory) (rd : Bd → α × Bd) : List (Prob × α) → Bd → List α × Bd
  | [], d => ([], d)
  | (p, absent) :: rest, d =>
    let b := decodeBool fb p d
    let x := if b.1 then rd b.2 else (absent, b.2)
    let xs := presenceWalk fb rd rest x.2
    (x.1 :: xs.1, xs.2)

/-- `n` times `L(8)`. -/
def probWalk (fb : Memory) : Nat → Bd → List Prob × Bd
  | 0, d => ([], d)
  | n + 1, d =>
    let x := readProb fb d
    let xs := probWalk fb n x.2
    (x.1 :: xs.1, xs.2)

/-- "an element inside a false condition is not decoded and consumes nothing" (R159). -/
def readIf {α : Type} (c : Prop) [Decidable c] (absent : α) (rd : Bd → α × Bd) (d : Bd) : α × Bd :=
  if c then rd d else (absent, d)

/-- The persistent codec state as the elements of a frame find it (41_frame_header R155). -/
def State.pcsIn (s : State) : Pcs := if s.isKeyframe then defaultPcs s.cfg else s.pcs

/-- The decoder a frame's header starts from (41_frame_header R158). -/
def State.headerBd (s : State) : Bd :=
  Bd.construct s.fb (BitVec.ofNat addrWidth (s.argBase.toNat + if s.isKeyframe then 10 else 3))
    (BitVec.ofNat addrWidth (s.tag.toNat / 32))

/-! The elements of the frame that `ARG_*` point to, in the order of R160: what each gives, with the decoder after it. -/

/-- Row 1, `color_space`. -/
def State.readSpace (s : State) : Bool × Bd :=
  readIf (s.isKeyframe ∧ s.cfg.gkRows = true) false (decodeBool s.fb 128) s.headerBd

/-- Row 2, `clamping_type`. -/
def State.readClamping (s : State) : Bool × Bd :=
  readIf (s.isKeyframe ∧ s.cfg.gkRows = true) false (decodeBool s.fb 128) s.readSpace.2

/-- Rows 3 to 9. -/
def State.readSegmentation (s : State) : (Seg × Bool × Bool) × Bd := segHeader s.cfg s.fb s.pcsIn.seg s.readClamping.2

/-- Rows 10 to 16. -/
def State.readLoopFilter (s : State) : (LoopFilter × Bool) × Bd := lfHeader s.cfg s.fb s.pcsIn.lf s.readSegmentation.2

/-- Row 17. -/
def State.readPartCount (s : State) : Nat × Bd := lit s.fb s.cfg.partCntBits s.readLoopFilter.2

/-- Rows 18 and 19. -/
def State.readQuant (s : State) : Quant × Bd := quantHeader s.cfg s.fb s.readPartCount.2

/-- Row 21, `refresh_golden_frame`; 1 on a keyframe, where it is not coded (R170). -/
def State.readGolden (s : State) : Bool × Bd := readIf (¬ s.isKeyframe) true (decodeBool s.fb 128) s.readQuant.2

/-- Row 22, `refresh_alternate_frame`; 1 on a keyframe. -/
def State.readAlternate (s : State) : Bool × Bd := readIf (¬ s.isKeyframe) true (decodeBool s.fb 128) s.readGolden.2

/-- Row 23, `copy_buffer_to_golden`. -/
def State.readCopyGolden (s : State) : Nat × Bd := readIf (s.readGolden.1 = false) 0 (lit s.fb 2) s.readAlternate.2

/-- Row 24, `copy_buffer_to_alternate`. -/
def State.readCopyAlternate (s : State) : Nat × Bd :=
  readIf (s.readAlternate.1 = false) 0 (lit s.fb 2) s.readCopyGolden.2

/-- Row 25, `sign_bias_golden`. -/
def State.readBiasGolden (s : State) : Bool × Bd :=
  readIf (¬ s.isKeyframe) false (decodeBool s.fb 128) s.readCopyAlternate.2

/-- Row 26, `sign_bias_alternate`. -/
def State.readBiasAlternate (s : State) : Bool × Bd :=
  readIf (¬ s.isKeyframe) false (decodeBool s.fb 128) s.readBiasGolden.2

/-- Row 20 of a keyframe and row 27 of an interframe, `refresh_entropy_probs`. -/
def State.readRefreshEntropy (s : State) : Bool × Bd := decodeBool s.fb 128 s.readBiasAlternate.2

/-- Row 28, `refresh_last`; 1 on a keyframe. -/
def State.readRefreshLast (s : State) : Bool × Bd :=
  readIf (¬ s.isKeyframe ∧ s.cfg.gkRows = true) true (decodeBool s.fb 128) s.readRefreshEntropy.2

/-- Row 29. -/
def State.readTokenProbs (s : State) : CoeffTable × Bd := tokenProbs s.cfg s.fb s.pcsIn.entropy.coeff s.readRefreshLast.2

/-- Row 30, `mb_no_skip_coeff`. -/
def State.readNoSkip (s : State) : Bool × Bd := decodeBool s.fb 128 s.readTokenProbs.2

/-- Row 31, `prob_skip_false`; 0 where it is not coded (R174). -/
def State.readProbSkip (s : State) : Prob × Bd := readIf (s.readNoSkip.1 = true) 0 (readProb s.fb) s.readNoSkip.2

/-- Row 32, `prob_intra`. -/
def State.readProbIntra (s : State) : Prob × Bd := readIf (¬ s.isKeyframe) 0 (readProb s.fb) s.readProbSkip.2

/-- Row 33, `prob_last`. -/
def State.readProbLast (s : State) : Prob × Bd := readIf (¬ s.isKeyframe) 0 (readProb s.fb) s.readProbIntra.2

/-- Row 34, `prob_gf`. -/
def State.readProbGf (s : State) : Prob × Bd := readIf (¬ s.isKeyframe) 0 (readProb s.fb) s.readProbLast.2

/-- Row 35, the Y mode probabilities. -/
def State.readYmode (s : State) : Vector Prob 4 × Bd :=
  readIf (¬ s.isKeyframe) s.pcsIn.entropy.ymode (modeProbs s.cfg s.fb s.pcsIn.entropy.ymode) s.readProbGf.2

/-- Row 36, the UV mode probabilities. -/
def State.readUvmode (s : State) : Vector Prob 3 × Bd :=
  readIf (¬ s.isKeyframe) s.pcsIn.entropy.uvmode (modeProbs s.cfg s.fb s.pcsIn.entropy.uvmode) s.readYmode.2

/-- Row 37, the motion-vector probabilities. -/
def State.readMv (s : State) : MvTable × Bd :=
  readIf (¬ s.isKeyframe) s.pcsIn.entropy.mv (mvProbs s.cfg s.fb s.pcsIn.entropy.mv) s.readUvmode.2

/-! ### The partition table -/

/-- The coded size in field `i` of the partition-size table at FB address `a` (30_encoding R92). -/
def codedSize (fb : Memory) (a i : Nat) : Nat :=
  (fb.read (a + 3 * i)).toNat + 256 * (fb.read (a + 3 * i + 1)).toNat + 65536 * (fb.read (a + 3 * i + 2)).toNat

/-- The sum of the first `n` coded sizes, `rel` of partition `n` (41_frame_header R183). -/
def sizesBefore (fb : Memory) (a : Nat) : Nat → Nat
  | 0 => 0
  | n + 1 => sizesBefore fb a n + codedSize fb a n

end Sys2Proof.Machine
end

