-- ==== Sys2Proof/Certificates/Slice0/Obligations.lean ====
section
/-! DEFINITION. The statements for the provers.  Each docstring names the rule of spec/ it formalises. -/

open Sys2Proof Sys2Proof.Machine

/-! ### The command word -/

/-- 30_encoding R82 and the legal boundary words of 95_test_vectors V19: the opcode map's words, written out. -/
def Obligations.CommandWordsDecodeAsTabled : Prop :=
  decode 0x1000 = .ok .bdInit ∧ decode 0x2000 = .ok (.bdRbool 0) ∧ decode 0x20FF = .ok (.bdRbool 255) ∧
    decode 0x3000 = .ok (.bdRlit 0) ∧ decode 0x3020 = .ok (.bdRlit 32) ∧ decode 0x4000 = .ok (.bdRslit 0) ∧
    decode 0x401F = .ok (.bdRslit 31) ∧ decode 0x5000 = .ok .bdRflag ∧ decode 0x6000 = .ok .bdPos ∧
    decode 0x8000 = .ok .fhParse

/-- 30_encoding R80 to R82: the word of a legal command decodes to it, at every operand. -/
def Obligations.EncodedCommandDecodesBack : Prop :=
  ∀ i : Instr, i.wf = true → decode (encode i) = .ok i

/-- 30_encoding R80 to R83: a word the decoder takes is the word of the command it gives, which is legal. -/
def Obligations.DecodedWordEncodesBack : Prop :=
  ∀ (w : CmdWord) (i : Instr), decode w = .ok i → encode i = w ∧ i.wf = true

/-- 30_encoding R83: which words are illegal, by their three fields as numbers; that each completes with `Error` and
changes nothing else; and that every other word is a command. -/
def Obligations.IllegalCommandWordsFail : Prop :=
  ∀ (w : CmdWord) (op z arg : Nat), op = w.toNat / 4096 → z = w.toNat / 256 % 16 → arg = w.toNat % 256 →
    let illegal : Prop :=
      op = 0x0 ∨ op = 0x7 ∨ 0x9 ≤ op ∨ z ≠ 0 ∨ ((op = 0x1 ∨ op = 0x5 ∨ op = 0x6 ∨ op = 0x8) ∧ arg ≠ 0) ∨
        (op = 0x3 ∧ 32 < arg) ∨ (op = 0x4 ∧ 31 < arg)
    (illegal → ∀ (s : State) (rest : List HostAction), s.pending = .writeCmd w :: rest →
      step s = .next { s with pending := rest, result := .error }) ∧
    (¬ illegal → ∃ i, decode w = .ok i)

/-! ### Steps and HOST -/

/-- 10_state R30: a command word written to `CMD` runs as the command it decodes to, the word taken off HOST's list. -/
def Obligations.StepRunsDecodedCommand : Prop :=
  ∀ (s : State) (w : CmdWord) (i : Instr) (rest : List HostAction),
    s.pending = .writeCmd w :: rest → decode w = .ok i → step s = exec i { s with pending := rest }

/-- 70_reset_and_hazards R250: "the block does nothing until HOST writes `CMD`". -/
def Obligations.IdleBlockDoesNothing : Prop :=
  ∀ s : State, s.pending = [] → step s = .next s

/-- 10_state R31, 30_encoding R84: HOST's register writes change that register and nothing else. -/
def Obligations.HostSetsArgumentRegisters : Prop :=
  ∀ (s : State) (rest : List HostAction) (v : Addr) (n : Bool),
    (s.pending = .setArgBase v :: rest → step s = .next { s with pending := rest, argBase := v }) ∧
    (s.pending = .setArgLen v :: rest → step s = .next { s with pending := rest, argLen := v }) ∧
    (s.pending = .setArgNull n :: rest → step s = .next { s with pending := rest, argNull := n })

/-- 20_memory R60, R72, 70_reset_and_hazards R256: HOST's write of a byte of FB changes that byte, and of the block
nothing but what the live decoder will see at an address it has still to fetch; below `BD.cursor`, above the slice, or
without a decoder, not even that. -/
def Obligations.HostWritesOneFbByte : Prop :=
  ∀ (s : State) (rest : List HostAction) (a : Addr) (b : Byte),
    s.fb.wf → s.pending = .writeFb a b :: rest →
    ∃ t, step s = .next t ∧
      (∀ x, t.fb.read x = if x = a.toNat then b else s.fb.read x) ∧
      t = { s with pending := rest, fb := t.fb, bd := { s.bd with overlay := t.bd.overlay }, draws := t.draws } ∧
      (∀ x, x ≠ a.toNat → lookupCell t.bd.overlay x = lookupCell s.bd.overlay x) ∧
      (s.bd.valid = false ∨ a.toNat < s.bd.base.toNat + s.bd.cursor ∨ s.bd.base.toNat + s.bd.len.toNat ≤ a.toNat →
        t.bd = s.bd)

/-- 20_memory R61: no command changes a byte of FB. -/
def Obligations.CommandsNeverWriteMemory : Prop :=
  ∀ (i : Instr) (s t : State), exec i s = .next t → t.fb = s.fb ∧ ∀ a, t.fb.read a = s.fb.read a

/-- 60_exceptions R220: every command completes, and `STATUS[1:0]` shows one of the codes 0, 1, 2; the one exception is a
buffer beyond the address space, which 20_memory R69 leaves to 93_implementation_defined U8 (`refuse`; log entry 6). -/
def Obligations.EveryCommandCompletes : Prop :=
  ∀ (i : Instr) (s : State), (s.argNull = false → s.bufferFits = true) →
    ∃ t, exec i s = .next t ∧
      ((t.result = .ok ∧ t.status.toNat % 4 = 0) ∨ (t.result = .brokenData ∧ t.status.toNat % 4 = 1) ∨
        (t.result = .error ∧ t.status.toNat % 4 = 2))

/-- 93_implementation_defined U8 first case (log entry 6): `BD.INIT` and a nonempty `FH.PARSE` over a buffer that
exceeds the address space are refused, by name. -/
def Obligations.BufferBeyondAddressSpaceRefused : Prop :=
  ∀ s : State, s.argNull = false → 2 ^ 32 < s.argBase.toNat + s.argLen.toNat →
    exec .bdInit s = .refused .bufferBeyondAddressSpace ∧ exec .fhParse s = .refused .bufferBeyondAddressSpace

/-! ### Primitives of the boolean decoder -/

/-- 40_bd_commands R111: the next byte of the slice, or a zero byte past its end, and the count of it.  A byte HOST has
changed in the meantime is free (93_implementation_defined U5, log entry 4), so the slice's byte is stated where HOST has
not. -/
def Obligations.NextByteDeliversSliceThenZeros : Prop :=
  ∀ (fb : Memory) (d : Bd),
    (nextByte fb d).2 = { d with cursor := d.cursor + 1 } ∧
    (d.cursor < d.len.toNat → lookupCell d.overlay (d.base.toNat + d.cursor) = none →
      (nextByte fb d).1 = fb.read (d.base.toNat + d.cursor)) ∧
    (d.len.toNat ≤ d.cursor → (nextByte fb d).1 = 0)

/-- 40_bd_commands R113: the split, its bounds and its growth with the probability, the comparison, the new range and
value, then `Renormalise`. -/
def Obligations.DecodeBoolFollowsSplit : Prop :=
  ∀ (fb : Memory) (p : Prob) (d : Bd) (split : Nat), 2 ≤ d.range.toNat →
    split = 1 + (d.range.toNat - 1) * p.toNat / 256 →
    (d.range.toNat - 1) * p.toNat ≤ 64770 ∧ 1 ≤ split ∧ split ≤ d.range.toNat - 1 ∧
    (∀ q : Prob, p.toNat ≤ q.toNat → split ≤ 1 + (d.range.toNat - 1) * q.toNat / 256) ∧
    (split * 256 ≤ d.value.toNat → ∃ e : Bd,
      e = { d with range := e.range, value := e.value } ∧ e.range.toNat = d.range.toNat - split ∧
      e.value.toNat = d.value.toNat - split * 256 ∧ decodeBool fb p d = (true, renormalise fb e)) ∧
    (d.value.toNat < split * 256 → ∃ e : Bd,
      e = { d with range := e.range } ∧ e.range.toNat = split ∧ decodeBool fb p d = (false, renormalise fb e))

/-- 40_bd_commands R114: one pass of the loop shifts `value` (bit 15 is lost) and `range`, counts, and on the eighth
shift loads a byte into the low half, which is an addition; the loop runs `7 - floor(log2(range))` times, each pass
advances `P` by 1, and at most one byte is loaded; where 10_state R26 (e) holds, no bit is lost. -/
def Obligations.RenormaliseShiftsUntilHalf : Prop :=
  ∀ (fb : Memory) (d : Bd),
    (d.bitCount ≠ 7 → shiftOnce fb d =
      { d with value := d.value <<< 1, range := d.range <<< 1, bitCount := d.bitCount + 1 }) ∧
    (d.bitCount = 7 → shiftOnce fb d =
      { d with value := (d.value <<< 1) ||| (nextByte fb d).1.setWidth 16, range := d.range <<< 1, bitCount := 0,
               cursor := d.cursor + 1 }) ∧
    (d.bitCount = 7 → d.value.toNat % 128 = 0 →
      (shiftOnce fb d).value.toNat = (d.value <<< 1).toNat + (nextByte fb d).1.toNat) ∧
    (d.Below → d.range.toNat < 128 → (d.value <<< 1).toNat = 2 * d.value.toNat) ∧
    (1 ≤ d.range.toNat → 2 ≤ d.cursor →
      renormalise fb d = (shiftOnce fb)^[7 - d.range.toNat.log2] d ∧
      128 ≤ (renormalise fb d).range.toNat ∧
      (renormalise fb d).pos = d.pos + (7 - d.range.toNat.log2) ∧
      (renormalise fb d).cursor ≤ d.cursor + 1)

/-- 40_bd_commands R125, 10_state R27: "a `DecodeBool` advances `P` by 0 to 7". -/
def Obligations.DecodeBoolAdvancesPosition : Prop :=
  ∀ (fb : Memory) (p : Prob) (d : Bd), d.Ready →
    d.pos ≤ (decodeBool fb p d).2.pos ∧ (decodeBool fb p d).2.pos ≤ d.pos + 7

/-- 40_bd_commands R121: a zero value decodes zeros and stays zero until a non-zero byte is loaded; on an exhausted slice
every read is then 0. -/
def Obligations.ZeroValueDecodesZeros : Prop :=
  ∀ (fb : Memory) (d : Bd), d.value = 0 →
    (∀ p, (decodeBool fb p d).1 = false ∧
      ((decodeBool fb p d).2.value ≠ 0 → d.cursor < d.len.toNat ∧ d.sliceByte fb d.cursor ≠ 0)) ∧
    (d.len.toNat ≤ d.cursor → ∀ n, (lit fb n d).1 = 0 ∧ (signedLit fb n d).1 = 0 ∧ (lit fb n d).2.value = 0)

/-- 40_bd_commands R122, first half: in the shifter state a read at probability 128 returns `BD.value[14]`, shifts once
and stays in the state; a literal of `n` bits advances `P` by exactly `n`. -/
def Obligations.ShifterStateReturnsTopBit : Prop :=
  ∀ (fb : Memory) (d : Bd), d.Ready → d.range = 128 → d.value.toNat < 0x8000 →
    (decodeBool fb 128 d).1 = d.value.getLsbD 14 ∧ (decodeBool fb 128 d).2.pos = d.pos + 1 ∧
    (decodeBool fb 128 d).2.range = 128 ∧ (decodeBool fb 128 d).2.value.toNat < 0x8000 ∧
    ∀ n, (lit fb n d).2.pos = d.pos + n ∧ (lit fb n d).2.range = 128 ∧ (lit fb n d).2.value.toNat < 0x8000

/-- 40_bd_commands R122, second half (90_conflicts C2): over a slice whose first bit is 0, the bits of a first literal
are the stream's own bits, most significant first, and `P = m - 1` after them. -/
def Obligations.LiteralReturnsStreamBits : Prop :=
  ∀ (fb : Memory) (base len : Addr) (m : Nat), streamBit fb base len 0 = false → 1 ≤ m →
    (∀ k, k < m → (lit fb m (Bd.construct fb base len)).1.testBit (m - 1 - k) = streamBit fb base len k) ∧
    (lit fb m (Bd.construct fb base len)).2.pos = m - 1

/-- 40_bd_commands R116, R117: the first bit decoded is bit `n - 1` of a literal, a literal of `n` bits is below `2^n`,
and a signed literal is the literal with the next bit at probability 128 for its sign. -/
def Obligations.LiteralsAreMsbFirst : Prop :=
  ∀ (fb : Memory) (n : Nat) (d : Bd),
    lit fb 0 d = (0, d) ∧
    lit fb (n + 1) d =
      ((decodeBool fb 128 d).1.toNat * 2 ^ n + (lit fb n (decodeBool fb 128 d).2).1,
        (lit fb n (decodeBool fb 128 d).2).2) ∧
    (lit fb n d).1 < 2 ^ n ∧
    signedLit fb n d =
      ((if (decodeBool fb 128 (lit fb n d).2).1 then -((lit fb n d).1 : Int) else ((lit fb n d).1 : Int)),
        (decodeBool fb 128 (lit fb n d).2).2)

/-- 40_bd_commands R124: two decoders over equal slices, wherever they lie, give equal bits and equal states. -/
def Obligations.EqualSlicesDecodeEqually : Prop :=
  ∀ (fb fb' : Memory) (d : Bd) (base' : Addr) (p : Prob) (n : Nat), d.overlay = [] →
    (∀ i, i < d.len.toNat → fb.read (d.base.toNat + i) = fb'.read (base'.toNat + i)) →
    decodeBool fb' p { d with base := base' } =
      ((decodeBool fb p d).1, { (decodeBool fb p d).2 with base := base' }) ∧
    lit fb' n { d with base := base' } = ((lit fb n d).1, { (lit fb n d).2 with base := base' })

/-! ### The BD commands -/

/-- 40_bd_commands R110: the constructed decoder, and the null buffer; where the buffer exceeds the address space the
command is `Obligations.BufferBeyondAddressSpaceRefused`. -/
def Obligations.InitConstructsDecoder : Prop :=
  ∀ s : State,
    (s.argNull = true → exec .bdInit s = .next { s with result := .error }) ∧
    (s.argNull = false → s.bufferFits = true → ∃ t, exec .bdInit s = .next t ∧
      t = { s with bd := t.bd, result := .ok } ∧
      t.bd.value.toNat = 256 * (sliceByteAt s.fb s.argBase s.argLen 0).toNat
        + (sliceByteAt s.fb s.argBase s.argLen 1).toNat ∧
      t.bd = { range := 255, value := t.bd.value, bitCount := 0, base := s.argBase, len := s.argLen, cursor := 2
               valid := true, overlay := [] } ∧
      t.bd.pos = 0)

/-- 40_bd_commands R115. -/
def Obligations.RboolReturnsDecodedBit : Prop :=
  ∀ (s : State) (p : Byte),
    (s.bd.valid = false → exec (.bdRbool p) s = .next { s with result := .error }) ∧
    (s.bd.valid = true → exec (.bdRbool p) s = .next { s with
      bd := (decodeBool s.fb p s.bd).2, res := if (decodeBool s.fb p s.bd).1 then 1 else 0, result := .ok })

/-- 40_bd_commands R116 with 30_encoding R83 for `n > 32`. -/
def Obligations.RlitReturnsLiteral : Prop :=
  ∀ (s : State) (n : Byte), s.bd.valid = true →
    (n.toNat ≤ 32 → ∃ t, exec (.bdRlit n) s = .next t ∧
      t = { s with bd := (lit s.fb n.toNat s.bd).2, res := t.res, result := .ok } ∧
      t.res.toNat = (lit s.fb n.toNat s.bd).1 ∧ t.res.toNat < 2 ^ n.toNat) ∧
    (32 < n.toNat → exec (.bdRlit n) s = .next { s with result := .error })

/-- 40_bd_commands R117 with 30_encoding R83 for `n > 31` and R91 for the range. -/
def Obligations.RslitReturnsSignedLiteral : Prop :=
  ∀ (s : State) (n : Byte), s.bd.valid = true →
    (n.toNat ≤ 31 → ∃ t, exec (.bdRslit n) s = .next t ∧
      t = { s with bd := (signedLit s.fb n.toNat s.bd).2, res := t.res, result := .ok } ∧
      t.res.toInt = (signedLit s.fb n.toNat s.bd).1 ∧ t.res.toInt.natAbs ≤ 2 ^ n.toNat - 1) ∧
    (31 < n.toNat → exec (.bdRslit n) s = .next { s with result := .error })

/-- 40_bd_commands R118: `BD.RFLAG` is "identical in every effect to `BD.RLIT 1` and to `BD.RBOOL 128`", and with a
decoder it completes. -/
def Obligations.RflagIsOneBitLiteral : Prop :=
  ∀ s : State, exec .bdRflag s = exec (.bdRlit 1) s ∧ exec .bdRflag s = exec (.bdRbool 128) s ∧
    (s.bd.valid = false → exec .bdRflag s = .next { s with result := .error }) ∧
    (s.bd.valid = true → exec .bdRflag s = .next { s with
      bd := (decodeBool s.fb 128 s.bd).2, res := if (decodeBool s.fb 128 s.bd).1 then 1 else 0, result := .ok })

/-- 40_bd_commands R119, 10_state R27: the position goes to `POS_BYTE` and `POS_BIT`, and nothing else changes.  A byte
offset that does not fit `POS_BYTE` is `Obligations.PositionBeyondAddressWidth`. -/
def Obligations.PosReportsPosition : Prop :=
  ∀ (s : State) (P : Nat), P = 8 * (s.bd.cursor - 2) + s.bd.bitCount.toNat →
    (s.bd.valid = false → exec .bdPos s = .next { s with result := .error }) ∧
    (s.bd.valid = true → P / 8 < 2 ^ 32 → ∃ t, exec .bdPos s = .next t ∧
      t = { s with posByte := t.posByte, posBit := t.posBit, result := .ok } ∧
      t.posByte.toNat = P / 8 ∧ t.posByte.toNat = s.bd.cursor - 2 ∧ t.posBit.toNat = P % 8 ∧ t.posBit = s.bd.bitCount)

/-- The model's choice for 93_implementation_defined U8 second case (log entry 6): where the byte offset of the position
does not fit `POS_BYTE`, `BD.POS` completes with the bit offset right and a free value in `POS_BYTE`. -/
def Obligations.PositionBeyondAddressWidth : Prop :=
  ∀ s : State, s.bd.valid = true → 2 ^ 32 ≤ s.bd.cursor - 2 →
    ∃ t, exec .bdPos s = .next t ∧
      t = { s with posByte := t.posByte, posBit := t.posBit, result := .ok, draws := s.draws + 1 } ∧
      t.posBit = s.bd.bitCount

/-- 40_bd_commands R112: without a decoder the five commands complete with `Error` and change nothing else, legal operand
or not. -/
def Obligations.ReadsNeedDecoder : Prop :=
  ∀ (s : State) (i : Instr), s.bd.valid = false → i ≠ .bdInit → i ≠ .fhParse →
    exec i s = .next { s with result := .error }

/-- The frame of the six BD commands (40_bd_commands R110 "Writes", R115 to R119; 10_state R32 to R36): only `BD.INIT` and
the reads touch the BD registers, the reads only `range`, `value`, `bit_count` and `cursor`; only the reads touch `RES`,
only `BD.POS` the position (and the count of free values drawn, log entry 6); `FHR`, `PT`, `fhr_valid`, PCS, the hidden
registers, `ARG_*` and every byte of FB stay. -/
def Obligations.BdCommandsFrame : Prop :=
  ∀ (s t : State) (i : Instr), i ≠ .fhParse → exec i s = .next t →
    t = { s with bd := t.bd, res := t.res, posByte := t.posByte, posBit := t.posBit, result := t.result
                 draws := t.draws } ∧
    (∀ a, t.fb.read a = s.fb.read a) ∧
    (i = .bdInit → t.res = s.res) ∧
    (i ≠ .bdInit → t.bd = { s.bd with
      range := t.bd.range, value := t.bd.value, bitCount := t.bd.bitCount, cursor := t.bd.cursor }) ∧
    (i = .bdPos → t.res = s.res ∧ t.bd = s.bd) ∧
    (i ≠ .bdPos → t.posByte = s.posByte ∧ t.posBit = s.posBit ∧ t.draws = s.draws) ∧
    (t.result = .error → t = { s with result := .error })

/-- 10_state R26: the invariants (a) to (d) hold after `BD.INIT` and are kept by every BD command, and so is (e) where
the first byte of the slice is not 0xFF or the slice is empty. -/
def Obligations.WorkingRegisterInvariants : Prop :=
  (∀ s t : State, s.argNull = false → exec .bdInit s = .next t →
    t.bd.Ready ∧ (sliceByteAt s.fb s.argBase s.argLen 0 ≠ 0xFF → t.bd.Below)) ∧
  (∀ (s t : State) (i : Instr), i ≠ .bdInit → i ≠ .fhParse → s.bd.Ready → exec i s = .next t →
    t.bd.Ready ∧ (s.bd.Below → t.bd.Below))

/-- 20_memory R62, R69: what a command does depends on no byte outside the window it was given: the slice for the reads,
`[ARG_BASE, ARG_BASE + ARG_LEN)` for `BD.INIT` and `FH.PARSE`.  (That the two runs agree on free values too is the model's
choice: they draw them at the same draw number, log entries 3 and 16.) -/
def Obligations.ReadsStayInsideWindow : Prop :=
  ∀ (s t : State) (fb' : Memory) (i : Instr),
    (i = .bdInit ∨ i = .fhParse → s.fb.agreeOn s.argBase.toNat s.argLen.toNat fb') →
    (i ≠ .bdInit → i ≠ .fhParse → s.fb.agreeOn s.bd.base.toNat s.bd.len.toNat fb') →
    exec i s = .next t → exec i { s with fb := fb' } = .next { t with fb := fb' }

/-! ### FH.PARSE: what fails -/

/-- 41_frame_header R151, R188, 60_exceptions R221, R226: a null buffer or a zero length completes with `Error`; PCS, the
BD registers and everything else but `fhr_valid` and the outputs `FHR`, `PT` and `POS_*` (which R188 and R226 then leave
unspecified) stay; and no other frame gives `Error`, for R221 names no other cause. -/
def Obligations.CallerContractErrors : Prop :=
  ∀ s : State,
    (s.argNull = true ∨ s.argLen = 0 → ∃ t, exec .fhParse s = .next t ∧ t.result = .error ∧ t.fhrValid = false ∧
      t = { s with result := .error, fhrValid := false, fhr := t.fhr, pt := t.pt, posByte := t.posByte
                   posBit := t.posBit, draws := t.draws, fh := { s.fh with phase := .idle } }) ∧
    (∀ t, exec .fhParse s = .next t → t.result = .error → s.argNull = true ∨ s.argLen = 0)

/-- 41_frame_header R153, R154, R156, 30_encoding R87: a frame shorter than its tag or its keyframe extension, with a
start code other than `START_CODE`, a version above 3 under `version_msb`, or a first partition that does not fit gives
`BrokenData`; a frame with none of these passes `S1`. -/
def Obligations.BrokenPrefixIsBrokenData : Prop :=
  ∀ s : State, s.CallerGood →
    (¬ s.PrefixGood → ∃ t, exec .fhParse s = .next t ∧ t.result = .brokenData ∧ t.fhrValid = false) ∧
    (s.PrefixGood → ∃ u, parsePrefix s.beginParse = .ok u)

/-- 60_exceptions R225, 41_frame_header R188: after `BrokenData` PCS is as before the command under `PCS_ON_FAILURE` =
`rollback`, there is no decoder, `fhr_valid` is 0, and `RES`, `ARG_*` and FB are untouched.  The clause under `any`, that
PCS is within its widths, is the model's choice for 93_implementation_defined U2 (DESIGN CHOICE, log entries 15 and 22). -/
def Obligations.BrokenDataRollsBack : Prop :=
  ∀ s t : State, exec .fhParse s = .next t → t.result = .brokenData →
    (s.cfg.pcsOnFailure = .rollback → t.pcs = s.pcs) ∧ (s.cfg.pcsOnFailure = .any → t.pcs.Within s.cfg) ∧
    t.bd.valid = false ∧ t.fhrValid = false ∧ t.res = s.res ∧ t.argBase = s.argBase ∧ t.argLen = s.argLen ∧
    t.argNull = s.argNull ∧ t.fb = s.fb ∧ t.status.toNat = 1

/-- 41_frame_header R169, R171, R188, 60_exceptions R221, R222: past `S1` the coded elements fail exactly where, under
`COPYMODE3_BROKEN`, the copy mode of a buffer that an interframe does not refresh is 3 at its place in the header; the
cause is `B_BAD_ENUM`, and the command then completes with `BrokenData`; a header that runs out of its partition does not
fail. -/
def Obligations.OnlyCopyModeBreaksElements : Prop :=
  (∀ (s t : State) (c : Cause), parseElements s = .error (c, t) →
    c = .badEnum ∧ s.cfg.copymode3Broken = true ∧ s.fhr.keyFrame = false) ∧
  (∀ s u : State, parsePrefix s.beginParse = .ok u →
    ((∃ c t, parseElements u = .error (c, t)) ↔
      s.cfg.copymode3Broken = true ∧ ¬ s.isKeyframe ∧
        ((s.readGolden.1 = false ∧ s.readCopyGolden.1 = 3) ∨
          (s.readAlternate.1 = false ∧ s.readCopyAlternate.1 = 3)))) ∧
  (∀ s : State, s.CallerGood → s.PrefixGood → s.cfg.copymode3Broken = true →
    (s.readGolden.1 = false ∧ s.readCopyGolden.1 = 3) ∨ (s.readAlternate.1 = false ∧ s.readCopyAlternate.1 = 3) →
    ∃ t, exec .fhParse s = .next t ∧ t.result = .brokenData ∧ t.fhrValid = false)

/-- 41_frame_header R182, R183, R188: the layout is accepted exactly when the table fits and every coded partition is
non-empty (under `ZERO_SIZE_PART_BROKEN`) and ends inside the frame; a frame whose prefix and elements are accepted
completes with `Ok` where this is so of the number of partitions it codes, and else with `BrokenData`. -/
def Obligations.LayoutAcceptedExactly : Prop :=
  (∀ (zb : Bool) (fb : Memory) (base frameLen t n : Nat),
    (∃ l, extractLayout zb fb base frameLen t n = .ok l) ↔
      t + 3 * (n - 1) ≤ frameLen ∧
      ∀ i, i < n - 1 → (zb = true → codedSize fb (base + t) i ≠ 0) ∧
        t + 3 * (n - 1) + sizesBefore fb (base + t) (i + 1) ≤ frameLen) ∧
  (∀ (s u v : State) (n d0 table : Nat), s.CallerGood → parsePrefix s.beginParse = .ok u → parseElements u = .ok v →
    n = 2 ^ s.readPartCount.1 → d0 = s.declaredEnd + 3 * (n - 1) → table = s.argBase.toNat + s.declaredEnd →
    let fits := d0 ≤ s.argLen.toNat ∧
      ∀ i, i < n - 1 → (s.cfg.zeroSizePartBroken = true → codedSize s.fb table i ≠ 0) ∧
        d0 + sizesBefore s.fb table (i + 1) ≤ s.argLen.toNat
    ∃ t, exec .fhParse s = .next t ∧ (t.result = .ok ↔ fits) ∧ (t.result = .brokenData ↔ ¬ fits) ∧
      (t.fhrValid = true ↔ fits))

/-! ### FH.PARSE: what an accepted frame leaves -/

/-- 41_frame_header R153 to R158, 30_encoding R86, R88, R89, 20_memory R63: what `S1` leaves: the tag, the first three
bytes as a little-endian number, its fields, a keyframe's dimensions and reset of PCS, the working copy, the decoder over
exactly the first partition, and the snapshot.  10_state R44, 41_frame_header R187: of an `Ok` frame `FHR` shows the same
fields of the tag and of the keyframe extension. -/
def Obligations.PrefixFieldsFollowTag : Prop :=
  (∀ s u : State, s.CallerGood → parsePrefix s.beginParse = .ok u →
    s.tag.toNat = (s.frameByte 0).toNat + 256 * (s.frameByte 1).toNat + 65536 * (s.frameByte 2).toNat ∧
    (u.fhr.keyFrame = true ↔ s.isKeyframe) ∧
    u.fhr.version.toNat = s.tag.toNat / 2 % 4 ∧
    (u.fhr.showFrame = true ↔ s.tag.toNat / 16 % 2 = 1) ∧
    u.fhr.firstPartSize.toNat = s.tag.toNat / 32 ∧
    u.fhr.firstPartOffset = (if s.isKeyframe then 10 else 3) ∧
    u.pcs = (if s.isKeyframe then defaultPcs s.cfg else s.pcs) ∧ u.w = u.pcs.entropy ∧ u.pcsSnap = s.pcs ∧
    u.bd = Bd.construct s.fb (BitVec.ofNat 32 (s.argBase.toNat + u.fhr.firstPartOffset))
      (BitVec.ofNat 32 (s.tag.toNat / 32)) ∧
    (s.isKeyframe →
      u.fhr.width.toNat = ((s.frameByte 6).toNat + 256 * (s.frameByte 7).toNat) % 2 ^ 14 ∧
      u.fhr.horizontalScale.toNat = ((s.frameByte 6).toNat + 256 * (s.frameByte 7).toNat) / 2 ^ 14 ∧
      u.fhr.height.toNat = ((s.frameByte 8).toNat + 256 * (s.frameByte 9).toNat) % 2 ^ 14 ∧
      u.fhr.verticalScale.toNat = ((s.frameByte 8).toNat + 256 * (s.frameByte 9).toNat) / 2 ^ 14)) ∧
  (∀ s t : State, exec .fhParse s = .next t → t.result = .ok →
    (t.fhr.keyFrame = true ↔ s.isKeyframe) ∧
    t.fhr.version.toNat = s.tag.toNat / 2 % 4 ∧
    (t.fhr.showFrame = true ↔ s.tag.toNat / 16 % 2 = 1) ∧
    t.fhr.firstPartSize.toNat = s.tag.toNat / 32 ∧
    t.fhr.firstPartOffset = (if s.isKeyframe then 10 else 3) ∧
    (s.isKeyframe →
      t.fhr.width.toNat = ((s.frameByte 6).toNat + 256 * (s.frameByte 7).toNat) % 2 ^ 14 ∧
      t.fhr.horizontalScale.toNat = ((s.frameByte 6).toNat + 256 * (s.frameByte 7).toNat) / 2 ^ 14 ∧
      t.fhr.height.toNat = ((s.frameByte 8).toNat + 256 * (s.frameByte 9).toNat) % 2 ^ 14 ∧
      t.fhr.verticalScale.toNat = ((s.frameByte 8).toNat + 256 * (s.frameByte 9).toNat) / 2 ^ 14))

/-- 41_frame_header R155, 70_reset_and_hazards R251: past `S1` a keyframe's PCS holds the defaults, field by field, as the
pseudocode of R155 gives them (that the fields its source does not name become 0 is R155's own reading), and an
interframe's is as before the command. -/
def Obligations.KeyframeResetsPcs : Prop :=
  ∀ s u : State, parsePrefix s.beginParse = .ok u →
    (¬ s.isKeyframe → u.pcs = s.pcs) ∧
    (s.isKeyframe →
      u.pcs.seg.enabled = false ∧ u.pcs.seg.featureMode = false ∧
      (∀ i : Fin 4, u.pcs.seg.quant[i] = 0 ∧ u.pcs.seg.lf[i] = 0) ∧ u.pcs.seg.prob = s.cfg.defaultSegProbs ∧
      u.pcs.lf.filterType = false ∧ u.pcs.lf.level = 0 ∧ u.pcs.lf.sharpness = 0 ∧ u.pcs.lf.adjEnable = false ∧
      (∀ i : Fin 4, u.pcs.lf.refDelta[i] = 0 ∧ u.pcs.lf.modeDelta[i] = 0) ∧
      u.pcs.entropy.coeff = s.cfg.defaultCoeffProbs ∧ u.pcs.entropy.ymode = s.cfg.defaultYmodeProbs ∧
      u.pcs.entropy.uvmode = s.cfg.defaultUvmodeProbs ∧ u.pcs.entropy.mv = s.cfg.defaultMvProbs)

/-- 41_frame_header R187: when no step raises, `FH.PARSE` completes with `Ok` and commits: the entropy tables by
`refresh_entropy_probs`, `FHR` with the segmentation, the loop filter and the working copy, the partition table, the
captured position, no decoder, and everything else as before. -/
def Obligations.GoodFrameCommits : Prop :=
  ∀ (s u v : State) (entries : List PtEntry), s.CallerGood → parsePrefix s.beginParse = .ok u →
    parseElements u = .ok v →
    extractLayout s.cfg.zeroSizePartBroken s.fb s.argBase.toNat s.argLen.toNat v.fhr.firstPartEnd
      v.fhr.numOfDctPartitions.toNat = .ok entries →
    ∃ t, exec .fhParse s = .next t ∧ t.result = .ok ∧ t.fhrValid = true ∧ t.bd.valid = false ∧ t.status = 0x0008 ∧
      t.pcs.seg = v.pcs.seg ∧ t.pcs.lf = v.pcs.lf ∧
      t.pcs.entropy = (if v.fhr.refreshEntropyProbs then v.w else u.w) ∧
      t.fhr = { v.fhr with seg := v.pcs.seg, lf := v.pcs.lf, entropy := v.w } ∧
      t.pt.count = v.fhr.numOfDctPartitions ∧
      (∀ i : Fin 8, i.val < entries.length → some t.pt.entry[i] = entries[i.val]?) ∧
      (v.bd.pos / 8 < 2 ^ 32 → t.posByte.toNat = v.bd.pos / 8) ∧ t.posBit.toNat = v.bd.pos % 8 ∧
      t = { s with result := .ok, fhrValid := true, bd := t.bd, pcs := t.pcs, pcsSnap := s.pcs, w := v.w, fhr := t.fhr
                   pt := t.pt, posByte := t.posByte, posBit := t.posBit, fh := t.fh, draws := t.draws }

/-- 41_frame_header R156, 40_bd_commands R121 (95_test_vectors V45): a frame with a first partition of no bytes completes
with `Ok`; every coded element is 0 (on a keyframe the colour bits with `GK_ROWS`, on an interframe the refresh fields,
`refresh_last` with `GK_ROWS`, and the three probabilities too), so there is one partition, which is the rest of the frame,
no entropy table changes, segmentation is off and the loop filter's coded fields are 0, all else of PCS being the defaults
on a keyframe and as before on an interframe.  That no table is updated rests on nothing but the zero value.  (`prob_skip_false` 0 is the
model's choice with decision D34, log entry 14.) -/
def Obligations.EmptyFirstPartitionParses : Prop :=
  ∀ s : State, s.CallerGood → s.PrefixGood → s.tag.toNat / 32 = 0 →
    ∃ t, exec .fhParse s = .next t ∧ t.result = .ok ∧
      t.pt.count = 1 ∧ t.fhr.numOfDctPartitions = 1 ∧
      (t.pt.entry[0]).offsetAbs.toNat = s.declaredEnd ∧ (t.pt.entry[0]).offsetRel = 0 ∧
      (t.pt.entry[0]).size.toNat = s.argLen.toNat - s.declaredEnd ∧
      t.fhr.quant = { base := 0, delta := #v[0, 0, 0, 0, 0] } ∧ t.fhr.refreshEntropyProbs = false ∧
      t.fhr.updateMbSegmentationMap = false ∧ t.fhr.updateSegmentFeatureData = false ∧ t.fhr.lfDeltaUpdate = false ∧
      t.fhr.mbNoSkipCoeff = false ∧ t.fhr.probSkipFalse = 0 ∧
      (s.isKeyframe → s.cfg.gkRows = true → t.fhr.colorSpace = false ∧ t.fhr.clampingType = false) ∧
      (¬ s.isKeyframe →
        t.fhr.refresh.golden = false ∧ t.fhr.refresh.alternate = false ∧ t.fhr.refresh.copyToGolden = 0 ∧
        t.fhr.refresh.copyToAlternate = 0 ∧ t.fhr.refresh.signBiasGolden = false ∧
        t.fhr.refresh.signBiasAlternate = false ∧ (s.cfg.gkRows = true → t.fhr.refreshLast = false) ∧
        t.fhr.probIntra = 0 ∧ t.fhr.probLast = 0 ∧ t.fhr.probGf = 0) ∧
      (let p := if s.isKeyframe then defaultPcs s.cfg else s.pcs
       t.pcs = { seg := { p.seg with enabled := false }
                 lf := { p.lf with filterType := false, level := 0, sharpness := 0, adjEnable := false }
                 entropy := p.entropy } ∧
       t.fhr.seg = t.pcs.seg ∧ t.fhr.lf = t.pcs.lf ∧ t.fhr.entropy = p.entropy)

/-- 41_frame_header R160 rows 1 to 20 with 40_bd_commands R122 (95_test_vectors V42): the elements of an `Ok` keyframe's
header stand in its first partition in the order of R160, each most significant bit first, from bit 0 on.  Stated where
every bit is the stream's own (the first is 0) and for a frame without segmentation, loop-filter adjustment and quantiser
deltas, so that the places of the elements are fixed. -/
def Obligations.KeyframeFieldsAreStreamBits : Prop :=
  ∀ (s t : State) (l q : Nat), s.isKeyframe → exec .fhParse s = .next t → t.result = .ok → s.cfg.gkRows = true →
    l = 4 + s.cfg.lfLevelBits → q = l + 4 + s.cfg.partCntBits →
    s.headerBit 0 = false → s.headerBit 2 = false → s.headerBit (l + 3) = false →
    t.fhr.colorSpace = false ∧ t.fhr.clampingType = s.headerBit 1 ∧ t.fhr.seg.enabled = false ∧
    t.fhr.lf.filterType = s.headerBit 3 ∧ t.fhr.lf.level = s.headerNum 4 s.cfg.lfLevelBits ∧
    t.fhr.lf.sharpness.toNat = s.headerNum l 3 ∧ t.fhr.lf.adjEnable = false ∧
    t.fhr.numOfDctPartitions.toNat = 2 ^ s.headerNum (l + 4) s.cfg.partCntBits ∧
    t.fhr.quant.base.toNat = s.headerNum q 7 ∧
    ((∀ i : Fin 5, s.headerBit (q + 7 + i.val) = false) →
      t.fhr.quant.delta = #v[0, 0, 0, 0, 0] ∧ t.fhr.refreshEntropyProbs = s.headerBit (q + 12))

/-- 41_frame_header R160 rows 3 to 28 with R169, R172 and 40_bd_commands R122: the same of an `Ok` interframe, up to the
refresh fields, whose copy modes are coded only for a buffer that is not refreshed. -/
def Obligations.InterframeFieldsAreStreamBits : Prop :=
  ∀ (s t : State) (l q r b : Nat), ¬ s.isKeyframe → exec .fhParse s = .next t → t.result = .ok →
    l = 2 + s.cfg.lfLevelBits → q = l + 4 + s.cfg.partCntBits →
    r = q + 14 + (if s.headerBit (q + 12) then 0 else 2) → b = r + (if s.headerBit (q + 13) then 0 else 2) →
    s.headerBit 0 = false → s.headerBit (l + 3) = false → (∀ i : Fin 5, s.headerBit (q + 7 + i.val) = false) →
    t.fhr.seg.enabled = false ∧ t.fhr.lf.filterType = s.headerBit 1 ∧
    t.fhr.lf.level = s.headerNum 2 s.cfg.lfLevelBits ∧ t.fhr.lf.sharpness.toNat = s.headerNum l 3 ∧
    t.fhr.lf.adjEnable = false ∧ t.fhr.numOfDctPartitions.toNat = 2 ^ s.headerNum (l + 4) s.cfg.partCntBits ∧
    t.fhr.quant.base.toNat = s.headerNum q 7 ∧ t.fhr.quant.delta = #v[0, 0, 0, 0, 0] ∧
    t.fhr.refresh.golden = s.headerBit (q + 12) ∧ t.fhr.refresh.alternate = s.headerBit (q + 13) ∧
    (s.headerBit (q + 12) = false → t.fhr.refresh.copyToGolden.toNat = s.headerNum (q + 14) 2) ∧
    (s.headerBit (q + 13) = false → t.fhr.refresh.copyToAlternate.toNat = s.headerNum r 2) ∧
    t.fhr.refresh.signBiasGolden = s.headerBit b ∧ t.fhr.refresh.signBiasAlternate = s.headerBit (b + 1) ∧
    t.fhr.refreshEntropyProbs = s.headerBit (b + 2) ∧ (s.cfg.gkRows = true → t.fhr.refreshLast = s.headerBit (b + 3))

/-- 41_frame_header R160 rows 1 to 19, R159, R167, R168: of an `Ok` frame the colour bits (coded on keyframes, with
`GK_ROWS` present), the segmentation header, the loop-filter header, the partition count and the quantiser header are read
in this order from a decoder over the first partition.  The quantiser header is a base index `L(7)` and five deltas
`S(QDELTA_BITS)` in the order Y1-DC, Y2-DC, Y2-AC, UV-DC, UV-AC, each behind its presence bit, an absent one being 0.  What
the other two headers code: `Obligations.SegmentationPersists` and `Obligations.LoopFilterDeltasPersist`. -/
def Obligations.FrontElementsInTableOrder : Prop :=
  (∀ s t : State, exec .fhParse s = .next t → t.result = .ok →
    (s.isKeyframe → s.cfg.gkRows = true →
      t.fhr.colorSpace = s.readSpace.1 ∧ t.fhr.clampingType = s.readClamping.1) ∧
    t.fhr.seg = s.readSegmentation.1.1 ∧ t.fhr.updateMbSegmentationMap = s.readSegmentation.1.2.1 ∧
    t.fhr.updateSegmentFeatureData = s.readSegmentation.1.2.2 ∧
    t.fhr.lf = s.readLoopFilter.1.1 ∧ t.fhr.lfDeltaUpdate = s.readLoopFilter.1.2 ∧
    t.fhr.numOfDctPartitions.toNat = 2 ^ s.readPartCount.1 ∧ t.fhr.quant = s.readQuant.1) ∧
  (∀ (c : Params) (fb : Memory) (d : Bd),
    let base := lit fb 7 d
    let delta := presenceWalk fb (signedLit fb c.qdeltaBits) (List.replicate 5 ((128 : Prob), 0)) base.2
    (quantHeader c fb d).1.base.toNat = base.1 ∧ (quantHeader c fb d).1.delta.toList = delta.1 ∧
      (quantHeader c fb d).2 = delta.2)

/-- 41_frame_header R160 rows 20 to 37, R169, R172 to R178: of an `Ok` frame the refresh fields, `refresh_entropy_probs`,
`refresh_last`, the coefficient table, `mb_no_skip_coeff`, `prob_skip_false` (where it is coded), and on an interframe
`prob_intra`, `prob_last`, `prob_gf`, the Y and UV mode probabilities and the motion-vector table, are read in this order
from the decoder as rows 1 to 19 leave it, and the position reported is that after the last of them.  On a keyframe the
refresh fields and `refresh_last` are the suggested ones (log entry 10), and `prob_skip_false` is 0 where it is not coded (R174, log entry
14). -/
def Obligations.BackElementsInTableOrder : Prop :=
  ∀ s t : State, exec .fhParse s = .next t → t.result = .ok →
    t.fhr.refresh.golden = s.readGolden.1 ∧ t.fhr.refresh.alternate = s.readAlternate.1 ∧
    t.fhr.refresh.copyToGolden.toNat = s.readCopyGolden.1 ∧
    t.fhr.refresh.copyToAlternate.toNat = s.readCopyAlternate.1 ∧
    t.fhr.refresh.signBiasGolden = s.readBiasGolden.1 ∧ t.fhr.refresh.signBiasAlternate = s.readBiasAlternate.1 ∧
    t.fhr.refreshEntropyProbs = s.readRefreshEntropy.1 ∧
    (s.cfg.gkRows = true ∨ s.isKeyframe → t.fhr.refreshLast = s.readRefreshLast.1) ∧
    t.fhr.entropy.coeff = s.readTokenProbs.1 ∧
    t.fhr.mbNoSkipCoeff = s.readNoSkip.1 ∧ t.fhr.probSkipFalse = s.readProbSkip.1 ∧
    (¬ s.isKeyframe → t.fhr.probIntra = s.readProbIntra.1 ∧ t.fhr.probLast = s.readProbLast.1 ∧
      t.fhr.probGf = s.readProbGf.1) ∧
    t.fhr.entropy.ymode = s.readYmode.1 ∧ t.fhr.entropy.uvmode = s.readUvmode.1 ∧ t.fhr.entropy.mv = s.readMv.1 ∧
    (s.readMv.2.pos / 8 < 2 ^ 32 → t.posByte.toNat = s.readMv.2.pos / 8) ∧ t.posBit.toNat = s.readMv.2.pos % 8

/-- 41_frame_header R183 to R185, 10_state R36: of an `Ok` frame the partitions are 1, 2, 4 or 8; the first has relative
offset 0, each next begins where the one before ends, the two offsets differ by the end of the table, the last ends at
the end of the frame, so that prefix, first partition, table and partitions make up `ARG_LEN`; and the offsets rise
strictly under `ZERO_SIZE_PART_BROKEN`. -/
def Obligations.PartitionsTileFrame : Prop :=
  ∀ (s t : State) (n d0 : Nat), exec .fhParse s = .next t → t.result = .ok → n = t.pt.count.toNat →
    d0 = s.declaredEnd + 3 * (n - 1) →
    n ∈ [1, 2, 4, 8] ∧ t.fhr.numOfDctPartitions = t.pt.count ∧
    (t.pt.entry[0]).offsetRel = 0 ∧
    (∀ i : Fin 8, i.val < n →
      (t.pt.entry[i]).offsetAbs.toNat = d0 + (t.pt.entry[i]).offsetRel.toNat ∧
      (t.pt.entry[i]).offsetAbs.toNat + (t.pt.entry[i]).size.toNat ≤ s.argLen.toNat) ∧
    (∀ i j : Fin 8, j.val = i.val + 1 → j.val < n →
      (t.pt.entry[j]).offsetRel.toNat = (t.pt.entry[i]).offsetRel.toNat + (t.pt.entry[i]).size.toNat ∧
      (t.pt.entry[i]).size.toNat = codedSize s.fb (s.argBase.toNat + s.declaredEnd) i.val ∧
      (s.cfg.zeroSizePartBroken = true → (t.pt.entry[i]).offsetRel.toNat < (t.pt.entry[j]).offsetRel.toNat)) ∧
    (∀ i : Fin 8, i.val + 1 = n →
      (t.pt.entry[i]).offsetAbs.toNat + (t.pt.entry[i]).size.toNat = s.argLen.toNat)

/-- 41_frame_header R173: the coefficient table is updated entry by entry in the order block type, coeff band, context,
tree node, each behind its own presence bit; an entry whose bit is 0 keeps its value. -/
def Obligations.TokenProbsInIndexOrder : Prop :=
  ∀ (c : Params) (fb : Memory) (old : CoeffTable) (d : Bd),
    coeffList (tokenProbs c fb old d).1 =
      (eachL (fun p o => updateAt fb p (litField fb 8 8) o) ((coeffList c.coeffUpdateProbs).zip (coeffList old)) d).1 ∧
    (tokenProbs c fb old d).2 =
      (eachL (fun p o => updateAt fb p (litField fb 8 8) o) ((coeffList c.coeffUpdateProbs).zip (coeffList old)) d).2 ∧
    (coeffList old).length = 1056

/-- 41_frame_header R176, R177: an `Ok` keyframe codes no mode and no motion-vector probability, so `FHR` shows the
defaults.  A group of mode probabilities is, under `per_entry`, each entry in order behind its own presence bit of
probability `INTRA_UPDATE_PROB`; under `per_group`, all entries as `L(8)` behind one flag.  The motion-vector table is
updated entry by entry, context outermost, each behind a presence bit of probability `MV_UPDATE_PROBS[c][e]`; a
replacement is `L(8)`, or under `lit7_shift` twice `L(7)` and never 0.  Where the groups stand:
`Obligations.BackElementsInTableOrder`. -/
def Obligations.ModeAndMotionVectorTables : Prop :=
  (∀ s t : State, s.isKeyframe → exec .fhParse s = .next t → t.result = .ok →
    t.fhr.entropy.ymode = s.cfg.defaultYmodeProbs ∧ t.fhr.entropy.uvmode = s.cfg.defaultUvmodeProbs ∧
      t.fhr.entropy.mv = s.cfg.defaultMvProbs) ∧
  (∀ (c : Params) (fb : Memory) (d : Bd),
    (c.mvProbCoding = .lit8 → (mvProb c fb d).1.toNat = (lit fb 8 d).1 ∧ (mvProb c fb d).2 = (lit fb 8 d).2) ∧
    (c.mvProbCoding = .lit7Shift →
      (mvProb c fb d).1.toNat = (if (lit fb 7 d).1 = 0 then 1 else 2 * (lit fb 7 d).1) ∧
        (mvProb c fb d).2 = (lit fb 7 d).2)) ∧
  (∀ (c : Params) (fb : Memory) (d : Bd) (n : Nat) (old : Vector Prob n), c.intraGating = .perEntry →
    let w := presenceWalk fb (readProb fb) (old.toList.map fun o => (c.intraUpdateProb, o)) d
    (modeProbs c fb old d).1.toList = w.1 ∧ (modeProbs c fb old d).2 = w.2) ∧
  (∀ (c : Params) (fb : Memory) (d : Bd) (n : Nat) (old : Vector Prob n), c.intraGating = .perGroup →
    let f := decodeBool fb 128 d
    (f.1 = false → modeProbs c fb old d = (old, f.2)) ∧
    (f.1 = true → (modeProbs c fb old d).1.toList = (probWalk fb n f.2).1 ∧
      (modeProbs c fb old d).2 = (probWalk fb n f.2).2)) ∧
  (∀ (c : Params) (fb : Memory) (d : Bd) (old : MvTable),
    let w := presenceWalk fb (mvProb c fb) ((mvList c.mvUpdateProbs).zip (mvList old)) d
    mvList (mvProbs c fb old d).1 = w.1 ∧ (mvProbs c fb old d).2 = w.2 ∧ (mvList old).length = 38)

/-- 41_frame_header R157, R187 (95_test_vectors X8): of an `Ok` frame, with `refresh_entropy_probs` the tables of `FHR`
become PCS's; without it PCS keeps the baseline, which is what it held before an interframe and the defaults on a
keyframe. -/
def Obligations.EntropyCommitFollowsRefresh : Prop :=
  ∀ s t : State, exec .fhParse s = .next t → t.result = .ok →
    (t.fhr.refreshEntropyProbs = true → t.pcs.entropy = t.fhr.entropy) ∧
    (t.fhr.refreshEntropyProbs = false → s.isKeyframe → t.pcs.entropy = (defaultPcs s.cfg).entropy) ∧
    (t.fhr.refreshEntropyProbs = false → ¬ s.isKeyframe → t.pcs.entropy = s.pcs.entropy)

/-- 41_frame_header R161, R163, R187, R189.  First: of an `Ok` interframe, a group of the segmentation header whose update
flag is 0 keeps its values, both flags are 0 where segmentation is disabled, and `FHR.seg` is PCS's.  Second: what the
header codes (R160 rows 3 to 9), in order: `enabled`; where it is 1, the map flag, then the data flag; where the data flag
is 1, the feature mode, the four quantiser values `S(SEG_Q_BITS)`, the four loop-filter values `S(SEG_LF_BITS)`; where the
map flag is 1, the three probabilities `L(8)`; each entry behind its presence bit, an absent one being 0, or 255 for a
probability, under `reset` and its old value under `keep`. -/
def Obligations.SegmentationPersists : Prop :=
  (∀ s t : State, exec .fhParse s = .next t → t.result = .ok → ¬ s.isKeyframe →
    t.fhr.seg = t.pcs.seg ∧
    (t.fhr.updateSegmentFeatureData = false →
      t.pcs.seg.featureMode = s.pcs.seg.featureMode ∧ t.pcs.seg.quant = s.pcs.seg.quant ∧
        t.pcs.seg.lf = s.pcs.seg.lf) ∧
    (t.fhr.updateMbSegmentationMap = false → t.pcs.seg.prob = s.pcs.seg.prob) ∧
    (t.pcs.seg.enabled = false → t.fhr.updateSegmentFeatureData = false ∧ t.fhr.updateMbSegmentationMap = false)) ∧
  (∀ (c : Params) (fb : Memory) (g : Seg) (d : Bd),
    let keep := c.segEntryAbsent = .keep
    let enabled := decodeBool fb 128 d
    let map := decodeBool fb 128 enabled.2
    let data := decodeBool fb 128 map.2
    let mode := decodeBool fb 128 data.2
    let quant := presenceWalk fb (signedLit fb c.segQBits)
      (g.quant.toList.map fun o => ((128 : Prob), if keep then o else 0)) mode.2
    let lf := presenceWalk fb (signedLit fb c.segLfBits)
      (g.lf.toList.map fun o => ((128 : Prob), if keep then o else 0)) quant.2
    let afterData := if data.1 then lf.2 else data.2
    let prob := presenceWalk fb (readProb fb)
      (g.prob.toList.map fun o => ((128 : Prob), if keep then o else 255)) afterData
    let r := segHeader c fb g d
    r.1.1.enabled = enabled.1 ∧
    (enabled.1 = false → r.1 = ({ g with enabled := false }, false, false) ∧ r.2 = enabled.2) ∧
    (enabled.1 = true →
      r.1.2 = (map.1, data.1) ∧
      (data.1 = true → r.1.1.featureMode = mode.1 ∧ r.1.1.quant.toList = quant.1 ∧ r.1.1.lf.toList = lf.1) ∧
      (data.1 = false → r.1.1.featureMode = g.featureMode ∧ r.1.1.quant = g.quant ∧ r.1.1.lf = g.lf) ∧
      (map.1 = true → r.1.1.prob.toList = prob.1 ∧ r.2 = prob.2) ∧
      (map.1 = false → r.1.1.prob = g.prob ∧ r.2 = afterData)))

/-- 41_frame_header R164, R166, R187, R189.  First: of an `Ok` interframe, the loop-filter deltas stay where `delta_update`
is 0, which it is where `adj_enable` is 0, and `FHR.lf` is PCS's.  Second: what the header codes (R160 rows 10 to 16), in
order: type, level, sharpness, `adj_enable`; where that is 1, `delta_update`; where that is 1, the four reference deltas,
then the four mode deltas, each `S(LF_DELTA_BITS)` behind its presence bit, an unset entry keeping its prior value. -/
def Obligations.LoopFilterDeltasPersist : Prop :=
  (∀ s t : State, exec .fhParse s = .next t → t.result = .ok → ¬ s.isKeyframe →
    t.fhr.lf = t.pcs.lf ∧
    (t.fhr.lfDeltaUpdate = false →
      t.pcs.lf.refDelta = s.pcs.lf.refDelta ∧ t.pcs.lf.modeDelta = s.pcs.lf.modeDelta) ∧
    (t.pcs.lf.adjEnable = false → t.fhr.lfDeltaUpdate = false)) ∧
  (∀ (c : Params) (fb : Memory) (f : LoopFilter) (d : Bd),
    let type := decodeBool fb 128 d
    let level := lit fb c.lfLevelBits type.2
    let sharpness := lit fb 3 level.2
    let adj := decodeBool fb 128 sharpness.2
    let update := decodeBool fb 128 adj.2
    let ref := presenceWalk fb (signedLit fb c.lfDeltaBits) (f.refDelta.toList.map fun o => ((128 : Prob), o)) update.2
    let mode := presenceWalk fb (signedLit fb c.lfDeltaBits) (f.modeDelta.toList.map fun o => ((128 : Prob), o)) ref.2
    let r := lfHeader c fb f d
    r.1.1.filterType = type.1 ∧ r.1.1.level = level.1 ∧ r.1.1.sharpness.toNat = sharpness.1 ∧
    r.1.1.adjEnable = adj.1 ∧ r.1.2 = (adj.1 && update.1) ∧
    (r.1.2 = true → r.1.1.refDelta.toList = ref.1 ∧ r.1.1.modeDelta.toList = mode.1 ∧ r.2 = mode.2) ∧
    (r.1.2 = false → r.1.1.refDelta = f.refDelta ∧ r.1.1.modeDelta = f.modeDelta ∧
      r.2 = if adj.1 then update.2 else adj.2))

/-- 41_frame_header R168, R164: of an `Ok` frame the quantiser deltas have a magnitude of at most 127 and the
loop-filter level is within `LF_LEVEL_BITS`. -/
def Obligations.CodedMagnitudesBounded : Prop :=
  ∀ s t : State, exec .fhParse s = .next t → t.result = .ok →
    (∀ i : Fin 5, (t.fhr.quant.delta[i]).natAbs ≤ 127) ∧ t.fhr.lf.level < 2 ^ s.cfg.lfLevelBits

/-- 41_frame_header R169 to R172, R174: on an `Ok` keyframe the refresh fields and `refresh_last` have the forced values (the suggested ones
of R170, log entry 10); on an interframe a copy mode not coded is 0 and none is 3 under `COPYMODE3_BROKEN`;
`prob_skip_false` is 0 where `mb_no_skip_coeff` is (the model's choice with decision D34, log entry 14). -/
def Obligations.RefreshFieldsOfGoodFrame : Prop :=
  ∀ s t : State, exec .fhParse s = .next t → t.result = .ok →
    (s.isKeyframe → t.fhr.refresh.golden = true ∧ t.fhr.refresh.alternate = true ∧ t.fhr.refresh.copyToGolden = 0 ∧
      t.fhr.refresh.copyToAlternate = 0 ∧ t.fhr.refresh.signBiasGolden = false ∧
      t.fhr.refresh.signBiasAlternate = false ∧ t.fhr.refreshLast = true) ∧
    (¬ s.isKeyframe →
      (t.fhr.refresh.golden = true → t.fhr.refresh.copyToGolden = 0) ∧
      (t.fhr.refresh.alternate = true → t.fhr.refresh.copyToAlternate = 0) ∧
      (s.cfg.copymode3Broken = true → t.fhr.refresh.copyToGolden ≠ 3 ∧ t.fhr.refresh.copyToAlternate ≠ 3)) ∧
    (t.fhr.mbNoSkipCoeff = false → t.fhr.probSkipFalse = 0)

/-- 93_implementation_defined U8: with the field widths the spec suggests, the position of an `Ok` frame is below 10000
bytes, so no position of a frame is ever free. -/
def Obligations.ParsePositionBounded : Prop :=
  ∀ s t : State, s.cfg.segQBits = 7 → s.cfg.segLfBits = 6 → s.cfg.lfLevelBits = 6 → s.cfg.lfDeltaBits = 6 →
    exec .fhParse s = .next t → t.result = .ok → t.posByte.toNat < 10000

/-- The frame of `FH.PARSE` (41_frame_header R150, R187, R188; 10_state R31, R33): `RES`, `ARG_*` and every byte of FB
stay, whatever the result; past the caller's contract there is no decoder left; the sequencer is idle again. -/
def Obligations.ParseFrameConditions : Prop :=
  ∀ s t : State, exec .fhParse s = .next t →
    t.res = s.res ∧ t.argBase = s.argBase ∧ t.argLen = s.argLen ∧ t.argNull = s.argNull ∧
    (∀ a, t.fb.read a = s.fb.read a) ∧ t.cfg = s.cfg ∧ t.pending = s.pending ∧ t.fh.phase = .idle ∧
    (t.result ≠ .error → t.bd.valid = false) ∧ (t.result = .error → t.bd = s.bd ∧ t.pcs = s.pcs) ∧
    (t.fhrValid = true ↔ t.result = .ok)

/-- 41_frame_header R189, the reset property (95_test_vectors X1): the outcome of a keyframe with `Ok`, outputs and PCS
alike, does not depend on what PCS, the snapshot and the working copy held before.  (That the two runs agree also on the
fields of `FHR` a keyframe does not have, on the entries of `PT` beyond the count and on the BD registers, which R188 and U7
leave unspecified, is the model's choice: they draw them at the same draw number, log entries 3 and 16.) -/
def Obligations.KeyframeIndependentOfPcs : Prop :=
  ∀ (s t : State) (p q : Pcs) (e : Entropy), s.isKeyframe → exec .fhParse s = .next t → t.result = .ok →
    exec .fhParse { s with pcs := p, pcsSnap := q, w := e } = .next { t with pcsSnap := p }

/-- 93_implementation_defined U4: "no PCS field steers the parse": two runs that differ in PCS alone agree on the result
and, of an `Ok` frame, on the partition table, the position and every coded field of `FHR`, but for the values inside the
three groups that PCS holds (of those, the fields always coded agree).  That the same equations hold of what
41_frame_header R188 and U7 leave unspecified, the fields of `FHR` a frame does not code, the entries of `PT` beyond the
count, the BD registers after an `FH.PARSE` past its argument check and the outputs after a failure, is the model's choice
(DESIGN CHOICE, log entries 3 and 16): both runs draw these free values at the same draw number. -/
def Obligations.OutcomeIndependentOfPcs : Prop :=
  ∀ (s t : State) (p : Pcs), exec .fhParse s = .next t →
    ∃ t', exec .fhParse { s with pcs := p } = .next t' ∧ t'.result = t.result ∧ t'.pt = t.pt ∧
      t'.posByte = t.posByte ∧ t'.posBit = t.posBit ∧ t'.bd = t.bd ∧ t'.fhr.seg.enabled = t.fhr.seg.enabled ∧
      t'.fhr.lf.filterType = t.fhr.lf.filterType ∧ t'.fhr.lf.level = t.fhr.lf.level ∧
      t'.fhr.lf.sharpness = t.fhr.lf.sharpness ∧ t'.fhr.lf.adjEnable = t.fhr.lf.adjEnable ∧
      t'.fhr = { t.fhr with seg := t'.fhr.seg, lf := t'.fhr.lf, entropy := t'.fhr.entropy }

/-! ### The machine -/

/-- 10_state R32: the fields of `STATUS`, its reserved bits, and that only `FH.PARSE` changes `fhr_valid`: to 1 with `Ok`,
to 0 otherwise. -/
def Obligations.StatusFieldsFollowCommands : Prop :=
  (∀ s : State, s.status.toNat = s.result.code.toNat + 4 * s.bd.valid.toNat + 8 * s.fhrValid.toNat ∧
    s.status.toNat % 4 ≠ 3 ∧ s.status.toNat < 16) ∧
  (∀ (s t : State) (i : Instr), exec i s = .next t →
    (i ≠ .fhParse → t.fhrValid = s.fhrValid) ∧ (i = .fhParse → (t.fhrValid = true ↔ t.result = .ok)))

/-- 10_state R26, R29, R36, R38, R39, R42, R44 and the canonical form of FB: every step keeps the machine's invariant.
(The range of a signed field is the model's choice, log entry 22.) -/
def Obligations.StepKeepsMachineInvariant : Prop :=
  ∀ s t : State, s.Inv → step s = .next t → t.Inv

/-- The machine's invariant holds after reset (the values that 10_state R47 leaves unspecified are the model's, log entry
7). -/
def Obligations.ResetMeetsMachineInvariant : Prop := State.reset.Inv

/-- 70_reset_and_hazards R250: what reset leaves, as far as the spec fixes it. -/
def Obligations.ResetIsIdle : Prop :=
  State.reset.fh.phase = .idle ∧ State.reset.bd.valid = false ∧ State.reset.status = 0x0000 ∧
    State.reset.argNull = true ∧ step State.reset = .next State.reset
end

