-- ==== Sys2Proof/Laws/Decoder.lean ====
section
/-! SUPPORT. The laws of the boolean decoder: what one shift, `Renormalise` and `DecodeBool` can do, and how a property of
the BD registers passes through the composed reads of a header. -/

namespace Sys2Proof.Machine

variable {α β γ : Type}

/-! ### Composition of reads -/

@[simp] theorem Rd.pure_apply (x : α) (d : Bd) : (pure x : Rd α) d = (x, d) := rfl

@[simp] theorem Rd.bind_apply (m : Rd α) (f : α → Rd β) (d : Bd) : (m >>= f) d = f (m d).1 (m d).2 := rfl

@[simp] theorem Rd.map_apply (f : α → β) (m : Rd α) (d : Bd) : (f <$> m) d = (f (m d).1, (m d).2) := rfl

theorem updateAt_apply (fb : Memory) (p : Prob) (rd : Rd α) (absent : α) (d : Bd) :
    updateAt fb p rd absent d =
      if (decodeBool fb p d).1 then rd (decodeBool fb p d).2 else (absent, (decodeBool fb p d).2) := by
  simp only [updateAt, Rd.bind_apply]
  split <;> rfl

@[simp] theorem whenSet_false (rd : α → Rd α) (x : α) : whenSet false rd x = pure x := rfl

@[simp] theorem whenSet_true (rd : α → Rd α) (x : α) : whenSet true rd x = rd x := rfl

/-- A property of the BD registers that a read keeps. -/
def Rd.Keeps (P : Bd → Prop) (m : Rd α) : Prop := ∀ d, P d → P (m d).2

/-- A property of every value a read can give. -/
def Rd.Gives (Q : α → Prop) (m : Rd α) : Prop := ∀ d, Q (m d).1

/-- Two reads that take related registers to related registers and give related values. -/
def Rd.Rel (R : Bd → Bd → Prop) (S : α → β → Prop) (m : Rd α) (m' : Rd β) : Prop :=
  ∀ d d', R d d' → S (m d).1 (m' d').1 ∧ R (m d).2 (m' d').2

section Keeps

variable {P : Bd → Prop}

theorem Rd.Keeps.pure (x : α) : Rd.Keeps P (pure x : Rd α) := fun _ h => h

theorem Rd.Keeps.bind {m : Rd α} {f : α → Rd β} (hm : m.Keeps P) (hf : ∀ a, (f a).Keeps P) : (m >>= f).Keeps P :=
  fun d h => hf _ _ (hm d h)

theorem Rd.Keeps.ite {b : Bool} {m m' : Rd α} (h : m.Keeps P) (h' : m'.Keeps P) :
    Rd.Keeps P (if b then m else m') := by cases b <;> assumption

theorem Rd.Keeps.whenSet {u : Bool} {rd : α → Rd α} (h : ∀ x, (rd x).Keeps P) (x : α) : (whenSet u rd x).Keeps P := by
  cases u
  · exact .pure x
  · exact h x

theorem Rd.Keeps.litFrom {fb : Memory} (h : ∀ p, (decodeBool fb p).Keeps P) (n v : Nat) : (litFrom fb n v).Keeps P := by
  induction n generalizing v with
  | zero => exact .pure v
  | succ n ih => exact (h _).bind fun _ => ih _

theorem Rd.Keeps.lit {fb : Memory} (h : ∀ p, (decodeBool fb p).Keeps P) (n : Nat) : (lit fb n).Keeps P :=
  .litFrom h n 0

theorem Rd.Keeps.litField {fb : Memory} (h : ∀ p, (decodeBool fb p).Keeps P) (w n : Nat) : (litField fb w n).Keeps P :=
  (Rd.Keeps.lit h n).bind fun _ => .pure _

theorem Rd.Keeps.signedLit {fb : Memory} (h : ∀ p, (decodeBool fb p).Keeps P) (n : Nat) : (signedLit fb n).Keeps P :=
  (Rd.Keeps.lit h n).bind fun _ => (h _).bind fun _ => .pure _

theorem Rd.Keeps.updateAt {fb : Memory} (h : ∀ p, (decodeBool fb p).Keeps P) (p : Prob) {rd : Rd α} (hr : rd.Keeps P)
    (absent : α) : (updateAt fb p rd absent).Keeps P :=
  (h p).bind fun _ => .ite hr (.pure absent)

theorem Rd.Keeps.whenFlag {fb : Memory} (h : ∀ p, (decodeBool fb p).Keeps P) {rd : Rd α} (hr : rd.Keeps P) (absent : α) :
    (whenFlag fb rd absent).Keeps P :=
  .updateAt h _ hr absent

theorem Rd.Keeps.eachL {f : α → β → Rd β} (h : ∀ a b, (f a b).Keeps P) (l : List (α × β)) : (eachL f l).Keeps P := by
  induction l with
  | nil => exact .pure []
  | cons ab rest ih => exact (h ab.1 ab.2).bind fun _ => ih.bind fun _ => .pure _

theorem Rd.Keeps.eachV {n : Nat} {f : α → β → Rd β} (h : ∀ a b, (f a b).Keeps P) (ps : Vector α n) (old : Vector β n) :
    (eachV f ps old).Keeps P :=
  Rd.Keeps.eachL h (ps.toList.zip old.toList)

theorem Rd.Keeps.each {n : Nat} {f : β → Rd β} (h : ∀ b, (f b).Keeps P) (old : Vector β n) : (each f old).Keeps P :=
  .eachV (fun _ b => h b) old old

end Keeps

/-! ### The values of a table of reads -/

theorem eachL_gives {Q : β → Prop} {f : α → β → Rd β} (l : List (α × β))
    (h : ∀ ab ∈ l, (f ab.1 ab.2).Gives Q) (d : Bd) : ∀ x ∈ (eachL f l d).1, Q x := by
  induction l generalizing d with
  | nil => intro x hx; cases hx
  | cons ab rest ih =>
    intro x hx
    rcases List.mem_cons.1 (show x ∈ (f ab.1 ab.2 d).1 :: (eachL f rest (f ab.1 ab.2 d).2).1 from hx) with rfl | hx
    · exact h ab (by simp) d
    · exact ih (fun ab' h' => h ab' (by simp [h'])) _ x hx

theorem eachV_toList {n : Nat} (f : α → β → Rd β) (ps : Vector α n) (old : Vector β n) (d : Bd) :
    (eachV f ps old d).1.toList = (eachL f (ps.toList.zip old.toList) d).1 := rfl

theorem eachV_snd {n : Nat} (f : α → β → Rd β) (ps : Vector α n) (old : Vector β n) (d : Bd) :
    (eachV f ps old d).2 = (eachL f (ps.toList.zip old.toList) d).2 := rfl

/-- Every entry of a table after `each` has a property that each new entry gets from its old one. -/
theorem each_gives {n : Nat} {Q : β → Prop} {f : β → Rd β} {old : Vector β n}
    (h : ∀ i : Fin n, (f old[i]).Gives Q) (d : Bd) (i : Fin n) : Q (each f old d).1[i] := by
  have hm : (each f old d).1[i] ∈ (each f old d).1.toList := by simp [Vector.mem_toList_iff]
  refine eachL_gives (old.toList.zip old.toList) (fun ab hab => ?_) d _ hm
  have hb : ab.2 ∈ old := by simpa using (List.of_mem_zip hab).2
  obtain ⟨j, hj, e⟩ := Vector.getElem_of_mem hb
  rw [← e]
  exact h ⟨j, hj⟩

/-! ### NextByte, one shift, Renormalise -/

@[simp] theorem nextByte_snd (fb : Memory) (d : Bd) : (nextByte fb d).2 = { d with cursor := d.cursor + 1 } := rfl

/-- One shift: `range` doubles, the count goes on (7 to 0), and `value` shifts, with the next byte in its low half on the
eighth shift. -/
theorem shiftOnce_cases (fb : Memory) (d : Bd) :
    (d.bitCount ≠ 7 ∧ shiftOnce fb d =
      { d with value := d.value <<< 1, range := d.range <<< 1, bitCount := d.bitCount + 1 }) ∨
    (d.bitCount = 7 ∧ shiftOnce fb d =
      { d with value := (d.value <<< 1) ||| (nextByte fb d).1.setWidth 16, range := d.range <<< 1, bitCount := 0
               cursor := d.cursor + 1 }) := by
  by_cases h : d.bitCount = 7
  · exact .inr ⟨h, by simp only [shiftOnce, h]; rfl⟩
  · exact .inl ⟨h, by simp only [shiftOnce, if_neg h]⟩

@[simp] theorem shiftOnce_range (fb : Memory) (d : Bd) : (shiftOnce fb d).range = d.range <<< 1 := by
  rcases shiftOnce_cases fb d with ⟨-, h⟩ | ⟨-, h⟩ <;> rw [h]
@[simp] theorem shiftOnce_base (fb : Memory) (d : Bd) : (shiftOnce fb d).base = d.base := by
  rcases shiftOnce_cases fb d with ⟨-, h⟩ | ⟨-, h⟩ <;> rw [h]
@[simp] theorem shiftOnce_len (fb : Memory) (d : Bd) : (shiftOnce fb d).len = d.len := by
  rcases shiftOnce_cases fb d with ⟨-, h⟩ | ⟨-, h⟩ <;> rw [h]
@[simp] theorem shiftOnce_valid (fb : Memory) (d : Bd) : (shiftOnce fb d).valid = d.valid := by
  rcases shiftOnce_cases fb d with ⟨-, h⟩ | ⟨-, h⟩ <;> rw [h]
@[simp] theorem shiftOnce_overlay (fb : Memory) (d : Bd) : (shiftOnce fb d).overlay = d.overlay := by
  rcases shiftOnce_cases fb d with ⟨-, h⟩ | ⟨-, h⟩ <;> rw [h]

/-- A property that every shift below 128 keeps holds after the loop. -/
theorem renormLoop_induct {P : Bd → Prop} {fb : Memory}
    (step : ∀ d, P d → d.range.toNat < 128 → P (shiftOnce fb d)) (k : Nat) (d : Bd) (h : P d) :
    P (renormLoop fb k d) := by
  induction k generalizing d with
  | zero => exact h
  | succ k ih =>
    simp only [renormLoop]
    split
    · rename_i hr; exact ih _ (step d h hr)
    · exact h

/-- `k` passes reach 128 from a range of at least `128 / 2^k`. -/
theorem renormLoop_range {fb : Memory} (k : Nat) (d : Bd) (h : 128 ≤ d.range.toNat * 2 ^ k) :
    128 ≤ (renormLoop fb k d).range.toNat := by
  induction k generalizing d with
  | zero => simpa [renormLoop] using h
  | succ k ih =>
    simp only [renormLoop]
    split
    · rename_i hr
      refine ih _ ?_
      have hr' : d.range.toNat < 128 := hr
      rw [shiftOnce_range, BitVec.toNat_shiftLeft, Nat.shiftLeft_eq, Nat.mod_eq_of_lt (by omega)]
      rw [Nat.pow_succ] at h
      have : d.range.toNat * 2 ^ 1 * 2 ^ k = d.range.toNat * (2 ^ k * 2) := by ring
      omega
    · rename_i hr
      simpa using hr

/-- The range `Renormalise` leaves is at least 128 unless it was 0. -/
theorem renormalise_range {fb : Memory} (d : Bd) (h : 1 ≤ d.range.toNat) : 128 ≤ (renormalise fb d).range.toNat :=
  renormLoop_range 7 d (by omega)

/-! ### DecodeBool -/

theorem splitOf_eq (range : BitVec 8) (p : Prob) : splitOf range p = 1 + (range.toNat - 1) * p.toNat / 256 := by
  simp [splitOf, Nat.shiftRight_eq_div_pow]

theorem splitOf_pos (range : BitVec 8) (p : Prob) : 1 ≤ splitOf range p := by
  rw [splitOf_eq]; omega

theorem splitOf_lt (range : BitVec 8) (p : Prob) (h : 2 ≤ range.toNat) : splitOf range p < range.toNat := by
  rw [splitOf_eq]
  have hp : p.toNat ≤ 255 := by have := p.isLt; omega
  have : (range.toNat - 1) * p.toNat / 256 ≤ range.toNat - 2 := by
    rw [Nat.div_le_iff_le_mul_add_pred (by norm_num)]
    calc (range.toNat - 1) * p.toNat ≤ (range.toNat - 1) * 255 := Nat.mul_le_mul_left _ hp
      _ ≤ 256 * (range.toNat - 2) + 255 := by omega
  omega

theorem splitOf_le (range : BitVec 8) (p : Prob) : splitOf range p ≤ 255 := by
  have hr := range.isLt
  by_cases h : 2 ≤ range.toNat
  · have := splitOf_lt range p h; omega
  · have : range.toNat - 1 = 0 := by omega
    rw [splitOf_eq, this]; omega

/-- The two outcomes of `DecodeBool`. -/
theorem decodeBool_cases (fb : Memory) (p : Prob) (d : Bd) :
    (splitOf d.range p * 256 ≤ d.value.toNat ∧ decodeBool fb p d =
      (true, renormalise fb { d with
        range := BitVec.ofNat 8 (d.range.toNat - splitOf d.range p)
        value := BitVec.ofNat 16 (d.value.toNat - splitOf d.range p * 256) })) ∨
    (d.value.toNat < splitOf d.range p * 256 ∧ decodeBool fb p d =
      (false, renormalise fb { d with range := BitVec.ofNat 8 (splitOf d.range p) })) := by
  have hs : splitOf d.range p <<< 8 = splitOf d.range p * 256 := by simp [Nat.shiftLeft_eq]
  by_cases h : splitOf d.range p * 256 ≤ d.value.toNat
  · exact .inl ⟨h, by simp only [decodeBool, hs, if_pos h]⟩
  · exact .inr ⟨by omega, by simp only [decodeBool, hs, if_neg h]⟩

/-- A property that both outcomes establish and every shift below 128 keeps holds after `DecodeBool`. -/
theorem decodeBool_induct {P : Bd → Prop} {fb : Memory} (p : Prob) (d : Bd)
    (one : splitOf d.range p * 256 ≤ d.value.toNat → P { d with
        range := BitVec.ofNat 8 (d.range.toNat - splitOf d.range p)
        value := BitVec.ofNat 16 (d.value.toNat - splitOf d.range p * 256) })
    (zero : d.value.toNat < splitOf d.range p * 256 → P { d with range := BitVec.ofNat 8 (splitOf d.range p) })
    (step : ∀ e, P e → e.range.toNat < 128 → P (shiftOnce fb e)) : P (decodeBool fb p d).2 := by
  rcases decodeBool_cases fb p d with ⟨h, e⟩ | ⟨h, e⟩ <;> rw [e]
  · exact renormLoop_induct step 7 _ (one h)
  · exact renormLoop_induct step 7 _ (zero h)

/-- What no read changes: the slice, the flag, what HOST has changed. -/
theorem decodeBool_slice (fb : Memory) (p : Prob) (d : Bd) :
    (decodeBool fb p d).2.base = d.base ∧ (decodeBool fb p d).2.len = d.len ∧ (decodeBool fb p d).2.valid = d.valid ∧
      (decodeBool fb p d).2.overlay = d.overlay := by
  refine decodeBool_induct (P := fun e => e.base = d.base ∧ e.len = d.len ∧ e.valid = d.valid ∧ e.overlay = d.overlay)
    p d (fun _ => ⟨rfl, rfl, rfl, rfl⟩) (fun _ => ⟨rfl, rfl, rfl, rfl⟩) fun e h _ => ?_
  simpa using h

/-- The decoder `BD.INIT` constructs. -/
theorem construct_eq (fb : Memory) (base len : Addr) :
    Bd.construct fb base len =
      { range := 255, value := sliceByteAt fb base len 0 ++ sliceByteAt fb base len 1, bitCount := 0, base := base
        len := len, cursor := 2, valid := true, overlay := [] } := rfl

end Sys2Proof.Machine
end

