-- ==== Sys2Proof/Laws/State.lean ====
section
/-! SUPPORT. The fields of a state after each named update, true by rfl, and after each pass of the header: one lemma per
field. -/

namespace Sys2Proof.Machine

section raise

variable (c : Cause) (s : State)

@[simp] theorem State.raise_fb : (s.raise c).fb = s.fb := rfl
@[simp] theorem State.raise_argBase : (s.raise c).argBase = s.argBase := rfl
@[simp] theorem State.raise_argLen : (s.raise c).argLen = s.argLen := rfl
@[simp] theorem State.raise_argNull : (s.raise c).argNull = s.argNull := rfl
@[simp] theorem State.raise_bd : (s.raise c).bd = s.bd := rfl
@[simp] theorem State.raise_result : (s.raise c).result = c.result := rfl
@[simp] theorem State.raise_fhrValid : (s.raise c).fhrValid = s.fhrValid := rfl
@[simp] theorem State.raise_res : (s.raise c).res = s.res := rfl
@[simp] theorem State.raise_posByte : (s.raise c).posByte = s.posByte := rfl
@[simp] theorem State.raise_posBit : (s.raise c).posBit = s.posBit := rfl
@[simp] theorem State.raise_fhr : (s.raise c).fhr = s.fhr := rfl
@[simp] theorem State.raise_pt : (s.raise c).pt = s.pt := rfl
@[simp] theorem State.raise_pcs : (s.raise c).pcs = s.pcs := rfl
@[simp] theorem State.raise_pcsSnap : (s.raise c).pcsSnap = s.pcsSnap := rfl
@[simp] theorem State.raise_w : (s.raise c).w = s.w := rfl
@[simp] theorem State.raise_fh : (s.raise c).fh = s.fh := rfl
@[simp] theorem State.raise_cfg : (s.raise c).cfg = s.cfg := rfl
@[simp] theorem State.raise_draws : (s.raise c).draws = s.draws := rfl
@[simp] theorem State.raise_pending : (s.raise c).pending = s.pending := rfl

end raise

section complete

variable (s : State)

@[simp] theorem State.complete_fb : s.complete.fb = s.fb := rfl
@[simp] theorem State.complete_argBase : s.complete.argBase = s.argBase := rfl
@[simp] theorem State.complete_argLen : s.complete.argLen = s.argLen := rfl
@[simp] theorem State.complete_argNull : s.complete.argNull = s.argNull := rfl
@[simp] theorem State.complete_bd : s.complete.bd = s.bd := rfl
@[simp] theorem State.complete_result : s.complete.result = .ok := rfl
@[simp] theorem State.complete_fhrValid : s.complete.fhrValid = s.fhrValid := rfl
@[simp] theorem State.complete_res : s.complete.res = s.res := rfl
@[simp] theorem State.complete_posByte : s.complete.posByte = s.posByte := rfl
@[simp] theorem State.complete_posBit : s.complete.posBit = s.posBit := rfl
@[simp] theorem State.complete_fhr : s.complete.fhr = s.fhr := rfl
@[simp] theorem State.complete_pt : s.complete.pt = s.pt := rfl
@[simp] theorem State.complete_pcs : s.complete.pcs = s.pcs := rfl
@[simp] theorem State.complete_pcsSnap : s.complete.pcsSnap = s.pcsSnap := rfl
@[simp] theorem State.complete_w : s.complete.w = s.w := rfl
@[simp] theorem State.complete_fh : s.complete.fh = s.fh := rfl
@[simp] theorem State.complete_cfg : s.complete.cfg = s.cfg := rfl
@[simp] theorem State.complete_draws : s.complete.draws = s.draws := rfl
@[simp] theorem State.complete_pending : s.complete.pending = s.pending := rfl

end complete

section enter

variable (p : Phase) (s : State)

@[simp] theorem State.enter_fb : (s.enter p).fb = s.fb := rfl
@[simp] theorem State.enter_argBase : (s.enter p).argBase = s.argBase := rfl
@[simp] theorem State.enter_argLen : (s.enter p).argLen = s.argLen := rfl
@[simp] theorem State.enter_argNull : (s.enter p).argNull = s.argNull := rfl
@[simp] theorem State.enter_bd : (s.enter p).bd = s.bd := rfl
@[simp] theorem State.enter_result : (s.enter p).result = s.result := rfl
@[simp] theorem State.enter_fhrValid : (s.enter p).fhrValid = s.fhrValid := rfl
@[simp] theorem State.enter_res : (s.enter p).res = s.res := rfl
@[simp] theorem State.enter_posByte : (s.enter p).posByte = s.posByte := rfl
@[simp] theorem State.enter_posBit : (s.enter p).posBit = s.posBit := rfl
@[simp] theorem State.enter_fhr : (s.enter p).fhr = s.fhr := rfl
@[simp] theorem State.enter_pt : (s.enter p).pt = s.pt := rfl
@[simp] theorem State.enter_pcs : (s.enter p).pcs = s.pcs := rfl
@[simp] theorem State.enter_pcsSnap : (s.enter p).pcsSnap = s.pcsSnap := rfl
@[simp] theorem State.enter_w : (s.enter p).w = s.w := rfl
@[simp] theorem State.enter_fh : (s.enter p).fh = { s.fh with phase := p } := rfl
@[simp] theorem State.enter_cfg : (s.enter p).cfg = s.cfg := rfl
@[simp] theorem State.enter_draws : (s.enter p).draws = s.draws := rfl
@[simp] theorem State.enter_pending : (s.enter p).pending = s.pending := rfl

end enter

section beginParse

variable (s : State)

@[simp] theorem State.beginParse_fb : s.beginParse.fb = s.fb := rfl
@[simp] theorem State.beginParse_argBase : s.beginParse.argBase = s.argBase := rfl
@[simp] theorem State.beginParse_argLen : s.beginParse.argLen = s.argLen := rfl
@[simp] theorem State.beginParse_argNull : s.beginParse.argNull = s.argNull := rfl
@[simp] theorem State.beginParse_bd : s.beginParse.bd = s.bd := rfl
@[simp] theorem State.beginParse_result : s.beginParse.result = s.result := rfl
@[simp] theorem State.beginParse_fhrValid : s.beginParse.fhrValid = s.fhrValid := rfl
@[simp] theorem State.beginParse_res : s.beginParse.res = s.res := rfl
@[simp] theorem State.beginParse_posByte : s.beginParse.posByte = s.posByte := rfl
@[simp] theorem State.beginParse_posBit : s.beginParse.posBit = s.posBit := rfl
@[simp] theorem State.beginParse_fhr : s.beginParse.fhr = Config.freeFhr s.draws := rfl
@[simp] theorem State.beginParse_pt : s.beginParse.pt = s.pt := rfl
@[simp] theorem State.beginParse_pcs : s.beginParse.pcs = s.pcs := rfl
@[simp] theorem State.beginParse_pcsSnap : s.beginParse.pcsSnap = s.pcs := rfl
@[simp] theorem State.beginParse_w : s.beginParse.w = s.w := rfl
@[simp] theorem State.beginParse_fh : s.beginParse.fh = { phase := .s1, bytepos := 0 } := rfl
@[simp] theorem State.beginParse_cfg : s.beginParse.cfg = s.cfg := rfl
@[simp] theorem State.beginParse_draws : s.beginParse.draws = s.draws := rfl
@[simp] theorem State.beginParse_pending : s.beginParse.pending = s.pending := rfl

end beginParse

section setTag

variable (s : State)

@[simp] theorem State.setTag_fb : s.setTag.fb = s.fb := rfl
@[simp] theorem State.setTag_argBase : s.setTag.argBase = s.argBase := rfl
@[simp] theorem State.setTag_argLen : s.setTag.argLen = s.argLen := rfl
@[simp] theorem State.setTag_argNull : s.setTag.argNull = s.argNull := rfl
@[simp] theorem State.setTag_bd : s.setTag.bd = s.bd := rfl
@[simp] theorem State.setTag_result : s.setTag.result = s.result := rfl
@[simp] theorem State.setTag_fhrValid : s.setTag.fhrValid = s.fhrValid := rfl
@[simp] theorem State.setTag_res : s.setTag.res = s.res := rfl
@[simp] theorem State.setTag_posByte : s.setTag.posByte = s.posByte := rfl
@[simp] theorem State.setTag_posBit : s.setTag.posBit = s.posBit := rfl
@[simp] theorem State.setTag_fhr : s.setTag.fhr = { s.fhr with
    keyFrame := !s.tag.getLsbD 0, version := s.tag.extractLsb' 1 2, showFrame := s.tag.getLsbD 4
    firstPartSize := s.tag.extractLsb' 5 19 } := rfl
@[simp] theorem State.setTag_pt : s.setTag.pt = s.pt := rfl
@[simp] theorem State.setTag_pcs : s.setTag.pcs = s.pcs := rfl
@[simp] theorem State.setTag_pcsSnap : s.setTag.pcsSnap = s.pcsSnap := rfl
@[simp] theorem State.setTag_w : s.setTag.w = s.w := rfl
@[simp] theorem State.setTag_fh : s.setTag.fh = { s.fh with bytepos := 3 } := rfl
@[simp] theorem State.setTag_cfg : s.setTag.cfg = s.cfg := rfl
@[simp] theorem State.setTag_draws : s.setTag.draws = s.draws := rfl
@[simp] theorem State.setTag_pending : s.setTag.pending = s.pending := rfl

end setTag

section keyExtension

variable (s : State)

@[simp] theorem State.keyExtension_fb : s.keyExtension.fb = s.fb := rfl
@[simp] theorem State.keyExtension_argBase : s.keyExtension.argBase = s.argBase := rfl
@[simp] theorem State.keyExtension_argLen : s.keyExtension.argLen = s.argLen := rfl
@[simp] theorem State.keyExtension_argNull : s.keyExtension.argNull = s.argNull := rfl
@[simp] theorem State.keyExtension_bd : s.keyExtension.bd = s.bd := rfl
@[simp] theorem State.keyExtension_result : s.keyExtension.result = s.result := rfl
@[simp] theorem State.keyExtension_fhrValid : s.keyExtension.fhrValid = s.fhrValid := rfl
@[simp] theorem State.keyExtension_res : s.keyExtension.res = s.res := rfl
@[simp] theorem State.keyExtension_posByte : s.keyExtension.posByte = s.posByte := rfl
@[simp] theorem State.keyExtension_posBit : s.keyExtension.posBit = s.posBit := rfl
@[simp] theorem State.keyExtension_pt : s.keyExtension.pt = s.pt := rfl
@[simp] theorem State.keyExtension_pcs : s.keyExtension.pcs = defaultPcs s.cfg := rfl
@[simp] theorem State.keyExtension_pcsSnap : s.keyExtension.pcsSnap = s.pcsSnap := rfl
@[simp] theorem State.keyExtension_w : s.keyExtension.w = s.w := rfl
@[simp] theorem State.keyExtension_fh : s.keyExtension.fh = { s.fh with bytepos := 10 } := rfl
@[simp] theorem State.keyExtension_cfg : s.keyExtension.cfg = s.cfg := rfl
@[simp] theorem State.keyExtension_draws : s.keyExtension.draws = s.draws := rfl
@[simp] theorem State.keyExtension_pending : s.keyExtension.pending = s.pending := rfl

end keyExtension

section setFirstPartOffset

variable (s : State)

@[simp] theorem State.setFirstPartOffset_fb : s.setFirstPartOffset.fb = s.fb := rfl
@[simp] theorem State.setFirstPartOffset_argBase : s.setFirstPartOffset.argBase = s.argBase := rfl
@[simp] theorem State.setFirstPartOffset_argLen : s.setFirstPartOffset.argLen = s.argLen := rfl
@[simp] theorem State.setFirstPartOffset_argNull : s.setFirstPartOffset.argNull = s.argNull := rfl
@[simp] theorem State.setFirstPartOffset_bd : s.setFirstPartOffset.bd = s.bd := rfl
@[simp] theorem State.setFirstPartOffset_result : s.setFirstPartOffset.result = s.result := rfl
@[simp] theorem State.setFirstPartOffset_fhrValid : s.setFirstPartOffset.fhrValid = s.fhrValid := rfl
@[simp] theorem State.setFirstPartOffset_res : s.setFirstPartOffset.res = s.res := rfl
@[simp] theorem State.setFirstPartOffset_posByte : s.setFirstPartOffset.posByte = s.posByte := rfl
@[simp] theorem State.setFirstPartOffset_posBit : s.setFirstPartOffset.posBit = s.posBit := rfl
@[simp] theorem State.setFirstPartOffset_fhr : s.setFirstPartOffset.fhr =
    { s.fhr with firstPartOffset := s.fh.bytepos.toNat } := rfl
@[simp] theorem State.setFirstPartOffset_pt : s.setFirstPartOffset.pt = s.pt := rfl
@[simp] theorem State.setFirstPartOffset_pcs : s.setFirstPartOffset.pcs = s.pcs := rfl
@[simp] theorem State.setFirstPartOffset_pcsSnap : s.setFirstPartOffset.pcsSnap = s.pcsSnap := rfl
@[simp] theorem State.setFirstPartOffset_w : s.setFirstPartOffset.w = s.w := rfl
@[simp] theorem State.setFirstPartOffset_fh : s.setFirstPartOffset.fh = s.fh := rfl
@[simp] theorem State.setFirstPartOffset_cfg : s.setFirstPartOffset.cfg = s.cfg := rfl
@[simp] theorem State.setFirstPartOffset_draws : s.setFirstPartOffset.draws = s.draws := rfl
@[simp] theorem State.setFirstPartOffset_pending : s.setFirstPartOffset.pending = s.pending := rfl

end setFirstPartOffset

section openFirstPart

variable (s : State)

@[simp] theorem State.openFirstPart_fb : s.openFirstPart.fb = s.fb := rfl
@[simp] theorem State.openFirstPart_argBase : s.openFirstPart.argBase = s.argBase := rfl
@[simp] theorem State.openFirstPart_argLen : s.openFirstPart.argLen = s.argLen := rfl
@[simp] theorem State.openFirstPart_argNull : s.openFirstPart.argNull = s.argNull := rfl
@[simp] theorem State.openFirstPart_bd : s.openFirstPart.bd =
    Bd.construct s.fb (s.argBase + BitVec.ofNat addrWidth s.fhr.firstPartOffset)
    (s.fhr.firstPartSize.setWidth addrWidth) := rfl
@[simp] theorem State.openFirstPart_result : s.openFirstPart.result = s.result := rfl
@[simp] theorem State.openFirstPart_fhrValid : s.openFirstPart.fhrValid = s.fhrValid := rfl
@[simp] theorem State.openFirstPart_res : s.openFirstPart.res = s.res := rfl
@[simp] theorem State.openFirstPart_posByte : s.openFirstPart.posByte = s.posByte := rfl
@[simp] theorem State.openFirstPart_posBit : s.openFirstPart.posBit = s.posBit := rfl
@[simp] theorem State.openFirstPart_fhr : s.openFirstPart.fhr = s.fhr := rfl
@[simp] theorem State.openFirstPart_pt : s.openFirstPart.pt = s.pt := rfl
@[simp] theorem State.openFirstPart_pcs : s.openFirstPart.pcs = s.pcs := rfl
@[simp] theorem State.openFirstPart_pcsSnap : s.openFirstPart.pcsSnap = s.pcsSnap := rfl
@[simp] theorem State.openFirstPart_w : s.openFirstPart.w = s.pcs.entropy := rfl
@[simp] theorem State.openFirstPart_fh : s.openFirstPart.fh = s.fh := rfl
@[simp] theorem State.openFirstPart_cfg : s.openFirstPart.cfg = s.cfg := rfl
@[simp] theorem State.openFirstPart_draws : s.openFirstPart.draws = s.draws := rfl
@[simp] theorem State.openFirstPart_pending : s.openFirstPart.pending = s.pending := rfl

end openFirstPart

section setBd

variable (d : Bd) (s : State)

@[simp] theorem State.setBd_fb : (s.setBd d).fb = s.fb := rfl
@[simp] theorem State.setBd_argBase : (s.setBd d).argBase = s.argBase := rfl
@[simp] theorem State.setBd_argLen : (s.setBd d).argLen = s.argLen := rfl
@[simp] theorem State.setBd_argNull : (s.setBd d).argNull = s.argNull := rfl
@[simp] theorem State.setBd_bd : (s.setBd d).bd = d := rfl
@[simp] theorem State.setBd_result : (s.setBd d).result = s.result := rfl
@[simp] theorem State.setBd_fhrValid : (s.setBd d).fhrValid = s.fhrValid := rfl
@[simp] theorem State.setBd_res : (s.setBd d).res = s.res := rfl
@[simp] theorem State.setBd_posByte : (s.setBd d).posByte = s.posByte := rfl
@[simp] theorem State.setBd_posBit : (s.setBd d).posBit = s.posBit := rfl
@[simp] theorem State.setBd_fhr : (s.setBd d).fhr = s.fhr := rfl
@[simp] theorem State.setBd_pt : (s.setBd d).pt = s.pt := rfl
@[simp] theorem State.setBd_pcs : (s.setBd d).pcs = s.pcs := rfl
@[simp] theorem State.setBd_pcsSnap : (s.setBd d).pcsSnap = s.pcsSnap := rfl
@[simp] theorem State.setBd_w : (s.setBd d).w = s.w := rfl
@[simp] theorem State.setBd_fh : (s.setBd d).fh = s.fh := rfl
@[simp] theorem State.setBd_cfg : (s.setBd d).cfg = s.cfg := rfl
@[simp] theorem State.setBd_draws : (s.setBd d).draws = s.draws := rfl
@[simp] theorem State.setBd_pending : (s.setBd d).pending = s.pending := rfl

end setBd

section setColor

variable (r : Bool × Bool) (s : State)

@[simp] theorem State.setColor_fb : (s.setColor r).fb = s.fb := rfl
@[simp] theorem State.setColor_argBase : (s.setColor r).argBase = s.argBase := rfl
@[simp] theorem State.setColor_argLen : (s.setColor r).argLen = s.argLen := rfl
@[simp] theorem State.setColor_argNull : (s.setColor r).argNull = s.argNull := rfl
@[simp] theorem State.setColor_bd : (s.setColor r).bd = s.bd := rfl
@[simp] theorem State.setColor_result : (s.setColor r).result = s.result := rfl
@[simp] theorem State.setColor_fhrValid : (s.setColor r).fhrValid = s.fhrValid := rfl
@[simp] theorem State.setColor_res : (s.setColor r).res = s.res := rfl
@[simp] theorem State.setColor_posByte : (s.setColor r).posByte = s.posByte := rfl
@[simp] theorem State.setColor_posBit : (s.setColor r).posBit = s.posBit := rfl
@[simp] theorem State.setColor_fhr : (s.setColor r).fhr = { s.fhr with colorSpace := r.1, clampingType := r.2 } := rfl
@[simp] theorem State.setColor_pt : (s.setColor r).pt = s.pt := rfl
@[simp] theorem State.setColor_pcs : (s.setColor r).pcs = s.pcs := rfl
@[simp] theorem State.setColor_pcsSnap : (s.setColor r).pcsSnap = s.pcsSnap := rfl
@[simp] theorem State.setColor_w : (s.setColor r).w = s.w := rfl
@[simp] theorem State.setColor_fh : (s.setColor r).fh = s.fh := rfl
@[simp] theorem State.setColor_cfg : (s.setColor r).cfg = s.cfg := rfl
@[simp] theorem State.setColor_draws : (s.setColor r).draws = s.draws := rfl
@[simp] theorem State.setColor_pending : (s.setColor r).pending = s.pending := rfl

end setColor

section setSegmentation

variable (r : Seg × Bool × Bool) (s : State)

@[simp] theorem State.setSegmentation_fb : (s.setSegmentation r).fb = s.fb := rfl
@[simp] theorem State.setSegmentation_argBase : (s.setSegmentation r).argBase = s.argBase := rfl
@[simp] theorem State.setSegmentation_argLen : (s.setSegmentation r).argLen = s.argLen := rfl
@[simp] theorem State.setSegmentation_argNull : (s.setSegmentation r).argNull = s.argNull := rfl
@[simp] theorem State.setSegmentation_bd : (s.setSegmentation r).bd = s.bd := rfl
@[simp] theorem State.setSegmentation_result : (s.setSegmentation r).result = s.result := rfl
@[simp] theorem State.setSegmentation_fhrValid : (s.setSegmentation r).fhrValid = s.fhrValid := rfl
@[simp] theorem State.setSegmentation_res : (s.setSegmentation r).res = s.res := rfl
@[simp] theorem State.setSegmentation_posByte : (s.setSegmentation r).posByte = s.posByte := rfl
@[simp] theorem State.setSegmentation_posBit : (s.setSegmentation r).posBit = s.posBit := rfl
@[simp] theorem State.setSegmentation_fhr : (s.setSegmentation r).fhr =
    { s.fhr with updateMbSegmentationMap := r.2.1, updateSegmentFeatureData := r.2.2 } := rfl
@[simp] theorem State.setSegmentation_pt : (s.setSegmentation r).pt = s.pt := rfl
@[simp] theorem State.setSegmentation_pcs : (s.setSegmentation r).pcs = { s.pcs with seg := r.1 } := rfl
@[simp] theorem State.setSegmentation_pcsSnap : (s.setSegmentation r).pcsSnap = s.pcsSnap := rfl
@[simp] theorem State.setSegmentation_w : (s.setSegmentation r).w = s.w := rfl
@[simp] theorem State.setSegmentation_fh : (s.setSegmentation r).fh = s.fh := rfl
@[simp] theorem State.setSegmentation_cfg : (s.setSegmentation r).cfg = s.cfg := rfl
@[simp] theorem State.setSegmentation_draws : (s.setSegmentation r).draws = s.draws := rfl
@[simp] theorem State.setSegmentation_pending : (s.setSegmentation r).pending = s.pending := rfl

end setSegmentation

section setLoopFilter

variable (r : LoopFilter × Bool) (s : State)

@[simp] theorem State.setLoopFilter_fb : (s.setLoopFilter r).fb = s.fb := rfl
@[simp] theorem State.setLoopFilter_argBase : (s.setLoopFilter r).argBase = s.argBase := rfl
@[simp] theorem State.setLoopFilter_argLen : (s.setLoopFilter r).argLen = s.argLen := rfl
@[simp] theorem State.setLoopFilter_argNull : (s.setLoopFilter r).argNull = s.argNull := rfl
@[simp] theorem State.setLoopFilter_bd : (s.setLoopFilter r).bd = s.bd := rfl
@[simp] theorem State.setLoopFilter_result : (s.setLoopFilter r).result = s.result := rfl
@[simp] theorem State.setLoopFilter_fhrValid : (s.setLoopFilter r).fhrValid = s.fhrValid := rfl
@[simp] theorem State.setLoopFilter_res : (s.setLoopFilter r).res = s.res := rfl
@[simp] theorem State.setLoopFilter_posByte : (s.setLoopFilter r).posByte = s.posByte := rfl
@[simp] theorem State.setLoopFilter_posBit : (s.setLoopFilter r).posBit = s.posBit := rfl
@[simp] theorem State.setLoopFilter_fhr : (s.setLoopFilter r).fhr = { s.fhr with lfDeltaUpdate := r.2 } := rfl
@[simp] theorem State.setLoopFilter_pt : (s.setLoopFilter r).pt = s.pt := rfl
@[simp] theorem State.setLoopFilter_pcs : (s.setLoopFilter r).pcs = { s.pcs with lf := r.1 } := rfl
@[simp] theorem State.setLoopFilter_pcsSnap : (s.setLoopFilter r).pcsSnap = s.pcsSnap := rfl
@[simp] theorem State.setLoopFilter_w : (s.setLoopFilter r).w = s.w := rfl
@[simp] theorem State.setLoopFilter_fh : (s.setLoopFilter r).fh = s.fh := rfl
@[simp] theorem State.setLoopFilter_cfg : (s.setLoopFilter r).cfg = s.cfg := rfl
@[simp] theorem State.setLoopFilter_draws : (s.setLoopFilter r).draws = s.draws := rfl
@[simp] theorem State.setLoopFilter_pending : (s.setLoopFilter r).pending = s.pending := rfl

end setLoopFilter

section setPartCount

variable (v : Nat) (s : State)

@[simp] theorem State.setPartCount_fb : (s.setPartCount v).fb = s.fb := rfl
@[simp] theorem State.setPartCount_argBase : (s.setPartCount v).argBase = s.argBase := rfl
@[simp] theorem State.setPartCount_argLen : (s.setPartCount v).argLen = s.argLen := rfl
@[simp] theorem State.setPartCount_argNull : (s.setPartCount v).argNull = s.argNull := rfl
@[simp] theorem State.setPartCount_bd : (s.setPartCount v).bd = s.bd := rfl
@[simp] theorem State.setPartCount_result : (s.setPartCount v).result = s.result := rfl
@[simp] theorem State.setPartCount_fhrValid : (s.setPartCount v).fhrValid = s.fhrValid := rfl
@[simp] theorem State.setPartCount_res : (s.setPartCount v).res = s.res := rfl
@[simp] theorem State.setPartCount_posByte : (s.setPartCount v).posByte = s.posByte := rfl
@[simp] theorem State.setPartCount_posBit : (s.setPartCount v).posBit = s.posBit := rfl
@[simp] theorem State.setPartCount_fhr : (s.setPartCount v).fhr =
    { s.fhr with numOfDctPartitions := BitVec.ofNat 4 (1 <<< v) } := rfl
@[simp] theorem State.setPartCount_pt : (s.setPartCount v).pt = s.pt := rfl
@[simp] theorem State.setPartCount_pcs : (s.setPartCount v).pcs = s.pcs := rfl
@[simp] theorem State.setPartCount_pcsSnap : (s.setPartCount v).pcsSnap = s.pcsSnap := rfl
@[simp] theorem State.setPartCount_w : (s.setPartCount v).w = s.w := rfl
@[simp] theorem State.setPartCount_fh : (s.setPartCount v).fh = s.fh := rfl
@[simp] theorem State.setPartCount_cfg : (s.setPartCount v).cfg = s.cfg := rfl
@[simp] theorem State.setPartCount_draws : (s.setPartCount v).draws = s.draws := rfl
@[simp] theorem State.setPartCount_pending : (s.setPartCount v).pending = s.pending := rfl

end setPartCount

section setQuant

variable (q : Quant) (s : State)

@[simp] theorem State.setQuant_fb : (s.setQuant q).fb = s.fb := rfl
@[simp] theorem State.setQuant_argBase : (s.setQuant q).argBase = s.argBase := rfl
@[simp] theorem State.setQuant_argLen : (s.setQuant q).argLen = s.argLen := rfl
@[simp] theorem State.setQuant_argNull : (s.setQuant q).argNull = s.argNull := rfl
@[simp] theorem State.setQuant_bd : (s.setQuant q).bd = s.bd := rfl
@[simp] theorem State.setQuant_result : (s.setQuant q).result = s.result := rfl
@[simp] theorem State.setQuant_fhrValid : (s.setQuant q).fhrValid = s.fhrValid := rfl
@[simp] theorem State.setQuant_res : (s.setQuant q).res = s.res := rfl
@[simp] theorem State.setQuant_posByte : (s.setQuant q).posByte = s.posByte := rfl
@[simp] theorem State.setQuant_posBit : (s.setQuant q).posBit = s.posBit := rfl
@[simp] theorem State.setQuant_fhr : (s.setQuant q).fhr = { s.fhr with quant := q } := rfl
@[simp] theorem State.setQuant_pt : (s.setQuant q).pt = s.pt := rfl
@[simp] theorem State.setQuant_pcs : (s.setQuant q).pcs = s.pcs := rfl
@[simp] theorem State.setQuant_pcsSnap : (s.setQuant q).pcsSnap = s.pcsSnap := rfl
@[simp] theorem State.setQuant_w : (s.setQuant q).w = s.w := rfl
@[simp] theorem State.setQuant_fh : (s.setQuant q).fh = s.fh := rfl
@[simp] theorem State.setQuant_cfg : (s.setQuant q).cfg = s.cfg := rfl
@[simp] theorem State.setQuant_draws : (s.setQuant q).draws = s.draws := rfl
@[simp] theorem State.setQuant_pending : (s.setQuant q).pending = s.pending := rfl

end setQuant

section setRefresh

variable (r : Refresh × Bool × Bool) (s : State)

@[simp] theorem State.setRefresh_fb : (s.setRefresh r).fb = s.fb := rfl
@[simp] theorem State.setRefresh_argBase : (s.setRefresh r).argBase = s.argBase := rfl
@[simp] theorem State.setRefresh_argLen : (s.setRefresh r).argLen = s.argLen := rfl
@[simp] theorem State.setRefresh_argNull : (s.setRefresh r).argNull = s.argNull := rfl
@[simp] theorem State.setRefresh_bd : (s.setRefresh r).bd = s.bd := rfl
@[simp] theorem State.setRefresh_result : (s.setRefresh r).result = s.result := rfl
@[simp] theorem State.setRefresh_fhrValid : (s.setRefresh r).fhrValid = s.fhrValid := rfl
@[simp] theorem State.setRefresh_res : (s.setRefresh r).res = s.res := rfl
@[simp] theorem State.setRefresh_posByte : (s.setRefresh r).posByte = s.posByte := rfl
@[simp] theorem State.setRefresh_posBit : (s.setRefresh r).posBit = s.posBit := rfl
@[simp] theorem State.setRefresh_fhr : (s.setRefresh r).fhr =
    { s.fhr with refresh := r.1, refreshEntropyProbs := r.2.1, refreshLast := r.2.2 } := rfl
@[simp] theorem State.setRefresh_pt : (s.setRefresh r).pt = s.pt := rfl
@[simp] theorem State.setRefresh_pcs : (s.setRefresh r).pcs = s.pcs := rfl
@[simp] theorem State.setRefresh_pcsSnap : (s.setRefresh r).pcsSnap = s.pcsSnap := rfl
@[simp] theorem State.setRefresh_w : (s.setRefresh r).w = s.w := rfl
@[simp] theorem State.setRefresh_fh : (s.setRefresh r).fh = s.fh := rfl
@[simp] theorem State.setRefresh_cfg : (s.setRefresh r).cfg = s.cfg := rfl
@[simp] theorem State.setRefresh_draws : (s.setRefresh r).draws = s.draws := rfl
@[simp] theorem State.setRefresh_pending : (s.setRefresh r).pending = s.pending := rfl

end setRefresh

section setTokenProbs

variable (t : CoeffTable) (s : State)

@[simp] theorem State.setTokenProbs_fb : (s.setTokenProbs t).fb = s.fb := rfl
@[simp] theorem State.setTokenProbs_argBase : (s.setTokenProbs t).argBase = s.argBase := rfl
@[simp] theorem State.setTokenProbs_argLen : (s.setTokenProbs t).argLen = s.argLen := rfl
@[simp] theorem State.setTokenProbs_argNull : (s.setTokenProbs t).argNull = s.argNull := rfl
@[simp] theorem State.setTokenProbs_bd : (s.setTokenProbs t).bd = s.bd := rfl
@[simp] theorem State.setTokenProbs_result : (s.setTokenProbs t).result = s.result := rfl
@[simp] theorem State.setTokenProbs_fhrValid : (s.setTokenProbs t).fhrValid = s.fhrValid := rfl
@[simp] theorem State.setTokenProbs_res : (s.setTokenProbs t).res = s.res := rfl
@[simp] theorem State.setTokenProbs_posByte : (s.setTokenProbs t).posByte = s.posByte := rfl
@[simp] theorem State.setTokenProbs_posBit : (s.setTokenProbs t).posBit = s.posBit := rfl
@[simp] theorem State.setTokenProbs_fhr : (s.setTokenProbs t).fhr = s.fhr := rfl
@[simp] theorem State.setTokenProbs_pt : (s.setTokenProbs t).pt = s.pt := rfl
@[simp] theorem State.setTokenProbs_pcs : (s.setTokenProbs t).pcs = s.pcs := rfl
@[simp] theorem State.setTokenProbs_pcsSnap : (s.setTokenProbs t).pcsSnap = s.pcsSnap := rfl
@[simp] theorem State.setTokenProbs_w : (s.setTokenProbs t).w = { s.w with coeff := t } := rfl
@[simp] theorem State.setTokenProbs_fh : (s.setTokenProbs t).fh = s.fh := rfl
@[simp] theorem State.setTokenProbs_cfg : (s.setTokenProbs t).cfg = s.cfg := rfl
@[simp] theorem State.setTokenProbs_draws : (s.setTokenProbs t).draws = s.draws := rfl
@[simp] theorem State.setTokenProbs_pending : (s.setTokenProbs t).pending = s.pending := rfl

end setTokenProbs

section setSkip

variable (r : Bool × Prob) (s : State)

@[simp] theorem State.setSkip_fb : (s.setSkip r).fb = s.fb := rfl
@[simp] theorem State.setSkip_argBase : (s.setSkip r).argBase = s.argBase := rfl
@[simp] theorem State.setSkip_argLen : (s.setSkip r).argLen = s.argLen := rfl
@[simp] theorem State.setSkip_argNull : (s.setSkip r).argNull = s.argNull := rfl
@[simp] theorem State.setSkip_bd : (s.setSkip r).bd = s.bd := rfl
@[simp] theorem State.setSkip_result : (s.setSkip r).result = s.result := rfl
@[simp] theorem State.setSkip_fhrValid : (s.setSkip r).fhrValid = s.fhrValid := rfl
@[simp] theorem State.setSkip_res : (s.setSkip r).res = s.res := rfl
@[simp] theorem State.setSkip_posByte : (s.setSkip r).posByte = s.posByte := rfl
@[simp] theorem State.setSkip_posBit : (s.setSkip r).posBit = s.posBit := rfl
@[simp] theorem State.setSkip_fhr : (s.setSkip r).fhr =
    { s.fhr with mbNoSkipCoeff := r.1, probSkipFalse := r.2 } := rfl
@[simp] theorem State.setSkip_pt : (s.setSkip r).pt = s.pt := rfl
@[simp] theorem State.setSkip_pcs : (s.setSkip r).pcs = s.pcs := rfl
@[simp] theorem State.setSkip_pcsSnap : (s.setSkip r).pcsSnap = s.pcsSnap := rfl
@[simp] theorem State.setSkip_w : (s.setSkip r).w = s.w := rfl
@[simp] theorem State.setSkip_fh : (s.setSkip r).fh = s.fh := rfl
@[simp] theorem State.setSkip_cfg : (s.setSkip r).cfg = s.cfg := rfl
@[simp] theorem State.setSkip_draws : (s.setSkip r).draws = s.draws := rfl
@[simp] theorem State.setSkip_pending : (s.setSkip r).pending = s.pending := rfl

end setSkip

section setInterProbs

variable (r : Prob × Prob × Prob) (s : State)

@[simp] theorem State.setInterProbs_fb : (s.setInterProbs r).fb = s.fb := rfl
@[simp] theorem State.setInterProbs_argBase : (s.setInterProbs r).argBase = s.argBase := rfl
@[simp] theorem State.setInterProbs_argLen : (s.setInterProbs r).argLen = s.argLen := rfl
@[simp] theorem State.setInterProbs_argNull : (s.setInterProbs r).argNull = s.argNull := rfl
@[simp] theorem State.setInterProbs_bd : (s.setInterProbs r).bd = s.bd := rfl
@[simp] theorem State.setInterProbs_result : (s.setInterProbs r).result = s.result := rfl
@[simp] theorem State.setInterProbs_fhrValid : (s.setInterProbs r).fhrValid = s.fhrValid := rfl
@[simp] theorem State.setInterProbs_res : (s.setInterProbs r).res = s.res := rfl
@[simp] theorem State.setInterProbs_posByte : (s.setInterProbs r).posByte = s.posByte := rfl
@[simp] theorem State.setInterProbs_posBit : (s.setInterProbs r).posBit = s.posBit := rfl
@[simp] theorem State.setInterProbs_fhr : (s.setInterProbs r).fhr =
    { s.fhr with probIntra := r.1, probLast := r.2.1, probGf := r.2.2 } := rfl
@[simp] theorem State.setInterProbs_pt : (s.setInterProbs r).pt = s.pt := rfl
@[simp] theorem State.setInterProbs_pcs : (s.setInterProbs r).pcs = s.pcs := rfl
@[simp] theorem State.setInterProbs_pcsSnap : (s.setInterProbs r).pcsSnap = s.pcsSnap := rfl
@[simp] theorem State.setInterProbs_w : (s.setInterProbs r).w = s.w := rfl
@[simp] theorem State.setInterProbs_fh : (s.setInterProbs r).fh = s.fh := rfl
@[simp] theorem State.setInterProbs_cfg : (s.setInterProbs r).cfg = s.cfg := rfl
@[simp] theorem State.setInterProbs_draws : (s.setInterProbs r).draws = s.draws := rfl
@[simp] theorem State.setInterProbs_pending : (s.setInterProbs r).pending = s.pending := rfl

end setInterProbs

section setIntraProbs

variable (r : Vector Prob 4 × Vector Prob 3) (s : State)

@[simp] theorem State.setIntraProbs_fb : (s.setIntraProbs r).fb = s.fb := rfl
@[simp] theorem State.setIntraProbs_argBase : (s.setIntraProbs r).argBase = s.argBase := rfl
@[simp] theorem State.setIntraProbs_argLen : (s.setIntraProbs r).argLen = s.argLen := rfl
@[simp] theorem State.setIntraProbs_argNull : (s.setIntraProbs r).argNull = s.argNull := rfl
@[simp] theorem State.setIntraProbs_bd : (s.setIntraProbs r).bd = s.bd := rfl
@[simp] theorem State.setIntraProbs_result : (s.setIntraProbs r).result = s.result := rfl
@[simp] theorem State.setIntraProbs_fhrValid : (s.setIntraProbs r).fhrValid = s.fhrValid := rfl
@[simp] theorem State.setIntraProbs_res : (s.setIntraProbs r).res = s.res := rfl
@[simp] theorem State.setIntraProbs_posByte : (s.setIntraProbs r).posByte = s.posByte := rfl
@[simp] theorem State.setIntraProbs_posBit : (s.setIntraProbs r).posBit = s.posBit := rfl
@[simp] theorem State.setIntraProbs_fhr : (s.setIntraProbs r).fhr = s.fhr := rfl
@[simp] theorem State.setIntraProbs_pt : (s.setIntraProbs r).pt = s.pt := rfl
@[simp] theorem State.setIntraProbs_pcs : (s.setIntraProbs r).pcs = s.pcs := rfl
@[simp] theorem State.setIntraProbs_pcsSnap : (s.setIntraProbs r).pcsSnap = s.pcsSnap := rfl
@[simp] theorem State.setIntraProbs_w : (s.setIntraProbs r).w = { s.w with ymode := r.1, uvmode := r.2 } := rfl
@[simp] theorem State.setIntraProbs_fh : (s.setIntraProbs r).fh = s.fh := rfl
@[simp] theorem State.setIntraProbs_cfg : (s.setIntraProbs r).cfg = s.cfg := rfl
@[simp] theorem State.setIntraProbs_draws : (s.setIntraProbs r).draws = s.draws := rfl
@[simp] theorem State.setIntraProbs_pending : (s.setIntraProbs r).pending = s.pending := rfl

end setIntraProbs

section setMvProbs

variable (t : MvTable) (s : State)

@[simp] theorem State.setMvProbs_fb : (s.setMvProbs t).fb = s.fb := rfl
@[simp] theorem State.setMvProbs_argBase : (s.setMvProbs t).argBase = s.argBase := rfl
@[simp] theorem State.setMvProbs_argLen : (s.setMvProbs t).argLen = s.argLen := rfl
@[simp] theorem State.setMvProbs_argNull : (s.setMvProbs t).argNull = s.argNull := rfl
@[simp] theorem State.setMvProbs_bd : (s.setMvProbs t).bd = s.bd := rfl
@[simp] theorem State.setMvProbs_result : (s.setMvProbs t).result = s.result := rfl
@[simp] theorem State.setMvProbs_fhrValid : (s.setMvProbs t).fhrValid = s.fhrValid := rfl
@[simp] theorem State.setMvProbs_res : (s.setMvProbs t).res = s.res := rfl
@[simp] theorem State.setMvProbs_posByte : (s.setMvProbs t).posByte = s.posByte := rfl
@[simp] theorem State.setMvProbs_posBit : (s.setMvProbs t).posBit = s.posBit := rfl
@[simp] theorem State.setMvProbs_fhr : (s.setMvProbs t).fhr = s.fhr := rfl
@[simp] theorem State.setMvProbs_pt : (s.setMvProbs t).pt = s.pt := rfl
@[simp] theorem State.setMvProbs_pcs : (s.setMvProbs t).pcs = s.pcs := rfl
@[simp] theorem State.setMvProbs_pcsSnap : (s.setMvProbs t).pcsSnap = s.pcsSnap := rfl
@[simp] theorem State.setMvProbs_w : (s.setMvProbs t).w = { s.w with mv := t } := rfl
@[simp] theorem State.setMvProbs_fh : (s.setMvProbs t).fh = s.fh := rfl
@[simp] theorem State.setMvProbs_cfg : (s.setMvProbs t).cfg = s.cfg := rfl
@[simp] theorem State.setMvProbs_draws : (s.setMvProbs t).draws = s.draws := rfl
@[simp] theorem State.setMvProbs_pending : (s.setMvProbs t).pending = s.pending := rfl

end setMvProbs

section enterPartitions

variable (s : State)

@[simp] theorem State.enterPartitions_fb : s.enterPartitions.fb = s.fb := rfl
@[simp] theorem State.enterPartitions_argBase : s.enterPartitions.argBase = s.argBase := rfl
@[simp] theorem State.enterPartitions_argLen : s.enterPartitions.argLen = s.argLen := rfl
@[simp] theorem State.enterPartitions_argNull : s.enterPartitions.argNull = s.argNull := rfl
@[simp] theorem State.enterPartitions_bd : s.enterPartitions.bd = s.bd := rfl
@[simp] theorem State.enterPartitions_result : s.enterPartitions.result = s.result := rfl
@[simp] theorem State.enterPartitions_fhrValid : s.enterPartitions.fhrValid = s.fhrValid := rfl
@[simp] theorem State.enterPartitions_res : s.enterPartitions.res = s.res := rfl
@[simp] theorem State.enterPartitions_posByte : s.enterPartitions.posByte = s.posByte := rfl
@[simp] theorem State.enterPartitions_posBit : s.enterPartitions.posBit = s.posBit := rfl
@[simp] theorem State.enterPartitions_fhr : s.enterPartitions.fhr = s.fhr := rfl
@[simp] theorem State.enterPartitions_pt : s.enterPartitions.pt = s.pt := rfl
@[simp] theorem State.enterPartitions_pcs : s.enterPartitions.pcs = s.pcs := rfl
@[simp] theorem State.enterPartitions_pcsSnap : s.enterPartitions.pcsSnap = s.pcsSnap := rfl
@[simp] theorem State.enterPartitions_w : s.enterPartitions.w = s.w := rfl
@[simp] theorem State.enterPartitions_fh : s.enterPartitions.fh =
    { phase := .s8, bytepos := BitVec.ofNat addrWidth s.fhr.firstPartEnd } := rfl
@[simp] theorem State.enterPartitions_cfg : s.enterPartitions.cfg = s.cfg := rfl
@[simp] theorem State.enterPartitions_draws : s.enterPartitions.draws = s.draws := rfl
@[simp] theorem State.enterPartitions_pending : s.enterPartitions.pending = s.pending := rfl

end enterPartitions

section setPt

variable (p : Pt) (s : State)

@[simp] theorem State.setPt_fb : (s.setPt p).fb = s.fb := rfl
@[simp] theorem State.setPt_argBase : (s.setPt p).argBase = s.argBase := rfl
@[simp] theorem State.setPt_argLen : (s.setPt p).argLen = s.argLen := rfl
@[simp] theorem State.setPt_argNull : (s.setPt p).argNull = s.argNull := rfl
@[simp] theorem State.setPt_bd : (s.setPt p).bd = s.bd := rfl
@[simp] theorem State.setPt_result : (s.setPt p).result = s.result := rfl
@[simp] theorem State.setPt_fhrValid : (s.setPt p).fhrValid = s.fhrValid := rfl
@[simp] theorem State.setPt_res : (s.setPt p).res = s.res := rfl
@[simp] theorem State.setPt_posByte : (s.setPt p).posByte = s.posByte := rfl
@[simp] theorem State.setPt_posBit : (s.setPt p).posBit = s.posBit := rfl
@[simp] theorem State.setPt_fhr : (s.setPt p).fhr = s.fhr := rfl
@[simp] theorem State.setPt_pt : (s.setPt p).pt = p := rfl
@[simp] theorem State.setPt_pcs : (s.setPt p).pcs = s.pcs := rfl
@[simp] theorem State.setPt_pcsSnap : (s.setPt p).pcsSnap = s.pcsSnap := rfl
@[simp] theorem State.setPt_w : (s.setPt p).w = s.w := rfl
@[simp] theorem State.setPt_fh : (s.setPt p).fh = s.fh := rfl
@[simp] theorem State.setPt_cfg : (s.setPt p).cfg = s.cfg := rfl
@[simp] theorem State.setPt_draws : (s.setPt p).draws = s.draws := rfl
@[simp] theorem State.setPt_pending : (s.setPt p).pending = s.pending := rfl

end setPt

section commit

variable (s : State)

@[simp] theorem State.commit_fb : s.commit.fb = s.fb := rfl
@[simp] theorem State.commit_argBase : s.commit.argBase = s.argBase := rfl
@[simp] theorem State.commit_argLen : s.commit.argLen = s.argLen := rfl
@[simp] theorem State.commit_argNull : s.commit.argNull = s.argNull := rfl
@[simp] theorem State.commit_bd : s.commit.bd = closedBd s.draws := rfl
@[simp] theorem State.commit_result : s.commit.result = .ok := rfl
@[simp] theorem State.commit_fhrValid : s.commit.fhrValid = true := rfl
@[simp] theorem State.commit_res : s.commit.res = s.res := rfl
@[simp] theorem State.commit_posByte : s.commit.posByte = s.posByte := rfl
@[simp] theorem State.commit_posBit : s.commit.posBit = s.posBit := rfl
@[simp] theorem State.commit_fhr : s.commit.fhr =
    { s.fhr with seg := s.pcs.seg, lf := s.pcs.lf, entropy := s.w } := rfl
@[simp] theorem State.commit_pt : s.commit.pt = s.pt := rfl
@[simp] theorem State.commit_pcs : s.commit.pcs =
    { s.pcs with entropy := if s.fhr.refreshEntropyProbs then s.w else s.pcs.entropy } := rfl
@[simp] theorem State.commit_pcsSnap : s.commit.pcsSnap = s.pcsSnap := rfl
@[simp] theorem State.commit_w : s.commit.w = s.w := rfl
@[simp] theorem State.commit_fh : s.commit.fh = { s.fh with phase := .idle } := rfl
@[simp] theorem State.commit_cfg : s.commit.cfg = s.cfg := rfl
@[simp] theorem State.commit_draws : s.commit.draws = s.draws + 1 := rfl
@[simp] theorem State.commit_pending : s.commit.pending = s.pending := rfl

end commit

section outputsAny

variable (s : State)

@[simp] theorem State.outputsAny_fb : s.outputsAny.fb = s.fb := rfl
@[simp] theorem State.outputsAny_argBase : s.outputsAny.argBase = s.argBase := rfl
@[simp] theorem State.outputsAny_argLen : s.outputsAny.argLen = s.argLen := rfl
@[simp] theorem State.outputsAny_argNull : s.outputsAny.argNull = s.argNull := rfl
@[simp] theorem State.outputsAny_bd : s.outputsAny.bd = s.bd := rfl
@[simp] theorem State.outputsAny_result : s.outputsAny.result = s.result := rfl
@[simp] theorem State.outputsAny_fhrValid : s.outputsAny.fhrValid = false := rfl
@[simp] theorem State.outputsAny_res : s.outputsAny.res = s.res := rfl
@[simp] theorem State.outputsAny_posByte : s.outputsAny.posByte = Config.freePosByte s.draws := rfl
@[simp] theorem State.outputsAny_posBit : s.outputsAny.posBit = Config.freePosBit s.draws := rfl
@[simp] theorem State.outputsAny_fhr : s.outputsAny.fhr = (Config.freeFhr s.draws).hold s.cfg := rfl
@[simp] theorem State.outputsAny_pt : s.outputsAny.pt = Config.freePt s.draws := rfl
@[simp] theorem State.outputsAny_pcs : s.outputsAny.pcs = s.pcs := rfl
@[simp] theorem State.outputsAny_pcsSnap : s.outputsAny.pcsSnap = s.pcsSnap := rfl
@[simp] theorem State.outputsAny_w : s.outputsAny.w = s.w := rfl
@[simp] theorem State.outputsAny_fh : s.outputsAny.fh = { s.fh with phase := .idle } := rfl
@[simp] theorem State.outputsAny_cfg : s.outputsAny.cfg = s.cfg := rfl
@[simp] theorem State.outputsAny_draws : s.outputsAny.draws = s.draws + 1 := rfl
@[simp] theorem State.outputsAny_pending : s.outputsAny.pending = s.pending := rfl

end outputsAny

/-! ### Widths -/

theorem holdInt_fits (w : Nat) (x : Int) : -(2 : Int) ^ w ≤ holdInt w x ∧ holdInt w x < 2 ^ w := by
  rw [holdInt]
  split
  · assumption
  · have := Int.pow_pos (n := 2) (m := w) (by decide)
    omega

theorem heldTo_map_holdInt {n : Nat} (w : Nat) (v : Vector Int n) : heldTo w (v.map (holdInt w)) := by
  intro i
  simpa using holdInt_fits w v[i]

/-- What a signed literal of `w` magnitude bits gives fits (40_bd_commands R117). -/
theorem fits_of_natAbs_lt {w : Nat} {x : Int} (h : x.natAbs < 2 ^ w) : -(2 : Int) ^ w ≤ x ∧ x < 2 ^ w := by
  have : (x.natAbs : Int) < 2 ^ w := by exact_mod_cast h
  omega

theorem Seg.hold_within (c : Params) (g : Seg) : (g.hold c).Within c :=
  ⟨heldTo_map_holdInt _ _, heldTo_map_holdInt _ _⟩

theorem LoopFilter.hold_within (c : Params) (f : LoopFilter) : (f.hold c).Within c :=
  ⟨Nat.mod_lt _ (Nat.two_pow_pos _), heldTo_map_holdInt _ _, heldTo_map_holdInt _ _⟩

theorem Pcs.hold_within (c : Params) (p : Pcs) : (p.hold c).Within c := ⟨p.seg.hold_within c, p.lf.hold_within c⟩

theorem Fhr.hold_within (c : Params) (h : Fhr) : (h.hold c).Within c :=
  ⟨h.seg.hold_within c, h.lf.hold_within c, heldTo_map_holdInt _ _⟩

section parseSegmentation

variable (s : State)

@[simp] theorem parseSegmentation_fb : (parseSegmentation s).fb = s.fb := by
  simp only [parseSegmentation, State.decoding, State.setSegmentation_fb, State.enter_fb]
@[simp] theorem parseSegmentation_argBase : (parseSegmentation s).argBase = s.argBase := by
  simp only [parseSegmentation, State.decoding, State.setSegmentation_argBase, State.enter_argBase]
@[simp] theorem parseSegmentation_argLen : (parseSegmentation s).argLen = s.argLen := by
  simp only [parseSegmentation, State.decoding, State.setSegmentation_argLen, State.enter_argLen]
@[simp] theorem parseSegmentation_argNull : (parseSegmentation s).argNull = s.argNull := by
  simp only [parseSegmentation, State.decoding, State.setSegmentation_argNull, State.enter_argNull]
@[simp] theorem parseSegmentation_bd : (parseSegmentation s).bd = (segHeader s.cfg s.fb s.pcs.seg s.bd).2 := by
  simp only [parseSegmentation, State.decoding, State.setSegmentation_bd, State.enter_fb, State.enter_bd, State.enter_pcs, State.enter_cfg]
@[simp] theorem parseSegmentation_result : (parseSegmentation s).result = s.result := by
  simp only [parseSegmentation, State.decoding, State.setSegmentation_result, State.enter_result]
@[simp] theorem parseSegmentation_fhrValid : (parseSegmentation s).fhrValid = s.fhrValid := by
  simp only [parseSegmentation, State.decoding, State.setSegmentation_fhrValid, State.enter_fhrValid]
@[simp] theorem parseSegmentation_res : (parseSegmentation s).res = s.res := by
  simp only [parseSegmentation, State.decoding, State.setSegmentation_res, State.enter_res]
@[simp] theorem parseSegmentation_posByte : (parseSegmentation s).posByte = s.posByte := by
  simp only [parseSegmentation, State.decoding, State.setSegmentation_posByte, State.enter_posByte]
@[simp] theorem parseSegmentation_posBit : (parseSegmentation s).posBit = s.posBit := by
  simp only [parseSegmentation, State.decoding, State.setSegmentation_posBit, State.enter_posBit]
@[simp] theorem parseSegmentation_fhr : (parseSegmentation s).fhr =
    { s.fhr with updateMbSegmentationMap := (segHeader s.cfg s.fb s.pcs.seg s.bd).1.2.1, updateSegmentFeatureData := (segHeader s.cfg s.fb s.pcs.seg s.bd).1.2.2 } := by
  simp only [parseSegmentation, State.decoding, State.setSegmentation_fhr, State.enter_fb, State.enter_bd, State.enter_fhr, State.enter_pcs, State.enter_cfg]
@[simp] theorem parseSegmentation_pt : (parseSegmentation s).pt = s.pt := by
  simp only [parseSegmentation, State.decoding, State.setSegmentation_pt, State.enter_pt]
@[simp] theorem parseSegmentation_pcs : (parseSegmentation s).pcs =
    { s.pcs with seg := (segHeader s.cfg s.fb s.pcs.seg s.bd).1.1 } := by
  simp only [parseSegmentation, State.decoding, State.setSegmentation_pcs, State.enter_fb, State.enter_bd, State.enter_pcs, State.enter_cfg]
@[simp] theorem parseSegmentation_pcsSnap : (parseSegmentation s).pcsSnap = s.pcsSnap := by
  simp only [parseSegmentation, State.decoding, State.setSegmentation_pcsSnap, State.enter_pcsSnap]
@[simp] theorem parseSegmentation_w : (parseSegmentation s).w = s.w := by
  simp only [parseSegmentation, State.decoding, State.setSegmentation_w, State.enter_w]
@[simp] theorem parseSegmentation_cfg : (parseSegmentation s).cfg = s.cfg := by
  simp only [parseSegmentation, State.decoding, State.setSegmentation_cfg, State.enter_cfg]
@[simp] theorem parseSegmentation_draws : (parseSegmentation s).draws = s.draws := by
  simp only [parseSegmentation, State.decoding, State.setSegmentation_draws, State.enter_draws]
@[simp] theorem parseSegmentation_pending : (parseSegmentation s).pending = s.pending := by
  simp only [parseSegmentation, State.decoding, State.setSegmentation_pending, State.enter_pending]

end parseSegmentation

section parseLoopFilter

variable (s : State)

@[simp] theorem parseLoopFilter_fb : (parseLoopFilter s).fb = s.fb := by
  simp only [parseLoopFilter, State.decoding, State.setLoopFilter_fb, State.enter_fb]
@[simp] theorem parseLoopFilter_argBase : (parseLoopFilter s).argBase = s.argBase := by
  simp only [parseLoopFilter, State.decoding, State.setLoopFilter_argBase, State.enter_argBase]
@[simp] theorem parseLoopFilter_argLen : (parseLoopFilter s).argLen = s.argLen := by
  simp only [parseLoopFilter, State.decoding, State.setLoopFilter_argLen, State.enter_argLen]
@[simp] theorem parseLoopFilter_argNull : (parseLoopFilter s).argNull = s.argNull := by
  simp only [parseLoopFilter, State.decoding, State.setLoopFilter_argNull, State.enter_argNull]
@[simp] theorem parseLoopFilter_bd : (parseLoopFilter s).bd = (lfHeader s.cfg s.fb s.pcs.lf s.bd).2 := by
  simp only [parseLoopFilter, State.decoding, State.setLoopFilter_bd, State.enter_fb, State.enter_bd, State.enter_pcs, State.enter_cfg]
@[simp] theorem parseLoopFilter_result : (parseLoopFilter s).result = s.result := by
  simp only [parseLoopFilter, State.decoding, State.setLoopFilter_result, State.enter_result]
@[simp] theorem parseLoopFilter_fhrValid : (parseLoopFilter s).fhrValid = s.fhrValid := by
  simp only [parseLoopFilter, State.decoding, State.setLoopFilter_fhrValid, State.enter_fhrValid]
@[simp] theorem parseLoopFilter_res : (parseLoopFilter s).res = s.res := by
  simp only [parseLoopFilter, State.decoding, State.setLoopFilter_res, State.enter_res]
@[simp] theorem parseLoopFilter_posByte : (parseLoopFilter s).posByte = s.posByte := by
  simp only [parseLoopFilter, State.decoding, State.setLoopFilter_posByte, State.enter_posByte]
@[simp] theorem parseLoopFilter_posBit : (parseLoopFilter s).posBit = s.posBit := by
  simp only [parseLoopFilter, State.decoding, State.setLoopFilter_posBit, State.enter_posBit]
@[simp] theorem parseLoopFilter_fhr : (parseLoopFilter s).fhr =
    { s.fhr with lfDeltaUpdate := (lfHeader s.cfg s.fb s.pcs.lf s.bd).1.2 } := by
  simp only [parseLoopFilter, State.decoding, State.setLoopFilter_fhr, State.enter_fb, State.enter_bd, State.enter_fhr, State.enter_pcs, State.enter_cfg]
@[simp] theorem parseLoopFilter_pt : (parseLoopFilter s).pt = s.pt := by
  simp only [parseLoopFilter, State.decoding, State.setLoopFilter_pt, State.enter_pt]
@[simp] theorem parseLoopFilter_pcs : (parseLoopFilter s).pcs =
    { s.pcs with lf := (lfHeader s.cfg s.fb s.pcs.lf s.bd).1.1 } := by
  simp only [parseLoopFilter, State.decoding, State.setLoopFilter_pcs, State.enter_fb, State.enter_bd, State.enter_pcs, State.enter_cfg]
@[simp] theorem parseLoopFilter_pcsSnap : (parseLoopFilter s).pcsSnap = s.pcsSnap := by
  simp only [parseLoopFilter, State.decoding, State.setLoopFilter_pcsSnap, State.enter_pcsSnap]
@[simp] theorem parseLoopFilter_w : (parseLoopFilter s).w = s.w := by
  simp only [parseLoopFilter, State.decoding, State.setLoopFilter_w, State.enter_w]
@[simp] theorem parseLoopFilter_cfg : (parseLoopFilter s).cfg = s.cfg := by
  simp only [parseLoopFilter, State.decoding, State.setLoopFilter_cfg, State.enter_cfg]
@[simp] theorem parseLoopFilter_draws : (parseLoopFilter s).draws = s.draws := by
  simp only [parseLoopFilter, State.decoding, State.setLoopFilter_draws, State.enter_draws]
@[simp] theorem parseLoopFilter_pending : (parseLoopFilter s).pending = s.pending := by
  simp only [parseLoopFilter, State.decoding, State.setLoopFilter_pending, State.enter_pending]

end parseLoopFilter

section parsePartCount

variable (s : State)

@[simp] theorem parsePartCount_fb : (parsePartCount s).fb = s.fb := by
  simp only [parsePartCount, State.decoding, State.setPartCount_fb, State.enter_fb]
@[simp] theorem parsePartCount_argBase : (parsePartCount s).argBase = s.argBase := by
  simp only [parsePartCount, State.decoding, State.setPartCount_argBase, State.enter_argBase]
@[simp] theorem parsePartCount_argLen : (parsePartCount s).argLen = s.argLen := by
  simp only [parsePartCount, State.decoding, State.setPartCount_argLen, State.enter_argLen]
@[simp] theorem parsePartCount_argNull : (parsePartCount s).argNull = s.argNull := by
  simp only [parsePartCount, State.decoding, State.setPartCount_argNull, State.enter_argNull]
@[simp] theorem parsePartCount_bd : (parsePartCount s).bd = (lit s.fb s.cfg.partCntBits s.bd).2 := by
  simp only [parsePartCount, State.decoding, State.setPartCount_bd, State.enter_fb, State.enter_bd, State.enter_cfg]
@[simp] theorem parsePartCount_result : (parsePartCount s).result = s.result := by
  simp only [parsePartCount, State.decoding, State.setPartCount_result, State.enter_result]
@[simp] theorem parsePartCount_fhrValid : (parsePartCount s).fhrValid = s.fhrValid := by
  simp only [parsePartCount, State.decoding, State.setPartCount_fhrValid, State.enter_fhrValid]
@[simp] theorem parsePartCount_res : (parsePartCount s).res = s.res := by
  simp only [parsePartCount, State.decoding, State.setPartCount_res, State.enter_res]
@[simp] theorem parsePartCount_posByte : (parsePartCount s).posByte = s.posByte := by
  simp only [parsePartCount, State.decoding, State.setPartCount_posByte, State.enter_posByte]
@[simp] theorem parsePartCount_posBit : (parsePartCount s).posBit = s.posBit := by
  simp only [parsePartCount, State.decoding, State.setPartCount_posBit, State.enter_posBit]
@[simp] theorem parsePartCount_fhr : (parsePartCount s).fhr =
    { s.fhr with numOfDctPartitions := BitVec.ofNat 4 (1 <<< (lit s.fb s.cfg.partCntBits s.bd).1) } := by
  simp only [parsePartCount, State.decoding, State.setPartCount_fhr, State.enter_fb, State.enter_bd, State.enter_fhr, State.enter_cfg]
@[simp] theorem parsePartCount_pt : (parsePartCount s).pt = s.pt := by
  simp only [parsePartCount, State.decoding, State.setPartCount_pt, State.enter_pt]
@[simp] theorem parsePartCount_pcs : (parsePartCount s).pcs = s.pcs := by
  simp only [parsePartCount, State.decoding, State.setPartCount_pcs, State.enter_pcs]
@[simp] theorem parsePartCount_pcsSnap : (parsePartCount s).pcsSnap = s.pcsSnap := by
  simp only [parsePartCount, State.decoding, State.setPartCount_pcsSnap, State.enter_pcsSnap]
@[simp] theorem parsePartCount_w : (parsePartCount s).w = s.w := by
  simp only [parsePartCount, State.decoding, State.setPartCount_w, State.enter_w]
@[simp] theorem parsePartCount_cfg : (parsePartCount s).cfg = s.cfg := by
  simp only [parsePartCount, State.decoding, State.setPartCount_cfg, State.enter_cfg]
@[simp] theorem parsePartCount_draws : (parsePartCount s).draws = s.draws := by
  simp only [parsePartCount, State.decoding, State.setPartCount_draws, State.enter_draws]
@[simp] theorem parsePartCount_pending : (parsePartCount s).pending = s.pending := by
  simp only [parsePartCount, State.decoding, State.setPartCount_pending, State.enter_pending]

end parsePartCount

section parseQuant

variable (s : State)

@[simp] theorem parseQuant_fb : (parseQuant s).fb = s.fb := by
  simp only [parseQuant, State.decoding, State.setQuant_fb, State.enter_fb]
@[simp] theorem parseQuant_argBase : (parseQuant s).argBase = s.argBase := by
  simp only [parseQuant, State.decoding, State.setQuant_argBase, State.enter_argBase]
@[simp] theorem parseQuant_argLen : (parseQuant s).argLen = s.argLen := by
  simp only [parseQuant, State.decoding, State.setQuant_argLen, State.enter_argLen]
@[simp] theorem parseQuant_argNull : (parseQuant s).argNull = s.argNull := by
  simp only [parseQuant, State.decoding, State.setQuant_argNull, State.enter_argNull]
@[simp] theorem parseQuant_bd : (parseQuant s).bd = (quantHeader s.cfg s.fb s.bd).2 := by
  simp only [parseQuant, State.decoding, State.setQuant_bd, State.enter_fb, State.enter_bd, State.enter_cfg]
@[simp] theorem parseQuant_result : (parseQuant s).result = s.result := by
  simp only [parseQuant, State.decoding, State.setQuant_result, State.enter_result]
@[simp] theorem parseQuant_fhrValid : (parseQuant s).fhrValid = s.fhrValid := by
  simp only [parseQuant, State.decoding, State.setQuant_fhrValid, State.enter_fhrValid]
@[simp] theorem parseQuant_res : (parseQuant s).res = s.res := by
  simp only [parseQuant, State.decoding, State.setQuant_res, State.enter_res]
@[simp] theorem parseQuant_posByte : (parseQuant s).posByte = s.posByte := by
  simp only [parseQuant, State.decoding, State.setQuant_posByte, State.enter_posByte]
@[simp] theorem parseQuant_posBit : (parseQuant s).posBit = s.posBit := by
  simp only [parseQuant, State.decoding, State.setQuant_posBit, State.enter_posBit]
@[simp] theorem parseQuant_fhr : (parseQuant s).fhr = { s.fhr with quant := (quantHeader s.cfg s.fb s.bd).1 } := by
  simp only [parseQuant, State.decoding, State.setQuant_fhr, State.enter_fb, State.enter_bd, State.enter_fhr, State.enter_cfg]
@[simp] theorem parseQuant_pt : (parseQuant s).pt = s.pt := by
  simp only [parseQuant, State.decoding, State.setQuant_pt, State.enter_pt]
@[simp] theorem parseQuant_pcs : (parseQuant s).pcs = s.pcs := by
  simp only [parseQuant, State.decoding, State.setQuant_pcs, State.enter_pcs]
@[simp] theorem parseQuant_pcsSnap : (parseQuant s).pcsSnap = s.pcsSnap := by
  simp only [parseQuant, State.decoding, State.setQuant_pcsSnap, State.enter_pcsSnap]
@[simp] theorem parseQuant_w : (parseQuant s).w = s.w := by
  simp only [parseQuant, State.decoding, State.setQuant_w, State.enter_w]
@[simp] theorem parseQuant_cfg : (parseQuant s).cfg = s.cfg := by
  simp only [parseQuant, State.decoding, State.setQuant_cfg, State.enter_cfg]
@[simp] theorem parseQuant_draws : (parseQuant s).draws = s.draws := by
  simp only [parseQuant, State.decoding, State.setQuant_draws, State.enter_draws]
@[simp] theorem parseQuant_pending : (parseQuant s).pending = s.pending := by
  simp only [parseQuant, State.decoding, State.setQuant_pending, State.enter_pending]

end parseQuant

section parseKeyRefresh

variable (s : State)

@[simp] theorem parseKeyRefresh_fb : (parseKeyRefresh s).fb = s.fb := by
  simp only [parseKeyRefresh, State.decoding, State.setRefresh_fb]
@[simp] theorem parseKeyRefresh_argBase : (parseKeyRefresh s).argBase = s.argBase := by
  simp only [parseKeyRefresh, State.decoding, State.setRefresh_argBase]
@[simp] theorem parseKeyRefresh_argLen : (parseKeyRefresh s).argLen = s.argLen := by
  simp only [parseKeyRefresh, State.decoding, State.setRefresh_argLen]
@[simp] theorem parseKeyRefresh_argNull : (parseKeyRefresh s).argNull = s.argNull := by
  simp only [parseKeyRefresh, State.decoding, State.setRefresh_argNull]
@[simp] theorem parseKeyRefresh_bd : (parseKeyRefresh s).bd =
    (keyRefreshHeader s.fb s.bd).2 := by
  simp only [parseKeyRefresh, State.decoding, State.setRefresh_bd]
@[simp] theorem parseKeyRefresh_result : (parseKeyRefresh s).result = s.result := by
  simp only [parseKeyRefresh, State.decoding, State.setRefresh_result]
@[simp] theorem parseKeyRefresh_fhrValid : (parseKeyRefresh s).fhrValid = s.fhrValid := by
  simp only [parseKeyRefresh, State.decoding, State.setRefresh_fhrValid]
@[simp] theorem parseKeyRefresh_res : (parseKeyRefresh s).res = s.res := by
  simp only [parseKeyRefresh, State.decoding, State.setRefresh_res]
@[simp] theorem parseKeyRefresh_posByte : (parseKeyRefresh s).posByte = s.posByte := by
  simp only [parseKeyRefresh, State.decoding, State.setRefresh_posByte]
@[simp] theorem parseKeyRefresh_posBit : (parseKeyRefresh s).posBit = s.posBit := by
  simp only [parseKeyRefresh, State.decoding, State.setRefresh_posBit]
@[simp] theorem parseKeyRefresh_fhr : (parseKeyRefresh s).fhr =
    { s.fhr with refresh := (keyRefreshHeader s.fb s.bd).1.1, refreshEntropyProbs := (keyRefreshHeader s.fb s.bd).1.2.1, refreshLast := (keyRefreshHeader s.fb s.bd).1.2.2 } := by
  simp only [parseKeyRefresh, State.decoding, State.setRefresh_fhr]
@[simp] theorem parseKeyRefresh_pt : (parseKeyRefresh s).pt = s.pt := by
  simp only [parseKeyRefresh, State.decoding, State.setRefresh_pt]
@[simp] theorem parseKeyRefresh_pcs : (parseKeyRefresh s).pcs = s.pcs := by
  simp only [parseKeyRefresh, State.decoding, State.setRefresh_pcs]
@[simp] theorem parseKeyRefresh_pcsSnap : (parseKeyRefresh s).pcsSnap = s.pcsSnap := by
  simp only [parseKeyRefresh, State.decoding, State.setRefresh_pcsSnap]
@[simp] theorem parseKeyRefresh_w : (parseKeyRefresh s).w = s.w := by
  simp only [parseKeyRefresh, State.decoding, State.setRefresh_w]
@[simp] theorem parseKeyRefresh_cfg : (parseKeyRefresh s).cfg = s.cfg := by
  simp only [parseKeyRefresh, State.decoding, State.setRefresh_cfg]
@[simp] theorem parseKeyRefresh_draws : (parseKeyRefresh s).draws = s.draws := by
  simp only [parseKeyRefresh, State.decoding, State.setRefresh_draws]
@[simp] theorem parseKeyRefresh_pending : (parseKeyRefresh s).pending = s.pending := by
  simp only [parseKeyRefresh, State.decoding, State.setRefresh_pending]

end parseKeyRefresh

section parseTokenProbs

variable (s : State)

@[simp] theorem parseTokenProbs_fb : (parseTokenProbs s).fb = s.fb := by
  simp only [parseTokenProbs, State.decoding, State.setTokenProbs_fb, State.enter_fb]
@[simp] theorem parseTokenProbs_argBase : (parseTokenProbs s).argBase = s.argBase := by
  simp only [parseTokenProbs, State.decoding, State.setTokenProbs_argBase, State.enter_argBase]
@[simp] theorem parseTokenProbs_argLen : (parseTokenProbs s).argLen = s.argLen := by
  simp only [parseTokenProbs, State.decoding, State.setTokenProbs_argLen, State.enter_argLen]
@[simp] theorem parseTokenProbs_argNull : (parseTokenProbs s).argNull = s.argNull := by
  simp only [parseTokenProbs, State.decoding, State.setTokenProbs_argNull, State.enter_argNull]
@[simp] theorem parseTokenProbs_bd : (parseTokenProbs s).bd = (tokenProbs s.cfg s.fb s.w.coeff s.bd).2 := by
  simp only [parseTokenProbs, State.decoding, State.setTokenProbs_bd, State.enter_fb, State.enter_bd, State.enter_w, State.enter_cfg]
@[simp] theorem parseTokenProbs_result : (parseTokenProbs s).result = s.result := by
  simp only [parseTokenProbs, State.decoding, State.setTokenProbs_result, State.enter_result]
@[simp] theorem parseTokenProbs_fhrValid : (parseTokenProbs s).fhrValid = s.fhrValid := by
  simp only [parseTokenProbs, State.decoding, State.setTokenProbs_fhrValid, State.enter_fhrValid]
@[simp] theorem parseTokenProbs_res : (parseTokenProbs s).res = s.res := by
  simp only [parseTokenProbs, State.decoding, State.setTokenProbs_res, State.enter_res]
@[simp] theorem parseTokenProbs_posByte : (parseTokenProbs s).posByte = s.posByte := by
  simp only [parseTokenProbs, State.decoding, State.setTokenProbs_posByte, State.enter_posByte]
@[simp] theorem parseTokenProbs_posBit : (parseTokenProbs s).posBit = s.posBit := by
  simp only [parseTokenProbs, State.decoding, State.setTokenProbs_posBit, State.enter_posBit]
@[simp] theorem parseTokenProbs_fhr : (parseTokenProbs s).fhr = s.fhr := by
  simp only [parseTokenProbs, State.decoding, State.setTokenProbs_fhr, State.enter_fhr]
@[simp] theorem parseTokenProbs_pt : (parseTokenProbs s).pt = s.pt := by
  simp only [parseTokenProbs, State.decoding, State.setTokenProbs_pt, State.enter_pt]
@[simp] theorem parseTokenProbs_pcs : (parseTokenProbs s).pcs = s.pcs := by
  simp only [parseTokenProbs, State.decoding, State.setTokenProbs_pcs, State.enter_pcs]
@[simp] theorem parseTokenProbs_pcsSnap : (parseTokenProbs s).pcsSnap = s.pcsSnap := by
  simp only [parseTokenProbs, State.decoding, State.setTokenProbs_pcsSnap, State.enter_pcsSnap]
@[simp] theorem parseTokenProbs_w : (parseTokenProbs s).w =
    { s.w with coeff := (tokenProbs s.cfg s.fb s.w.coeff s.bd).1 } := by
  simp only [parseTokenProbs, State.decoding, State.setTokenProbs_w, State.enter_fb, State.enter_bd, State.enter_w, State.enter_cfg]
@[simp] theorem parseTokenProbs_cfg : (parseTokenProbs s).cfg = s.cfg := by
  simp only [parseTokenProbs, State.decoding, State.setTokenProbs_cfg, State.enter_cfg]
@[simp] theorem parseTokenProbs_draws : (parseTokenProbs s).draws = s.draws := by
  simp only [parseTokenProbs, State.decoding, State.setTokenProbs_draws, State.enter_draws]
@[simp] theorem parseTokenProbs_pending : (parseTokenProbs s).pending = s.pending := by
  simp only [parseTokenProbs, State.decoding, State.setTokenProbs_pending, State.enter_pending]

end parseTokenProbs

section parseSkip

variable (s : State)

@[simp] theorem parseSkip_fb : (parseSkip s).fb = s.fb := by
  simp only [parseSkip, State.decoding, State.setSkip_fb, State.enter_fb]
@[simp] theorem parseSkip_argBase : (parseSkip s).argBase = s.argBase := by
  simp only [parseSkip, State.decoding, State.setSkip_argBase, State.enter_argBase]
@[simp] theorem parseSkip_argLen : (parseSkip s).argLen = s.argLen := by
  simp only [parseSkip, State.decoding, State.setSkip_argLen, State.enter_argLen]
@[simp] theorem parseSkip_argNull : (parseSkip s).argNull = s.argNull := by
  simp only [parseSkip, State.decoding, State.setSkip_argNull, State.enter_argNull]
@[simp] theorem parseSkip_bd : (parseSkip s).bd = (skipHeader s.fb s.bd).2 := by
  simp only [parseSkip, State.decoding, State.setSkip_bd, State.enter_fb, State.enter_bd]
@[simp] theorem parseSkip_result : (parseSkip s).result = s.result := by
  simp only [parseSkip, State.decoding, State.setSkip_result, State.enter_result]
@[simp] theorem parseSkip_fhrValid : (parseSkip s).fhrValid = s.fhrValid := by
  simp only [parseSkip, State.decoding, State.setSkip_fhrValid, State.enter_fhrValid]
@[simp] theorem parseSkip_res : (parseSkip s).res = s.res := by
  simp only [parseSkip, State.decoding, State.setSkip_res, State.enter_res]
@[simp] theorem parseSkip_posByte : (parseSkip s).posByte = s.posByte := by
  simp only [parseSkip, State.decoding, State.setSkip_posByte, State.enter_posByte]
@[simp] theorem parseSkip_posBit : (parseSkip s).posBit = s.posBit := by
  simp only [parseSkip, State.decoding, State.setSkip_posBit, State.enter_posBit]
@[simp] theorem parseSkip_fhr : (parseSkip s).fhr =
    { s.fhr with mbNoSkipCoeff := (skipHeader s.fb s.bd).1.1, probSkipFalse := (skipHeader s.fb s.bd).1.2 } := by
  simp only [parseSkip, State.decoding, State.setSkip_fhr, State.enter_fb, State.enter_bd, State.enter_fhr]
@[simp] theorem parseSkip_pt : (parseSkip s).pt = s.pt := by
  simp only [parseSkip, State.decoding, State.setSkip_pt, State.enter_pt]
@[simp] theorem parseSkip_pcs : (parseSkip s).pcs = s.pcs := by
  simp only [parseSkip, State.decoding, State.setSkip_pcs, State.enter_pcs]
@[simp] theorem parseSkip_pcsSnap : (parseSkip s).pcsSnap = s.pcsSnap := by
  simp only [parseSkip, State.decoding, State.setSkip_pcsSnap, State.enter_pcsSnap]
@[simp] theorem parseSkip_w : (parseSkip s).w = s.w := by
  simp only [parseSkip, State.decoding, State.setSkip_w, State.enter_w]
@[simp] theorem parseSkip_cfg : (parseSkip s).cfg = s.cfg := by
  simp only [parseSkip, State.decoding, State.setSkip_cfg, State.enter_cfg]
@[simp] theorem parseSkip_draws : (parseSkip s).draws = s.draws := by
  simp only [parseSkip, State.decoding, State.setSkip_draws, State.enter_draws]
@[simp] theorem parseSkip_pending : (parseSkip s).pending = s.pending := by
  simp only [parseSkip, State.decoding, State.setSkip_pending, State.enter_pending]

end parseSkip

section parseColor

variable (s : State)

@[simp] theorem parseColor_fb : (parseColor s).fb = s.fb := by
  simp only [parseColor]
  split
  · simp only [State.decoding, State.setColor_fb]
  · rfl
@[simp] theorem parseColor_argBase : (parseColor s).argBase = s.argBase := by
  simp only [parseColor]
  split
  · simp only [State.decoding, State.setColor_argBase]
  · rfl
@[simp] theorem parseColor_argLen : (parseColor s).argLen = s.argLen := by
  simp only [parseColor]
  split
  · simp only [State.decoding, State.setColor_argLen]
  · rfl
@[simp] theorem parseColor_argNull : (parseColor s).argNull = s.argNull := by
  simp only [parseColor]
  split
  · simp only [State.decoding, State.setColor_argNull]
  · rfl
@[simp] theorem parseColor_result : (parseColor s).result = s.result := by
  simp only [parseColor]
  split
  · simp only [State.decoding, State.setColor_result]
  · rfl
@[simp] theorem parseColor_fhrValid : (parseColor s).fhrValid = s.fhrValid := by
  simp only [parseColor]
  split
  · simp only [State.decoding, State.setColor_fhrValid]
  · rfl
@[simp] theorem parseColor_res : (parseColor s).res = s.res := by
  simp only [parseColor]
  split
  · simp only [State.decoding, State.setColor_res]
  · rfl
@[simp] theorem parseColor_posByte : (parseColor s).posByte = s.posByte := by
  simp only [parseColor]
  split
  · simp only [State.decoding, State.setColor_posByte]
  · rfl
@[simp] theorem parseColor_posBit : (parseColor s).posBit = s.posBit := by
  simp only [parseColor]
  split
  · simp only [State.decoding, State.setColor_posBit]
  · rfl
@[simp] theorem parseColor_pt : (parseColor s).pt = s.pt := by
  simp only [parseColor]
  split
  · simp only [State.decoding, State.setColor_pt]
  · rfl
@[simp] theorem parseColor_pcs : (parseColor s).pcs = s.pcs := by
  simp only [parseColor]
  split
  · simp only [State.decoding, State.setColor_pcs]
  · rfl
@[simp] theorem parseColor_pcsSnap : (parseColor s).pcsSnap = s.pcsSnap := by
  simp only [parseColor]
  split
  · simp only [State.decoding, State.setColor_pcsSnap]
  · rfl
@[simp] theorem parseColor_w : (parseColor s).w = s.w := by
  simp only [parseColor]
  split
  · simp only [State.decoding, State.setColor_w]
  · rfl
@[simp] theorem parseColor_cfg : (parseColor s).cfg = s.cfg := by
  simp only [parseColor]
  split
  · simp only [State.decoding, State.setColor_cfg]
  · rfl
@[simp] theorem parseColor_draws : (parseColor s).draws = s.draws := by
  simp only [parseColor]
  split
  · simp only [State.decoding, State.setColor_draws]
  · rfl
@[simp] theorem parseColor_pending : (parseColor s).pending = s.pending := by
  simp only [parseColor]
  split
  · simp only [State.decoding, State.setColor_pending]
  · rfl

end parseColor

section parseInterProbs

variable (s : State)

@[simp] theorem parseInterProbs_fb : (parseInterProbs s).fb = s.fb := by
  simp only [parseInterProbs]
  split
  · rfl
  · simp only [State.decoding, State.setInterProbs_fb]
@[simp] theorem parseInterProbs_argBase : (parseInterProbs s).argBase = s.argBase := by
  simp only [parseInterProbs]
  split
  · rfl
  · simp only [State.decoding, State.setInterProbs_argBase]
@[simp] theorem parseInterProbs_argLen : (parseInterProbs s).argLen = s.argLen := by
  simp only [parseInterProbs]
  split
  · rfl
  · simp only [State.decoding, State.setInterProbs_argLen]
@[simp] theorem parseInterProbs_argNull : (parseInterProbs s).argNull = s.argNull := by
  simp only [parseInterProbs]
  split
  · rfl
  · simp only [State.decoding, State.setInterProbs_argNull]
@[simp] theorem parseInterProbs_result : (parseInterProbs s).result = s.result := by
  simp only [parseInterProbs]
  split
  · rfl
  · simp only [State.decoding, State.setInterProbs_result]
@[simp] theorem parseInterProbs_fhrValid : (parseInterProbs s).fhrValid = s.fhrValid := by
  simp only [parseInterProbs]
  split
  · rfl
  · simp only [State.decoding, State.setInterProbs_fhrValid]
@[simp] theorem parseInterProbs_res : (parseInterProbs s).res = s.res := by
  simp only [parseInterProbs]
  split
  · rfl
  · simp only [State.decoding, State.setInterProbs_res]
@[simp] theorem parseInterProbs_posByte : (parseInterProbs s).posByte = s.posByte := by
  simp only [parseInterProbs]
  split
  · rfl
  · simp only [State.decoding, State.setInterProbs_posByte]
@[simp] theorem parseInterProbs_posBit : (parseInterProbs s).posBit = s.posBit := by
  simp only [parseInterProbs]
  split
  · rfl
  · simp only [State.decoding, State.setInterProbs_posBit]
@[simp] theorem parseInterProbs_pt : (parseInterProbs s).pt = s.pt := by
  simp only [parseInterProbs]
  split
  · rfl
  · simp only [State.decoding, State.setInterProbs_pt]
@[simp] theorem parseInterProbs_pcs : (parseInterProbs s).pcs = s.pcs := by
  simp only [parseInterProbs]
  split
  · rfl
  · simp only [State.decoding, State.setInterProbs_pcs]
@[simp] theorem parseInterProbs_pcsSnap : (parseInterProbs s).pcsSnap = s.pcsSnap := by
  simp only [parseInterProbs]
  split
  · rfl
  · simp only [State.decoding, State.setInterProbs_pcsSnap]
@[simp] theorem parseInterProbs_w : (parseInterProbs s).w = s.w := by
  simp only [parseInterProbs]
  split
  · rfl
  · simp only [State.decoding, State.setInterProbs_w]
@[simp] theorem parseInterProbs_cfg : (parseInterProbs s).cfg = s.cfg := by
  simp only [parseInterProbs]
  split
  · rfl
  · simp only [State.decoding, State.setInterProbs_cfg]
@[simp] theorem parseInterProbs_draws : (parseInterProbs s).draws = s.draws := by
  simp only [parseInterProbs]
  split
  · rfl
  · simp only [State.decoding, State.setInterProbs_draws]
@[simp] theorem parseInterProbs_pending : (parseInterProbs s).pending = s.pending := by
  simp only [parseInterProbs]
  split
  · rfl
  · simp only [State.decoding, State.setInterProbs_pending]

end parseInterProbs

section parseIntraProbs

variable (s : State)

@[simp] theorem parseIntraProbs_fb : (parseIntraProbs s).fb = s.fb := by
  simp only [parseIntraProbs]
  split
  · rfl
  · simp only [State.decoding, State.setIntraProbs_fb, State.enter_fb]
@[simp] theorem parseIntraProbs_argBase : (parseIntraProbs s).argBase = s.argBase := by
  simp only [parseIntraProbs]
  split
  · rfl
  · simp only [State.decoding, State.setIntraProbs_argBase, State.enter_argBase]
@[simp] theorem parseIntraProbs_argLen : (parseIntraProbs s).argLen = s.argLen := by
  simp only [parseIntraProbs]
  split
  · rfl
  · simp only [State.decoding, State.setIntraProbs_argLen, State.enter_argLen]
@[simp] theorem parseIntraProbs_argNull : (parseIntraProbs s).argNull = s.argNull := by
  simp only [parseIntraProbs]
  split
  · rfl
  · simp only [State.decoding, State.setIntraProbs_argNull, State.enter_argNull]
@[simp] theorem parseIntraProbs_result : (parseIntraProbs s).result = s.result := by
  simp only [parseIntraProbs]
  split
  · rfl
  · simp only [State.decoding, State.setIntraProbs_result, State.enter_result]
@[simp] theorem parseIntraProbs_fhrValid : (parseIntraProbs s).fhrValid = s.fhrValid := by
  simp only [parseIntraProbs]
  split
  · rfl
  · simp only [State.decoding, State.setIntraProbs_fhrValid, State.enter_fhrValid]
@[simp] theorem parseIntraProbs_res : (parseIntraProbs s).res = s.res := by
  simp only [parseIntraProbs]
  split
  · rfl
  · simp only [State.decoding, State.setIntraProbs_res, State.enter_res]
@[simp] theorem parseIntraProbs_posByte : (parseIntraProbs s).posByte = s.posByte := by
  simp only [parseIntraProbs]
  split
  · rfl
  · simp only [State.decoding, State.setIntraProbs_posByte, State.enter_posByte]
@[simp] theorem parseIntraProbs_posBit : (parseIntraProbs s).posBit = s.posBit := by
  simp only [parseIntraProbs]
  split
  · rfl
  · simp only [State.decoding, State.setIntraProbs_posBit, State.enter_posBit]
@[simp] theorem parseIntraProbs_fhr : (parseIntraProbs s).fhr = s.fhr := by
  simp only [parseIntraProbs]
  split
  · rfl
  · simp only [State.decoding, State.setIntraProbs_fhr, State.enter_fhr]
@[simp] theorem parseIntraProbs_pt : (parseIntraProbs s).pt = s.pt := by
  simp only [parseIntraProbs]
  split
  · rfl
  · simp only [State.decoding, State.setIntraProbs_pt, State.enter_pt]
@[simp] theorem parseIntraProbs_pcs : (parseIntraProbs s).pcs = s.pcs := by
  simp only [parseIntraProbs]
  split
  · rfl
  · simp only [State.decoding, State.setIntraProbs_pcs, State.enter_pcs]
@[simp] theorem parseIntraProbs_pcsSnap : (parseIntraProbs s).pcsSnap = s.pcsSnap := by
  simp only [parseIntraProbs]
  split
  · rfl
  · simp only [State.decoding, State.setIntraProbs_pcsSnap, State.enter_pcsSnap]
@[simp] theorem parseIntraProbs_cfg : (parseIntraProbs s).cfg = s.cfg := by
  simp only [parseIntraProbs]
  split
  · rfl
  · simp only [State.decoding, State.setIntraProbs_cfg, State.enter_cfg]
@[simp] theorem parseIntraProbs_draws : (parseIntraProbs s).draws = s.draws := by
  simp only [parseIntraProbs]
  split
  · rfl
  · simp only [State.decoding, State.setIntraProbs_draws, State.enter_draws]
@[simp] theorem parseIntraProbs_pending : (parseIntraProbs s).pending = s.pending := by
  simp only [parseIntraProbs]
  split
  · rfl
  · simp only [State.decoding, State.setIntraProbs_pending, State.enter_pending]

end parseIntraProbs

section parseMvProbs

variable (s : State)

@[simp] theorem parseMvProbs_fb : (parseMvProbs s).fb = s.fb := by
  simp only [parseMvProbs]
  split
  · rfl
  · simp only [State.decoding, State.setMvProbs_fb, State.enter_fb]
@[simp] theorem parseMvProbs_argBase : (parseMvProbs s).argBase = s.argBase := by
  simp only [parseMvProbs]
  split
  · rfl
  · simp only [State.decoding, State.setMvProbs_argBase, State.enter_argBase]
@[simp] theorem parseMvProbs_argLen : (parseMvProbs s).argLen = s.argLen := by
  simp only [parseMvProbs]
  split
  · rfl
  · simp only [State.decoding, State.setMvProbs_argLen, State.enter_argLen]
@[simp] theorem parseMvProbs_argNull : (parseMvProbs s).argNull = s.argNull := by
  simp only [parseMvProbs]
  split
  · rfl
  · simp only [State.decoding, State.setMvProbs_argNull, State.enter_argNull]
@[simp] theorem parseMvProbs_result : (parseMvProbs s).result = s.result := by
  simp only [parseMvProbs]
  split
  · rfl
  · simp only [State.decoding, State.setMvProbs_result, State.enter_result]
@[simp] theorem parseMvProbs_fhrValid : (parseMvProbs s).fhrValid = s.fhrValid := by
  simp only [parseMvProbs]
  split
  · rfl
  · simp only [State.decoding, State.setMvProbs_fhrValid, State.enter_fhrValid]
@[simp] theorem parseMvProbs_res : (parseMvProbs s).res = s.res := by
  simp only [parseMvProbs]
  split
  · rfl
  · simp only [State.decoding, State.setMvProbs_res, State.enter_res]
@[simp] theorem parseMvProbs_posByte : (parseMvProbs s).posByte = s.posByte := by
  simp only [parseMvProbs]
  split
  · rfl
  · simp only [State.decoding, State.setMvProbs_posByte, State.enter_posByte]
@[simp] theorem parseMvProbs_posBit : (parseMvProbs s).posBit = s.posBit := by
  simp only [parseMvProbs]
  split
  · rfl
  · simp only [State.decoding, State.setMvProbs_posBit, State.enter_posBit]
@[simp] theorem parseMvProbs_fhr : (parseMvProbs s).fhr = s.fhr := by
  simp only [parseMvProbs]
  split
  · rfl
  · simp only [State.decoding, State.setMvProbs_fhr, State.enter_fhr]
@[simp] theorem parseMvProbs_pt : (parseMvProbs s).pt = s.pt := by
  simp only [parseMvProbs]
  split
  · rfl
  · simp only [State.decoding, State.setMvProbs_pt, State.enter_pt]
@[simp] theorem parseMvProbs_pcs : (parseMvProbs s).pcs = s.pcs := by
  simp only [parseMvProbs]
  split
  · rfl
  · simp only [State.decoding, State.setMvProbs_pcs, State.enter_pcs]
@[simp] theorem parseMvProbs_pcsSnap : (parseMvProbs s).pcsSnap = s.pcsSnap := by
  simp only [parseMvProbs]
  split
  · rfl
  · simp only [State.decoding, State.setMvProbs_pcsSnap, State.enter_pcsSnap]
@[simp] theorem parseMvProbs_cfg : (parseMvProbs s).cfg = s.cfg := by
  simp only [parseMvProbs]
  split
  · rfl
  · simp only [State.decoding, State.setMvProbs_cfg, State.enter_cfg]
@[simp] theorem parseMvProbs_draws : (parseMvProbs s).draws = s.draws := by
  simp only [parseMvProbs]
  split
  · rfl
  · simp only [State.decoding, State.setMvProbs_draws, State.enter_draws]
@[simp] theorem parseMvProbs_pending : (parseMvProbs s).pending = s.pending := by
  simp only [parseMvProbs]
  split
  · rfl
  · simp only [State.decoding, State.setMvProbs_pending, State.enter_pending]

end parseMvProbs

section reportPos

variable (s : State)

@[simp] theorem State.reportPos_fb : s.reportPos.fb = s.fb := by
  simp only [State.reportPos]; split <;> rfl
@[simp] theorem State.reportPos_argBase : s.reportPos.argBase = s.argBase := by
  simp only [State.reportPos]; split <;> rfl
@[simp] theorem State.reportPos_argLen : s.reportPos.argLen = s.argLen := by
  simp only [State.reportPos]; split <;> rfl
@[simp] theorem State.reportPos_argNull : s.reportPos.argNull = s.argNull := by
  simp only [State.reportPos]; split <;> rfl
@[simp] theorem State.reportPos_bd : s.reportPos.bd = s.bd := by
  simp only [State.reportPos]; split <;> rfl
@[simp] theorem State.reportPos_result : s.reportPos.result = s.result := by
  simp only [State.reportPos]; split <;> rfl
@[simp] theorem State.reportPos_fhrValid : s.reportPos.fhrValid = s.fhrValid := by
  simp only [State.reportPos]; split <;> rfl
@[simp] theorem State.reportPos_res : s.reportPos.res = s.res := by
  simp only [State.reportPos]; split <;> rfl
@[simp] theorem State.reportPos_posBit : s.reportPos.posBit = BitVec.ofNat 3 (s.bd.pos % 8) := by
  simp only [State.reportPos]; split <;> rfl
@[simp] theorem State.reportPos_fhr : s.reportPos.fhr = s.fhr := by
  simp only [State.reportPos]; split <;> rfl
@[simp] theorem State.reportPos_pt : s.reportPos.pt = s.pt := by
  simp only [State.reportPos]; split <;> rfl
@[simp] theorem State.reportPos_pcs : s.reportPos.pcs = s.pcs := by
  simp only [State.reportPos]; split <;> rfl
@[simp] theorem State.reportPos_pcsSnap : s.reportPos.pcsSnap = s.pcsSnap := by
  simp only [State.reportPos]; split <;> rfl
@[simp] theorem State.reportPos_w : s.reportPos.w = s.w := by
  simp only [State.reportPos]; split <;> rfl
@[simp] theorem State.reportPos_fh : s.reportPos.fh = s.fh := by
  simp only [State.reportPos]; split <;> rfl
@[simp] theorem State.reportPos_cfg : s.reportPos.cfg = s.cfg := by
  simp only [State.reportPos]; split <;> rfl
@[simp] theorem State.reportPos_pending : s.reportPos.pending = s.pending := by
  simp only [State.reportPos]; split <;> rfl

/-- `POS_BYTE` where it fits, and then no free value is drawn. -/
theorem State.reportPos_fits (h : s.bd.pos / 8 < addrSpace) :
    s.reportPos.posByte = BitVec.ofNat addrWidth (s.bd.pos / 8) ∧ s.reportPos.draws = s.draws := by
  simp only [State.reportPos, if_pos h, and_self]

end reportPos

/-- What a failed `FH.PARSE` leaves, by the result its cause has. -/
theorem State.failParse_brokenData {c : Cause} (h : c.result = .brokenData) (s : State) :
    s.failParse c =
      ({ s with result := .brokenData, pcs := s.pcsAfterFailure, bd := closedBd s.draws } : State).outputsAny := by
  simp only [State.failParse, h]

theorem State.failParse_error {c : Cause} (h : c.result = .error) (s : State) :
    s.failParse c = ({ s with result := .error } : State).outputsAny := by
  simp only [State.failParse, h]

end Sys2Proof.Machine
end

