-- ==== Sys2Proof/Laws/Words.lean ====
section
/-! SUPPORT. Words and their fields as numbers. -/

namespace Sys2Proof

/-- A concatenation as a number. -/
theorem toNat_append_add {m n : Nat} (x : BitVec m) (y : BitVec n) : (x ++ y).toNat = x.toNat * 2 ^ n + y.toNat := by
  rw [BitVec.toNat_append, ← Nat.shiftLeft_add_eq_or_of_lt y.isLt, Nat.shiftLeft_eq]

/-- The fields of a command word as numbers (30_encoding R80). -/
theorem opField_toNat (w : CmdWord) : (opField w).toNat = w.toNat / 4096 := by
  have := w.isLt
  simp only [opField, BitVec.extractLsb'_toNat, Nat.shiftRight_eq_div_pow]
  omega

theorem zeroField_toNat (w : CmdWord) : (zeroField w).toNat = w.toNat / 256 % 16 := by
  simp only [zeroField, BitVec.extractLsb'_toNat, Nat.shiftRight_eq_div_pow]

theorem argField_toNat (w : CmdWord) : (argField w).toNat = w.toNat % 256 := by
  simp only [argField, BitVec.extractLsb'_toNat, Nat.shiftRight_eq_div_pow]
  omega

/-- A word built from its fields, as a number. -/
theorem wordOf_toNat (op : BitVec 4) (arg : Byte) : (wordOf op arg).toNat = 4096 * op.toNat + arg.toNat := by
  simp only [wordOf, toNat_append_add, BitVec.ofNat_eq_ofNat, BitVec.toNat_ofNat, Nat.zero_mod]
  omega

@[simp] theorem opField_wordOf (op : BitVec 4) (arg : Byte) : opField (wordOf op arg) = op := by
  have := arg.isLt
  have := op.isLt
  apply BitVec.eq_of_toNat_eq
  rw [opField_toNat, wordOf_toNat]
  omega

@[simp] theorem zeroField_wordOf (op : BitVec 4) (arg : Byte) : zeroField (wordOf op arg) = 0 := by
  have := arg.isLt
  have := op.isLt
  apply BitVec.eq_of_toNat_eq
  rw [zeroField_toNat, wordOf_toNat, show BitVec.toNat (0 : BitVec 4) = 0 from rfl]
  omega

@[simp] theorem argField_wordOf (op : BitVec 4) (arg : Byte) : argField (wordOf op arg) = arg := by
  have := arg.isLt
  apply BitVec.eq_of_toNat_eq
  rw [argField_toNat, wordOf_toNat]
  omega

end Sys2Proof
end

