-- ==== Sys2Proof/Laws/Commands.lean ====
section
/-! SUPPORT. What a BD command can answer, said once. -/

namespace Sys2Proof.Machine

theorem State.raise_eq (c : Cause) (s : State) : s.raise c = { s with result := c.result } := rfl

theorem State.complete_eq (s : State) : s.complete = { s with result := .ok } := rfl

/-- A read command with a decoder. -/
theorem readToRes_of_valid (rd : Memory → Rd (BitVec 32)) {s : State} (h : s.bd.valid = true) :
    readToRes rd s = .next { s with bd := (rd s.fb s.bd).2, res := (rd s.fb s.bd).1, result := .ok } := by
  simp only [readToRes, h, if_true, State.complete]

/-- A read command without one. -/
theorem readToRes_of_not_valid (rd : Memory → Rd (BitVec 32)) {s : State} (h : s.bd.valid = false) :
    readToRes rd s = .next { s with result := .error } := by
  simp only [readToRes, h, Bool.false_eq_true, if_false, State.raise, Cause.result]

theorem boolWord_apply (fb : Memory) (p : Prob) (d : Bd) :
    boolWord fb p d = ((if (decodeBool fb p d).1 then 1 else 0), (decodeBool fb p d).2) := by
  simp only [boolWord, Rd.bind_apply, Rd.pure_apply]
  cases (decodeBool fb p d).1 <;> rfl

theorem litWord_apply (fb : Memory) (n : Nat) (d : Bd) :
    litWord fb n d = (BitVec.ofNat 32 (lit fb n d).1, (lit fb n d).2) := by
  simp only [litWord, Rd.bind_apply, Rd.pure_apply]

theorem signedWord_apply (fb : Memory) (n : Nat) (d : Bd) :
    signedWord fb n d = (BitVec.ofInt 32 (signedLit fb n d).1, (signedLit fb n d).2) := by
  simp only [signedWord, Rd.bind_apply, Rd.pure_apply]

theorem execBdPos_of_valid {s : State} (h : s.bd.valid = true) :
    execBdPos s = .next { s.reportPos with result := .ok } := by
  simp only [execBdPos, h, if_true, State.complete]

theorem execBdInit_of_fits {s : State} (hn : s.argNull = false) (hb : s.bufferFits = true) :
    execBdInit s = .next { s with bd := Bd.construct s.fb s.argBase s.argLen, result := .ok } := by
  simp only [execBdInit, hn, hb, Bool.false_eq_true, if_false, if_true, State.complete]

/-- The read of a read command, `none` for a command that decodes no bit or is illegal. -/
def readOf : Instr → Option (Memory → Rd (BitVec 32))
  | .bdInit => none
  | .bdRbool p => some fun fb => boolWord fb p
  | .bdRlit n => if n.toNat ≤ litMax then some fun fb => litWord fb n.toNat else none
  | .bdRslit n => if n.toNat ≤ slitMax then some fun fb => signedWord fb n.toNat else none
  | .bdRflag => some fun fb => boolWord fb Config.litProb
  | .bdPos => none
  | .fhParse => none

theorem exec_of_read {i : Instr} {rd : Memory → Rd (BitVec 32)} (h : readOf i = some rd) (s : State) :
    exec i s = readToRes rd s := by
  cases i with
  | bdInit => simp [readOf] at h
  | bdPos => simp [readOf] at h
  | fhParse => simp [readOf] at h
  | bdRbool p => simp only [readOf, Option.some.injEq] at h; subst h; simp only [exec, execBdRbool]
  | bdRflag => simp only [readOf, Option.some.injEq] at h; subst h; simp only [exec, execBdRflag]
  | bdRlit n =>
    simp only [readOf] at h
    split at h
    · rename_i hn
      simp only [Option.some.injEq] at h; subst h; simp only [exec, execBdRlit, if_pos hn]
    · simp at h
  | bdRslit n =>
    simp only [readOf] at h
    split at h
    · rename_i hn
      simp only [Option.some.injEq] at h; subst h; simp only [exec, execBdRslit, if_pos hn]
    · simp at h

/-- A property of the BD registers that `DecodeBool` keeps is kept by every read command's read. -/
theorem readOf_keeps {P : Bd → Prop} {fb : Memory} (h : ∀ p, (decodeBool fb p).Keeps P) {i : Instr}
    {rd : Memory → Rd (BitVec 32)} (hi : readOf i = some rd) : (rd fb).Keeps P := by
  cases i with
  | bdInit => simp [readOf] at hi
  | bdPos => simp [readOf] at hi
  | fhParse => simp [readOf] at hi
  | bdRbool p => simp only [readOf, Option.some.injEq] at hi; subst hi; exact (h p).bind fun _ => .pure _
  | bdRflag => simp only [readOf, Option.some.injEq] at hi; subst hi; exact (h _).bind fun _ => .pure _
  | bdRlit n =>
    simp only [readOf] at hi
    split at hi
    · simp only [Option.some.injEq] at hi; subst hi; exact (Rd.Keeps.lit h _).bind fun _ => .pure _
    · simp at hi
  | bdRslit n =>
    simp only [readOf] at hi
    split at hi
    · simp only [Option.some.injEq] at hi; subst hi; exact (Rd.Keeps.signedLit h _).bind fun _ => .pure _
    · simp at hi

/-- The five ways a BD command can end. -/
theorem exec_bd_cases (s : State) {i : Instr} (hi : i ≠ .fhParse) :
    exec i s = .next { s with result := .error } ∨
    (∃ rd, readOf i = some rd ∧ s.bd.valid = true ∧
      exec i s = .next { s with bd := (rd s.fb s.bd).2, res := (rd s.fb s.bd).1, result := .ok }) ∨
    (i = .bdInit ∧ s.argNull = false ∧ s.bufferFits = true ∧
      exec i s = .next { s with bd := Bd.construct s.fb s.argBase s.argLen, result := .ok }) ∨
    (i = .bdInit ∧ s.argNull = false ∧ s.bufferFits = false ∧ exec i s = .refused .bufferBeyondAddressSpace) ∨
    (i = .bdPos ∧ s.bd.valid = true ∧ exec i s = .next { s.reportPos with result := .ok }) := by
  have read : ∀ rd, readOf i = some rd → exec i s = .next { s with result := .error } ∨
      (∃ rd, readOf i = some rd ∧ s.bd.valid = true ∧
        exec i s = .next { s with bd := (rd s.fb s.bd).2, res := (rd s.fb s.bd).1, result := .ok }) := by
    intro rd h
    cases hv : s.bd.valid
    · exact .inl ((exec_of_read h s).trans (readToRes_of_not_valid rd hv))
    · exact .inr ⟨rd, h, rfl, (exec_of_read h s).trans (readToRes_of_valid rd hv)⟩
  cases i with
  | bdInit =>
    rcases Bool.eq_false_or_eq_true s.argNull with hn | hn
    · exact .inl (by simp only [exec, execBdInit, hn, if_true, State.raise, Cause.result])
    · rcases Bool.eq_false_or_eq_true s.bufferFits with hb | hb
      · exact .inr (.inr (.inl ⟨rfl, hn, hb, execBdInit_of_fits hn hb⟩))
      · exact .inr (.inr (.inr (.inl ⟨rfl, hn, hb, by
          simp only [exec, execBdInit, hn, hb, Bool.false_eq_true, if_false]⟩)))
  | bdRbool p => exact (read _ rfl).imp_right .inl
  | bdRflag => exact (read _ rfl).imp_right .inl
  | bdRlit n =>
    by_cases hn : n.toNat ≤ litMax
    · exact (read _ (if_pos hn)).imp_right .inl
    · exact .inl (by simp only [exec, execBdRlit, if_neg hn, State.raise, Cause.result])
  | bdRslit n =>
    by_cases hn : n.toNat ≤ slitMax
    · exact (read _ (if_pos hn)).imp_right .inl
    · exact .inl (by simp only [exec, execBdRslit, if_neg hn, State.raise, Cause.result])
  | bdPos =>
    cases hv : s.bd.valid
    · exact .inl (by simp only [exec, execBdPos, hv, Bool.false_eq_true, if_false, State.raise, Cause.result])
    · exact .inr (.inr (.inr (.inr ⟨rfl, rfl, execBdPos_of_valid hv⟩)))
  | fhParse => exact absurd rfl hi

end Sys2Proof.Machine
end

