-- ==== Sys2Proof/Laws/Parse.lean ====
section
/-! SUPPORT. What the passes of `FH.PARSE` leave alone, and with which causes they fail. -/

namespace Sys2Proof.Machine

/-- The registers and the buffer no pass of `FH.PARSE` writes before its completion. -/
structure Kept (s t : State) : Prop where
  fb : t.fb = s.fb
  argBase : t.argBase = s.argBase
  argLen : t.argLen = s.argLen
  argNull : t.argNull = s.argNull
  result : t.result = s.result
  fhrValid : t.fhrValid = s.fhrValid
  res : t.res = s.res
  pcsSnap : t.pcsSnap = s.pcsSnap
  cfg : t.cfg = s.cfg
  pending : t.pending = s.pending

theorem Kept.refl (s : State) : Kept s s := ⟨rfl, rfl, rfl, rfl, rfl, rfl, rfl, rfl, rfl, rfl⟩

theorem Kept.trans {s t u : State} (h : Kept s t) (h' : Kept t u) : Kept s u :=
  ⟨h'.fb.trans h.fb, h'.argBase.trans h.argBase, h'.argLen.trans h.argLen, h'.argNull.trans h.argNull,
    h'.result.trans h.result, h'.fhrValid.trans h.fhrValid, h'.res.trans h.res, h'.pcsSnap.trans h.pcsSnap,
    h'.cfg.trans h.cfg, h'.pending.trans h.pending⟩

/-- A pass that keeps those registers, also where it raises, and raises `BrokenData` causes only. -/
def Pass.Keeps (s : State) : Pass → Prop
  | .ok t => Kept s t
  | .error (c, t) => Kept s t ∧ c.result = .brokenData

theorem Pass.Keeps.bind {s : State} {p : Pass} {f : State → Pass} (hp : Pass.Keeps s p)
    (hf : ∀ t, (f t).Keeps t) : Pass.Keeps s (p >>= f) := by
  rcases p with ⟨c, t⟩ | t
  · exact hp
  · have h := hf t
    show Pass.Keeps s (f t)
    rcases hft : f t with ⟨c, u⟩ | u <;> rw [hft] at h
    · exact ⟨hp.trans h.1, h.2⟩
    · exact hp.trans h

theorem parseTag_keeps (s : State) : (parseTag s).Keeps s := by
  simp only [parseTag]
  split
  · exact ⟨.refl s, rfl⟩
  · split
    · exact ⟨.refl s, rfl⟩
    · constructor <;> simp

theorem parseKeyExtension_keeps (s : State) : (parseKeyExtension s).Keeps s := by
  simp only [parseKeyExtension]
  split
  · split
    · exact ⟨.refl s, rfl⟩
    · split
      · constructor <;> simp
      · exact ⟨.refl s, rfl⟩
  · constructor <;> simp

theorem checkFirstPart_keeps (s : State) : (checkFirstPart s).Keeps s := by
  simp only [checkFirstPart]
  split
  · exact ⟨.refl s, rfl⟩
  · exact .refl s

theorem openFirstPart_kept (s : State) : Kept s s.openFirstPart := by constructor <;> simp

theorem parsePrefix_keeps (s : State) : (parsePrefix s).Keeps s :=
  (parseTag_keeps s).bind fun t => (parseKeyExtension_keeps t).bind fun u => (checkFirstPart_keeps u).bind fun v =>
    openFirstPart_kept v

theorem enter_kept (p : Phase) (s : State) : Kept s (s.enter p) := by constructor <;> simp
theorem setBd_kept (d : Bd) (s : State) : Kept s (s.setBd d) := by constructor <;> simp
theorem setRefresh_kept (r : Refresh × Bool × Bool) (s : State) : Kept s (s.setRefresh r) := by constructor <;> simp

theorem parseFrontElements_kept (s : State) : Kept s (parseFrontElements s) := by
  constructor <;> simp [parseFrontElements]

theorem parseBackElements_kept (s : State) : Kept s (parseBackElements s) := by
  constructor <;> simp [parseBackElements]

theorem parseKeyRefresh_kept (s : State) : Kept s (parseKeyRefresh s) := by constructor <;> simp

/-- The only cause among the refresh fields is the copy mode's. -/
theorem interRefresh_error {c : Params} {fb : Memory} {absent : Bool} {d : Bd} {e : Cause}
    (h : (interRefresh c fb absent d).1 = .error e) : e = .badEnum ∧ c.copymode3Broken = true := by
  simp only [interRefresh, Rd.bind_apply] at h
  split at h
  · rename_i hb
    simp only [Rd.pure_apply, Except.error.injEq] at h
    exact ⟨h.symm, by simp only [copyModeBroken, Bool.and_eq_true] at hb; exact hb.1⟩
  · simp only [Rd.bind_apply] at h
    split at h
    · rename_i hb
      simp only [Rd.pure_apply, Except.error.injEq] at h
      exact ⟨h.symm, by simp only [copyModeBroken, Bool.and_eq_true] at hb; exact hb.1⟩
    · simp only [Rd.bind_apply, Rd.pure_apply, reduceCtorEq] at h

theorem parseInterRefresh_keeps (s : State) : (parseInterRefresh s).Keeps s := by
  simp only [parseInterRefresh]
  split
  · rename_i c he
    exact ⟨setBd_kept _ s, by rw [(interRefresh_error he).1]; rfl⟩
  · exact (setBd_kept _ s).trans (setRefresh_kept _ _)

/-- The two ways `S5` can go on. -/
theorem parseRefresh_cases (s : State) :
    (s.fhr.keyFrame = true ∧ parseRefresh s = .ok (parseKeyRefresh (s.enter .s5))) ∨
    (s.fhr.keyFrame = false ∧ parseRefresh s = parseInterRefresh (s.enter .s5)) := by
  cases h : s.fhr.keyFrame
  · exact .inr ⟨rfl, by simp only [parseRefresh, h, Bool.false_eq_true, if_false]⟩
  · exact .inl ⟨rfl, by simp only [parseRefresh, h, if_true]⟩

theorem parseRefresh_keeps (s : State) : (parseRefresh s).Keeps s := by
  rcases parseRefresh_cases s with ⟨-, h⟩ | ⟨-, h⟩ <;> rw [h]
  · exact (enter_kept _ s).trans (parseKeyRefresh_kept _)
  · have hk := parseInterRefresh_keeps (s.enter .s5)
    rcases hp : parseInterRefresh (s.enter .s5) with ⟨c, t⟩ | t <;> rw [hp] at hk
    · exact ⟨(enter_kept _ s).trans hk.1, hk.2⟩
    · exact (enter_kept _ s).trans hk

/-- How the coded elements can end: in `S5`, or after `S6M`. -/
theorem parseElements_cases (s : State) :
    (∃ e, parseRefresh (parseFrontElements s) = .error e ∧ parseElements s = .error e) ∨
    (∃ t, parseRefresh (parseFrontElements s) = .ok t ∧ parseElements s = .ok (parseBackElements t)) := by
  rcases h : parseRefresh (parseFrontElements s) with e | t
  · exact .inl ⟨e, rfl, by simp only [parseElements, h]; rfl⟩
  · exact .inr ⟨t, rfl, by simp only [parseElements, h]; rfl⟩

theorem parseElements_keeps (s : State) : (parseElements s).Keeps s := by
  have hf := parseFrontElements_kept s
  have hr := parseRefresh_keeps (parseFrontElements s)
  rcases parseElements_cases s with ⟨⟨c, t⟩, h, e⟩ | ⟨t, h, e⟩ <;> rw [e] <;> rw [h] at hr
  · exact ⟨hf.trans hr.1, hr.2⟩
  · exact hf.trans (hr.trans (parseBackElements_kept t))

/-- The layout fails with one of two causes. -/
theorem layout_error {zb : Bool} {len d0 rel : Nat} {sizes : List Nat} {c : Cause}
    (h : layout zb len d0 rel sizes = .error c) : c = .partZeroSize ∨ c = .partOverflow := by
  induction sizes generalizing rel with
  | nil => simp [layout] at h
  | cons size rest ih =>
    simp only [layout] at h
    split at h
    · exact .inl (by simpa using h.symm)
    · split at h
      · exact .inr (by simpa using h.symm)
      · split at h
        · rename_i hl
          rw [Except.error.injEq] at h
          exact ih (h ▸ hl)
        · simp at h

theorem parsePartitions_keeps (s : State) : (parsePartitions s).Keeps s := by
  simp only [parsePartitions]
  split
  · rename_i c he
    refine ⟨by constructor <;> simp, ?_⟩
    simp only [extractLayout] at he
    split at he
    · rw [Except.error.injEq] at he; rw [← he]; rfl
    · rcases layout_error he with rfl | rfl <;> rfl
  · constructor <;> simp

theorem reportPos_kept (s : State) : Kept s s.reportPos := by constructor <;> simp

/-- Everything of `FH.PARSE` before its completion keeps those registers and raises `BrokenData` causes only. -/
theorem parseFrame_keeps (s : State) : (parseFrame s).Keeps s.beginParse :=
  (parsePrefix_keeps _).bind fun t => (parseElements_keeps t).bind fun u => by
    have h := parsePartitions_keeps u.reportPos
    rcases hp : parsePartitions u.reportPos with ⟨c, v⟩ | v <;> rw [hp] at h
    · exact ⟨(reportPos_kept u).trans h.1, h.2⟩
    · exact (reportPos_kept u).trans h

/-- The five ways `FH.PARSE` can end. -/
theorem execFhParse_cases (s : State) :
    (s.argNull = true ∧ execFhParse s = .next (s.failParse .nullBuffer)) ∨
    (s.argNull = false ∧ s.argLen = 0 ∧ execFhParse s = .next (s.failParse .zeroSize)) ∨
    (s.argNull = false ∧ s.argLen ≠ 0 ∧ s.bufferFits = false ∧ execFhParse s = .refused .bufferBeyondAddressSpace) ∨
    (s.CallerGood ∧ ∃ t, parseFrame s = .ok t ∧ execFhParse s = .next t.commit) ∨
    (s.CallerGood ∧ ∃ c t, parseFrame s = .error (c, t) ∧ execFhParse s = .next (t.failParse c)) := by
  by_cases hn : s.argNull = true
  · exact .inl ⟨hn, by simp only [execFhParse, if_pos hn]⟩
  · have hn' : s.argNull = false := by simpa using hn
    by_cases hz : s.argLen = 0
    · exact .inr (.inl ⟨hn', hz, by rw [execFhParse, if_neg hn, if_pos hz]⟩)
    · by_cases hb : s.bufferFits = true
      · rcases hp : parseFrame s with ⟨c, t⟩ | t
        · exact .inr (.inr (.inr (.inr ⟨⟨hn', hz, hb⟩, c, t, rfl, by rw [execFhParse, if_neg hn, if_neg hz, if_pos hb, hp]⟩)))
        · exact .inr (.inr (.inr (.inl ⟨⟨hn', hz, hb⟩, t, rfl, by rw [execFhParse, if_neg hn, if_neg hz, if_pos hb, hp]⟩)))
      · have hb' : s.bufferFits = false := by simpa using hb
        exact .inr (.inr (.inl ⟨hn', hz, hb', by rw [execFhParse, if_neg hn, if_neg hz, if_neg hb]⟩))

end Sys2Proof.Machine
end

