-- ==== Sys2Proof/Laws/Prefix.lean ====
section
/-! SUPPORT. What S1 of `FH.PARSE` accepts and what it leaves; what a failed `FH.PARSE` leaves; how an accepted frame is
made up. -/

namespace Sys2Proof.Machine

/-- What a failed `FH.PARSE` leaves, in full, by the result of its cause. -/
theorem failParse_error_eq {c : Cause} (h : c.result = .error) (s : State) :
    s.failParse c =
      { s with
        result := .error, fhr := (Config.freeFhr s.draws).hold s.cfg, pt := Config.freePt s.draws
        posByte := Config.freePosByte s.draws, posBit := Config.freePosBit s.draws
        fhrValid := false, draws := s.draws + 1, fh := { s.fh with phase := .idle } } := by
  rw [State.failParse_error h]; simp only [State.outputsAny]

theorem failParse_brokenData_eq {c : Cause} (h : c.result = .brokenData) (s : State) :
    s.failParse c =
      { s with
        result := .brokenData, pcs := s.pcsAfterFailure, bd := closedBd s.draws
        fhr := (Config.freeFhr s.draws).hold s.cfg, pt := Config.freePt s.draws
        posByte := Config.freePosByte s.draws, posBit := Config.freePosBit s.draws
        fhrValid := false, draws := s.draws + 1, fh := { s.fh with phase := .idle } } := by
  rw [State.failParse_brokenData h]; simp only [State.outputsAny]

theorem parseFrame_ok_kept {s t : State} (h : parseFrame s = .ok t) : Kept s.beginParse t := by
  have hk := parseFrame_keeps s; rw [h] at hk; exact hk

theorem parseFrame_error_kept {s t : State} {c : Cause} (h : parseFrame s = .error (c, t)) :
    Kept s.beginParse t ∧ c.result = .brokenData := by
  have hk := parseFrame_keeps s; rw [h] at hk; exact hk

/-- The frame tag as a number (30_encoding R86). -/
theorem tag_toNat (s : State) :
    s.tag.toNat = (s.frameByte 0).toNat + 256 * (s.frameByte 1).toNat + 65536 * (s.frameByte 2).toNat := by
  simp only [State.tag, Memory.read24, toNat_append_add, State.frameByte, Nat.add_zero]; omega

/-- The frame type bit (30_encoding R86). -/
theorem keyFrame_iff (s : State) : (!s.tag.getLsbD 0) = true ↔ s.isKeyframe := by
  simp only [BitVec.getLsbD, State.isKeyframe, Nat.testBit_zero, Bool.not_eq_true', decide_eq_false_iff_not]
  omega

/-- When the tag is accepted. -/
theorem parseTag_ok_iff (s : State) :
    (3 ≤ s.argLen.toNat ∧ (s.cfg.tagBit3Policy = .versionMsb → s.tag.toNat / 2 % 8 ≤ 3)) ↔
      parseTag s = .ok s.setTag := by
  simp only [parseTag]
  have hv : versionBroken s.cfg s.tag = false ↔
      (s.cfg.tagBit3Policy = .versionMsb → s.tag.toNat / 2 % 8 ≤ 3) := by
    simp only [versionBroken]
    cases h : s.cfg.tagBit3Policy
    · simp
    · simp [BitVec.extractLsb'_toNat, Nat.shiftRight_eq_div_pow]
  by_cases h3 : s.argLen.toNat < 3
  · rw [if_pos h3]; exact ⟨fun h => absurd h.1 (by omega), fun h => by simp at h⟩
  · rw [if_neg h3, ← hv]
    cases hb : versionBroken s.cfg s.tag
    · simp only [Bool.false_eq_true, if_false, and_true, iff_true]; omega
    · simp

/-- The state after an accepted prefix. -/
def prefixState (s : State) : State :=
  if s.isKeyframe then s.setTag.keyExtension.setFirstPartOffset.openFirstPart
  else s.setTag.setFirstPartOffset.openFirstPart

/-- `S1` accepts exactly the good prefixes. -/
theorem parsePrefix_cases (s : State) :
    (s.PrefixGood ∧ parsePrefix s = .ok (prefixState s)) ∨
      (¬ s.PrefixGood ∧ ∃ c t, parsePrefix s = .error (c, t)) := by
  by_cases h1 : 3 ≤ s.argLen.toNat ∧ (s.cfg.tagBit3Policy = .versionMsb → s.tag.toNat / 2 % 8 ≤ 3)
  · have ht := (parseTag_ok_iff s).1 h1
    have hkf : s.setTag.fhr.keyFrame = true ↔ s.isKeyframe := by simp only [State.setTag_fhr]; exact keyFrame_iff s
    have hfps : s.setTag.fhr.firstPartSize.toNat = s.tag.toNat / 32 := by
      simp only [State.setTag_fhr, BitVec.extractLsb'_toNat, Nat.shiftRight_eq_div_pow]
      have := s.tag.isLt
      omega
    by_cases hk : s.isKeyframe
    · have hkt := hkf.2 hk
      by_cases hgood : s.PrefixGood
      · left; refine ⟨hgood, ?_⟩
        obtain ⟨_, _, hkk, hde⟩ := hgood
        obtain ⟨h10, hs3, hs4, hs5⟩ := hkk hk
        have hsc : s.setTag.startCodeOk = true := by
          simp only [State.startCodeOk, Bool.and_eq_true, beq_iff_eq]
          exact ⟨⟨hs3, hs4⟩, hs5⟩
        have e2 : parseKeyExtension s.setTag = .ok s.setTag.keyExtension.setFirstPartOffset := by
          simp only [parseKeyExtension, hkt, if_true, hsc]
          rw [if_neg]
          show ¬ s.argLen.toNat < 10
          omega
        have e3 : checkFirstPart s.setTag.keyExtension.setFirstPartOffset =
            .ok s.setTag.keyExtension.setFirstPartOffset := by
          simp only [checkFirstPart]
          rw [if_neg]
          rw [State.declaredEnd, if_pos hk] at hde
          have : s.setTag.keyExtension.setFirstPartOffset.fhr.firstPartEnd = 10 + s.tag.toNat / 32 := by
            show 10 + s.setTag.fhr.firstPartSize.toNat = _
            rw [hfps]
          rw [this]
          show ¬ s.argLen.toNat < _
          omega
        simp only [parsePrefix, ht, bind, Except.bind, e2, e3, pure, Except.pure, prefixState, if_pos hk]
      · right; refine ⟨hgood, ?_⟩
        by_cases h10 : s.argLen.toNat < 10
        · refine ⟨.shortFrame, s.setTag, ?_⟩
          have e2 : parseKeyExtension s.setTag = .error (.shortFrame, s.setTag) := by
            simp only [parseKeyExtension, hkt, if_true]
            rw [if_pos]; exact h10
          simp only [parsePrefix, ht, bind, Except.bind, e2]
        · by_cases hsc : s.setTag.startCodeOk = true
          · have e2 : parseKeyExtension s.setTag = .ok s.setTag.keyExtension.setFirstPartOffset := by
              simp only [parseKeyExtension, hkt, if_true, hsc]
              rw [if_neg]; exact h10
            have e3 : checkFirstPart s.setTag.keyExtension.setFirstPartOffset =
                .error (.firstPartOverflow, s.setTag.keyExtension.setFirstPartOffset) := by
              simp only [checkFirstPart]
              rw [if_pos]
              have : s.setTag.keyExtension.setFirstPartOffset.fhr.firstPartEnd = 10 + s.tag.toNat / 32 := by
                show 10 + s.setTag.fhr.firstPartSize.toNat = _
                rw [hfps]
              rw [this]
              show s.argLen.toNat < _
              by_contra hcon
              apply hgood
              simp only [State.startCodeOk, Bool.and_eq_true, beq_iff_eq] at hsc
              refine ⟨h1.1, h1.2, fun _ => ⟨by omega, hsc.1.1, hsc.1.2, hsc.2⟩, ?_⟩
              rw [State.declaredEnd, if_pos hk]; omega
            refine ⟨.firstPartOverflow, s.setTag.keyExtension.setFirstPartOffset, ?_⟩
            simp only [parsePrefix, ht, bind, Except.bind, e2, e3]
          · refine ⟨.badStartCode, s.setTag, ?_⟩
            have e2 : parseKeyExtension s.setTag = .error (.badStartCode, s.setTag) := by
              simp only [parseKeyExtension, hkt, if_true]
              rw [if_neg, if_neg hsc]; exact h10
            simp only [parsePrefix, ht, bind, Except.bind, e2]
    · have hkt : s.setTag.fhr.keyFrame = false := by
        cases h : s.setTag.fhr.keyFrame
        · rfl
        · exact absurd (hkf.1 h) hk
      have e2 : parseKeyExtension s.setTag = .ok s.setTag.setFirstPartOffset := by
        simp only [parseKeyExtension, hkt, Bool.false_eq_true, if_false]
      have hend : s.setTag.setFirstPartOffset.fhr.firstPartEnd = 3 + s.tag.toNat / 32 := by
            show 3 + s.setTag.fhr.firstPartSize.toNat = _
            rw [hfps]
      have hde : s.declaredEnd = 3 + s.tag.toNat / 32 := by rw [State.declaredEnd, if_neg hk]
      by_cases hl : 3 + s.tag.toNat / 32 ≤ s.argLen.toNat
      · left
        refine ⟨⟨h1.1, h1.2, fun h => absurd h hk, by omega⟩, ?_⟩
        have e3 : checkFirstPart s.setTag.setFirstPartOffset = .ok s.setTag.setFirstPartOffset := by
          simp only [checkFirstPart]; rw [if_neg]; rw [hend]; show ¬ s.argLen.toNat < _; omega
        simp only [parsePrefix, ht, bind, Except.bind, e2, e3, pure, Except.pure, prefixState, if_neg hk]
      · right
        refine ⟨fun h => hl (by have := h.2.2.2; omega), .firstPartOverflow, s.setTag.setFirstPartOffset, ?_⟩
        have e3 : checkFirstPart s.setTag.setFirstPartOffset =
            .error (.firstPartOverflow, s.setTag.setFirstPartOffset) := by
          simp only [checkFirstPart]; rw [if_pos]; rw [hend]; show s.argLen.toNat < _; omega
        simp only [parsePrefix, ht, bind, Except.bind, e2, e3]
  · right
    refine ⟨fun h => h1 ⟨h.1, h.2.1⟩, ?_⟩
    have ht : parseTag s ≠ .ok s.setTag := fun h => h1 ((parseTag_ok_iff s).2 h)
    simp only [parseTag] at ht
    split at ht
    · rename_i h; exact ⟨_, _, by simp only [parsePrefix, parseTag, if_pos h]; rfl⟩
    · rename_i h
      split at ht
      · rename_i h'; exact ⟨_, _, by simp only [parsePrefix, parseTag, if_neg h, if_pos h']; rfl⟩
      · exact absurd rfl ht

/-- A failure of `S1` is the failure of the frame. -/
theorem parseFrame_of_prefix_error {s : State} {e : Cause × State} (h : parsePrefix s.beginParse = .error e) :
    parseFrame s = .error e := by
  simp only [parseFrame, h, bind, Except.bind]

theorem parseFrame_of_prefix {s u : State} (h : parsePrefix s.beginParse = .ok u) :
    parseFrame s = (parseElements u >>= fun v => parsePartitions v.reportPos) := by
  simp only [parseFrame, h, bind, Except.bind]

/-- An accepted frame: an accepted prefix, accepted elements and an accepted layout. -/
theorem parseFrame_ok {s t : State} (h : parseFrame s = .ok t) :
    ∃ v entries, s.PrefixGood ∧ parseElements (prefixState s.beginParse) = .ok v ∧
      extractLayout v.cfg.zeroSizePartBroken v.fb v.argBase.toNat v.argLen.toNat v.fhr.firstPartEnd
        v.fhr.numOfDctPartitions.toNat = .ok entries ∧
      t = v.reportPos.enterPartitions.setPt
        (ptOf v.fhr.numOfDctPartitions entries (Config.freePt v.reportPos.draws).entry) := by
  rcases parsePrefix_cases s.beginParse with ⟨hg, e⟩ | ⟨-, c, u, e⟩
  · rw [parseFrame_of_prefix e] at h
    rcases hv : parseElements (prefixState s.beginParse) with x | v <;> rw [hv] at h
    · simp [bind, Except.bind] at h
    · simp only [bind, Except.bind, parsePartitions, State.reportPos_cfg, State.reportPos_fb, State.reportPos_argBase,
        State.reportPos_argLen, State.reportPos_fhr] at h
      split at h
      · simp at h
      · rename_i entries he
        exact ⟨v, entries, hg, rfl, he, by simpa using h.symm⟩
  · rw [parseFrame_of_prefix_error e] at h; simp at h

end Sys2Proof.Machine
end

