-- ==== Sys2Proof/Laws/Header.lean ====
section
/-! SUPPORT. What the coded elements leave in `FHR`, PCS and W; the partition table's entries; the two ways `FH.PARSE` ends
past the caller's contract. -/

namespace Sys2Proof.Machine

/-! ### The conditional passes: all they write of `FHR` -/

theorem parseColor_fhr (s : State) :
    (parseColor s).fhr =
      { s.fhr with
        colorSpace := (parseColor s).fhr.colorSpace, clampingType := (parseColor s).fhr.clampingType } := by
  simp only [parseColor]; split
  · simp only [State.decoding, State.setColor_fhr]
  · rfl

theorem parseInterProbs_fhr (s : State) :
    (parseInterProbs s).fhr =
      { s.fhr with
        probIntra := (parseInterProbs s).fhr.probIntra, probLast := (parseInterProbs s).fhr.probLast
        probGf := (parseInterProbs s).fhr.probGf } := by
  simp only [parseInterProbs]; split
  · rfl
  · simp only [State.decoding, State.setInterProbs_fhr]

theorem parseRefresh_fhr {s t : State} (h : parseRefresh s = .ok t) :
    t.fhr =
      { s.fhr with
        refresh := t.fhr.refresh, refreshEntropyProbs := t.fhr.refreshEntropyProbs
        refreshLast := t.fhr.refreshLast } := by
  rcases parseRefresh_cases s with ⟨_, e⟩ | ⟨_, e⟩ <;> rw [e] at h
  · simp only [Except.ok.injEq] at h; subst h; simp
  · simp only [parseInterRefresh] at h
    split at h
    · simp at h
    · simp only [Except.ok.injEq] at h; subst h; simp

theorem parseRefresh_rest {s t : State} (h : parseRefresh s = .ok t) :
    t.pcs = s.pcs ∧ t.w = s.w ∧ t.pt = s.pt ∧ t.posByte = s.posByte ∧ t.posBit = s.posBit ∧ t.draws = s.draws := by
  rcases parseRefresh_cases s with ⟨_, e⟩ | ⟨_, e⟩ <;> rw [e] at h
  · simp only [Except.ok.injEq] at h; subst h; simp
  · simp only [parseInterRefresh] at h
    split at h
    · simp at h
    · simp only [Except.ok.injEq] at h; subst h; simp

/-! ### All elements -/

/-- What the elements do not write. -/
theorem parseElements_rest {s t : State} (h : parseElements s = .ok t) :
    Kept s t ∧ t.pcs.entropy = s.pcs.entropy ∧ t.pt = s.pt ∧ t.posByte = s.posByte ∧ t.posBit = s.posBit ∧
      t.draws = s.draws := by
  have hk := parseElements_keeps s
  rw [h] at hk
  refine ⟨hk, ?_⟩
  rcases parseElements_cases s with ⟨e, _, he⟩ | ⟨u, hu, he⟩ <;> rw [he] at h
  · simp at h
  · simp only [Except.ok.injEq] at h; subst h
    have hk := parseRefresh_rest hu
    simp [parseBackElements, hk, parseFrontElements]

/-- What the elements write, each by the read that gives it and the state `a`, `b`, `c`, `d` it is read in: after S2, after
S3, after S4, after S5. -/
theorem parseElements_values {s v : State} (h : parseElements s = .ok v) :
    ∃ a b c d : State, a = parseSegmentation (parseColor s) ∧ b = parseLoopFilter a ∧
      c = parseQuant (parsePartCount b) ∧ parseRefresh c = .ok d ∧ v = parseBackElements d ∧
      v.fhr.keyFrame = s.fhr.keyFrame ∧ v.fhr.firstPartSize = s.fhr.firstPartSize ∧
      v.fhr.firstPartOffset = s.fhr.firstPartOffset ∧
      v.fhr.updateMbSegmentationMap = (segHeader s.cfg s.fb s.pcs.seg (parseColor s).bd).1.2.1 ∧
      v.fhr.updateSegmentFeatureData = (segHeader s.cfg s.fb s.pcs.seg (parseColor s).bd).1.2.2 ∧
      v.pcs.seg = (segHeader s.cfg s.fb s.pcs.seg (parseColor s).bd).1.1 ∧
      v.pcs.lf = (lfHeader s.cfg s.fb s.pcs.lf a.bd).1.1 ∧
      v.fhr.lfDeltaUpdate = (lfHeader s.cfg s.fb s.pcs.lf a.bd).1.2 ∧
      v.fhr.numOfDctPartitions = BitVec.ofNat 4 (1 <<< (lit s.fb s.cfg.partCntBits b.bd).1) ∧
      v.fhr.quant = (quantHeader s.cfg s.fb (parsePartCount b).bd).1 ∧
      v.fhr.refresh = d.fhr.refresh ∧ v.fhr.refreshEntropyProbs = d.fhr.refreshEntropyProbs ∧
      v.fhr.refreshLast = d.fhr.refreshLast ∧
      v.fhr.mbNoSkipCoeff = (skipHeader d.fb (parseTokenProbs d).bd).1.1 ∧
      v.fhr.probSkipFalse = (skipHeader d.fb (parseTokenProbs d).bd).1.2 := by
  rcases parseElements_cases s with ⟨e, _, he⟩ | ⟨d, hd, he⟩ <;> rw [he] at h
  · simp at h
  · simp only [Except.ok.injEq] at h; subst h
    have hk := parseRefresh_rest hd
    have hf := parseRefresh_fhr hd
    simp only [parseFrontElements] at hd hk hf
    refine ⟨_, _, _, d, rfl, rfl, rfl, hd, rfl, ?_⟩
    simp only [parseBackElements, parseMvProbs_fhr, parseIntraProbs_fhr, parseMvProbs_pcs, parseIntraProbs_pcs,
      parseInterProbs_pcs, parseSkip_pcs, parseTokenProbs_pcs, hk.1]
    rw [parseInterProbs_fhr]
    simp only [parseSkip_fhr, parseTokenProbs_fhr, parseTokenProbs_fb]
    generalize d.fhr.refresh = r at *
    generalize d.fhr.refreshEntropyProbs = r2 at *
    generalize d.fhr.refreshLast = r3 at *
    rw [hf]
    simp
    rw [parseColor_fhr]
    simp

/-- The fields that `S1` writes of `FHR` and no later pass does (41_frame_header R153, R154). -/
structure SameTag (g h : Fhr) : Prop where
  keyFrame : h.keyFrame = g.keyFrame
  version : h.version = g.version
  showFrame : h.showFrame = g.showFrame
  firstPartSize : h.firstPartSize = g.firstPartSize
  firstPartOffset : h.firstPartOffset = g.firstPartOffset
  width : h.width = g.width
  height : h.height = g.height
  horizontalScale : h.horizontalScale = g.horizontalScale
  verticalScale : h.verticalScale = g.verticalScale

theorem parseElements_sameTag {s v : State} (h : parseElements s = .ok v) : SameTag s.fhr v.fhr := by
  rcases parseElements_cases s with ⟨e, _, he⟩ | ⟨d, hd, he⟩ <;> rw [he] at h
  · simp at h
  · simp only [Except.ok.injEq] at h; subst h
    have hf := parseRefresh_fhr hd
    simp only [parseFrontElements] at hf
    simp only [parseBackElements, parseMvProbs_fhr, parseIntraProbs_fhr]
    rw [parseInterProbs_fhr]
    simp only [parseSkip_fhr, parseTokenProbs_fhr]
    generalize d.fhr.refresh = r at *
    generalize d.fhr.refreshEntropyProbs = r2 at *
    generalize d.fhr.refreshLast = r3 at *
    rw [hf]
    simp only [parseQuant_fhr, parsePartCount_fhr, parseLoopFilter_fhr, parseSegmentation_fhr]
    rw [parseColor_fhr]
    constructor <;> rfl

/-! ### The state after S1 -/

theorem prefixState_kept (s : State) : Kept s (prefixState s) := by
  simp only [prefixState]; split <;> constructor <;> simp

theorem prefixState_w (s : State) : (prefixState s).w = (prefixState s).pcs.entropy := by
  simp only [prefixState]; split <;> simp

theorem prefixState_draws (s : State) : (prefixState s).draws = s.draws := by
  simp only [prefixState]; split <;> simp

/-! ### The partition table -/

theorem layout_length {zb : Bool} {len d0 rel : Nat} {sizes : List Nat} {r : List PtEntry}
    (h : layout zb len d0 rel sizes = .ok r) : r.length = sizes.length + 1 := by
  induction sizes generalizing rel r with
  | nil => simp [layout] at h; subst h; rfl
  | cons x xs ih =>
    simp only [layout] at h
    split at h
    · simp at h
    · split at h
      · simp at h
      · split at h
        · simp at h
        · rename_i ent he
          simp only [Except.ok.injEq] at h; subst h
          simp [ih he]

/-- Entry `i` of an accepted layout. -/
theorem layout_entry {zb : Bool} {len d0 rel : Nat} {sizes : List Nat} {r : List PtEntry}
    (h : layout zb len d0 rel sizes = .ok r) (i : Nat) (hi : i ≤ sizes.length) :
    r[i]? = some (ptEntry d0 (rel + (sizes.take i).sum)
      (if i < sizes.length then sizes[i]! else len - (d0 + rel + sizes.sum))) := by
  induction sizes generalizing rel r i with
  | nil => simp [layout] at h; subst h; simp at hi; subst hi; simp
  | cons x xs ih =>
    simp only [layout] at h
    split at h
    · simp at h
    · split at h
      · simp at h
      · split at h
        · simp at h
        · rename_i ent he
          simp only [Except.ok.injEq] at h; subst h
          cases i with
          | zero => simp
          | succ i =>
            have := ih he i (by simpa using hi)
            simp only [List.getElem?_cons_succ, this]
            simp [Nat.add_assoc]

/-- An entry of `PT` below the count is the layout's. -/
theorem ptOf_entry (n : BitVec 4) (entries : List PtEntry) (rest : Vector PtEntry 8) (i : Fin 8)
    (h : i.val < entries.length) : some (ptOf n entries rest).entry[i] = entries[i.val]? := by
  simp [ptOf, List.getD_eq_getElem?_getD, List.getElem?_eq_getElem h]

/-! ### The command -/

theorem exec_fhParse (s : State) : exec .fhParse s = execFhParse s := rfl

theorem execFhParse_of_good {s : State} (h : s.CallerGood) :
    execFhParse s =
      match parseFrame s with
      | .ok t => .next t.commit
      | .error (c, t) => .next (t.failParse c) := by
  obtain ⟨h1, h2, h3⟩ := h
  cases e : parseFrame s <;> simp only [execFhParse, h1, h2, h3, e, Bool.false_eq_true, if_false, if_true]

/-- An `FH.PARSE` with `Ok` is the commit of an accepted frame. -/
theorem exec_fhParse_ok {s t : State} (he : exec .fhParse s = .next t) (ht : t.result = .ok) :
    s.CallerGood ∧ ∃ p, parseFrame s = .ok p ∧ t = p.commit := by
  rcases execFhParse_cases s with ⟨h, e⟩ | ⟨_, h, e⟩ | ⟨_, _, _, e⟩ | ⟨hg, u, hu, e⟩ | ⟨_, c, u, hu, e⟩
  all_goals simp only [exec, e, Host.Outcome.next.injEq, reduceCtorEq] at he
  all_goals subst he
  · rw [failParse_error_eq rfl] at ht; simp at ht
  · rw [failParse_error_eq rfl] at ht; simp at ht
  · exact ⟨hg, u, hu, rfl⟩
  · rw [failParse_brokenData_eq (parseFrame_error_kept hu).2] at ht; simp at ht

/-- An `FH.PARSE` past the caller's contract in which a pass raises completes with `BrokenData`. -/
theorem exec_fhParse_of_error {s t : State} {c : Cause} (hg : s.CallerGood) (h : parseFrame s = .error (c, t)) :
    ∃ t', exec .fhParse s = .next t' ∧ t'.result = .brokenData ∧ t'.fhrValid = false := by
  rw [exec_fhParse, execFhParse_of_good hg, h]
  refine ⟨_, rfl, ?_⟩
  rw [failParse_brokenData_eq (parseFrame_error_kept h).2]
  exact ⟨rfl, rfl⟩

end Sys2Proof.Machine
end

