-- ==== Sys2Proof/Laws/Elements.lean ====
section
/-! SUPPORT. The coded elements of a header: the readers of the model against the walks of Safety.lean, and the passes of
`FH.PARSE` against the elements read in the order of 41_frame_header R160. -/

namespace Sys2Proof.Machine

variable {α β : Type}

/-! ### Walks -/

theorem readIf_pos {c : Prop} [Decidable c] (h : c) (x : α) (rd : Bd → α × Bd) (d : Bd) : readIf c x rd d = rd d :=
  if_pos h

theorem readIf_neg {c : Prop} [Decidable c] (h : ¬ c) (x : α) (rd : Bd → α × Bd) (d : Bd) : readIf c x rd d = (x, d) :=
  if_neg h

theorem litField_prob (fb : Memory) (d : Bd) : litField fb 8 8 d = readProb fb d := by
  simp only [litField, readProb, Rd.bind_apply, Rd.pure_apply]

/-- Entries behind presence bits are a presence walk. -/
theorem eachL_updateAt (fb : Memory) (rd : Rd α) (l : List (Prob × α)) (d : Bd) :
    eachL (fun p o => updateAt fb p rd o) l d = presenceWalk fb rd l d := by
  induction l generalizing d with
  | nil => rfl
  | cons po rest ih =>
    simp only [eachL, presenceWalk, Rd.bind_apply, Rd.pure_apply, updateAt_apply, ih]

/-- The same with one probability for all entries and a value in place of an absent one. -/
theorem eachL_updateAt_zip (fb : Memory) (p : Prob) (rd : Rd α) (g : α → α) (l : List α) (d : Bd) :
    eachL (fun _ o => updateAt fb p rd (g o)) (l.zip l) d = presenceWalk fb rd (l.map fun o => (p, g o)) d := by
  induction l generalizing d with
  | nil => rfl
  | cons o rest ih =>
    simp only [List.zip_cons_cons, List.map_cons, eachL, presenceWalk, Rd.bind_apply, Rd.pure_apply, updateAt_apply, ih]

theorem each_updateAt {n : Nat} (fb : Memory) (p : Prob) (rd : Rd α) (g : α → α) (v : Vector α n) (d : Bd) :
    (each (fun o => updateAt fb p rd (g o)) v d).1.toList = (presenceWalk fb rd (v.toList.map fun o => (p, g o)) d).1 ∧
      (each (fun o => updateAt fb p rd (g o)) v d).2 = (presenceWalk fb rd (v.toList.map fun o => (p, g o)) d).2 := by
  rw [← eachL_updateAt_zip]
  exact ⟨rfl, rfl⟩

theorem eachL_litField (fb : Memory) (l : List (Prob × Prob)) (d : Bd) :
    eachL (fun _ _ => litField fb 8 8) l d = probWalk fb l.length d := by
  induction l generalizing d with
  | nil => rfl
  | cons po rest ih =>
    simp only [eachL, probWalk, Rd.bind_apply, Rd.pure_apply, litField_prob, ih, List.length_cons]

theorem eachL_append (f : α → β → Rd β) (l m : List (α × β)) (d : Bd) :
    eachL f (l ++ m) d =
      ((eachL f l d).1 ++ (eachL f m (eachL f l d).2).1, (eachL f m (eachL f l d).2).2) := by
  induction l generalizing d with
  | nil => rfl
  | cons ab rest ih => simp only [List.cons_append, eachL, Rd.bind_apply, Rd.pure_apply, ih]

/-- A table of rows is walked row by row. -/
theorem eachL_eachV {m : Nat} (f : α → β → Rd β) (ps : List (Vector α m)) (old : List (Vector β m)) (d : Bd)
    (h : ps.length = old.length) :
    (eachL (eachV f) (ps.zip old) d).1.flatMap (·.toList) =
        (eachL f ((ps.flatMap (·.toList)).zip (old.flatMap (·.toList))) d).1 ∧
      (eachL (eachV f) (ps.zip old) d).2 =
        (eachL f ((ps.flatMap (·.toList)).zip (old.flatMap (·.toList))) d).2 := by
  induction ps generalizing old d with
  | nil => cases old <;> exact ⟨rfl, rfl⟩
  | cons p ps ih =>
    cases old with
    | nil => simp at h
    | cons o old =>
      have hz : ((p :: ps).flatMap (·.toList)).zip ((o :: old).flatMap (·.toList)) =
          p.toList.zip o.toList ++ (ps.flatMap (·.toList)).zip (old.flatMap (·.toList)) := by
        simp only [List.flatMap_cons]
        exact List.zip_append (by simp)
      obtain ⟨h1, h2⟩ := ih old (eachV f p o d).2 (by simpa using h)
      rw [hz, eachL_append]
      simp only [eachV_snd] at h1 h2
      simp only [List.zip_cons_cons, eachL, Rd.bind_apply, Rd.pure_apply, List.flatMap_cons, eachV_toList, eachV_snd, h1,
        h2]
      exact ⟨trivial, trivial⟩

/-! ### The refresh fields -/

theorem copyMode_apply (fb : Memory) (b : Bool) (d : Bd) :
    copyMode fb b d =
      (BitVec.ofNat 2 (readIf (b = false) 0 (lit fb 2) d).1, (readIf (b = false) 0 (lit fb 2) d).2) := by
  cases b
  · simp only [copyMode, readIf_pos, litField, Rd.bind_apply, Rd.pure_apply, Bool.false_eq_true, if_false]
  · simp only [copyMode, Bool.true_eq_false, not_false_eq_true, readIf_neg, Rd.pure_apply, if_true,
      BitVec.ofNat_eq_ofNat]

theorem refreshLast_apply (c : Params) (fb : Memory) (absent : Bool) (d : Bd) :
    refreshLast c fb absent d = readIf (c.gkRows = true) absent (decodeBool fb 128) d := by
  by_cases h : c.gkRows = true
  · simp only [refreshLast, if_pos h, readIf_pos h, flag]
  · simp only [refreshLast, if_neg h, readIf_neg h, Rd.pure_apply]

/-- Rows 21 to 28 of an interframe: what the pass reads where it raises nothing. -/
theorem interRefresh_values {c : Params} {fb : Memory} {absent : Bool} {d : Bd} {r : Refresh × Bool × Bool}
    (h : (interRefresh c fb absent d).1 = .ok r) :
    let golden := decodeBool fb 128 d
    let alternate := decodeBool fb 128 golden.2
    let toGolden := readIf (golden.1 = false) 0 (lit fb 2) alternate.2
    let toAlternate := readIf (alternate.1 = false) 0 (lit fb 2) toGolden.2
    let biasGolden := decodeBool fb 128 toAlternate.2
    let biasAlternate := decodeBool fb 128 biasGolden.2
    let entropy := decodeBool fb 128 biasAlternate.2
    let last := readIf (c.gkRows = true) absent (decodeBool fb 128) entropy.2
    r = (⟨golden.1, alternate.1, BitVec.ofNat 2 toGolden.1, BitVec.ofNat 2 toAlternate.1, biasGolden.1,
        biasAlternate.1⟩, entropy.1, last.1) ∧ (interRefresh c fb absent d).2 = last.2 := by
  simp only [interRefresh, Rd.bind_apply, flag, Config.litProb, copyMode_apply] at h ⊢
  split at h
  · simp only [Rd.pure_apply, reduceCtorEq] at h
  · rename_i hb
    rw [if_neg hb]
    simp only [Rd.bind_apply, copyMode_apply] at h ⊢
    split at h
    · simp only [Rd.pure_apply, reduceCtorEq] at h
    · rename_i hb'
      rw [if_neg hb']
      simp only [interRefreshTail, Rd.bind_apply, Rd.pure_apply, Except.ok.injEq, flag, refreshLast_apply,
        Config.litProb] at h ⊢
      exact ⟨h.symm, trivial⟩

/-- The pass raises exactly where a copy mode that it reads is 3 and `COPYMODE3_BROKEN` is set. -/
theorem interRefresh_raises {c : Params} {fb : Memory} {absent : Bool} {d : Bd} :
    let golden := decodeBool fb 128 d
    let alternate := decodeBool fb 128 golden.2
    let toGolden := readIf (golden.1 = false) 0 (lit fb 2) alternate.2
    let toAlternate := readIf (alternate.1 = false) 0 (lit fb 2) toGolden.2
    (∃ e, (interRefresh c fb absent d).1 = .error e) ↔
      c.copymode3Broken = true ∧ (BitVec.ofNat 2 toGolden.1 = 3 ∨ BitVec.ofNat 2 toAlternate.1 = 3) := by
  intro golden alternate toGolden toAlternate
  simp only [interRefresh, Rd.bind_apply, flag, Config.litProb, copyMode_apply]
  split
  · rename_i hb
    simp only [copyModeBroken, Bool.and_eq_true, beq_iff_eq] at hb
    exact ⟨fun _ => ⟨hb.1, .inl hb.2⟩, fun _ => ⟨_, rfl⟩⟩
  · rename_i hb
    simp only [Rd.bind_apply, copyMode_apply]
    split
    · rename_i hb'
      simp only [copyModeBroken, Bool.and_eq_true, beq_iff_eq] at hb'
      exact ⟨fun _ => ⟨hb'.1, .inr hb'.2⟩, fun _ => ⟨_, rfl⟩⟩
    · rename_i hb'
      simp only [copyModeBroken, Bool.and_eq_true, beq_iff_eq] at hb hb'
      constructor
      · rintro ⟨e, he⟩
        simp only [Rd.bind_apply, Rd.pure_apply, reduceCtorEq] at he
      · rintro ⟨h3, h | h⟩
        · exact absurd ⟨h3, h⟩ hb
        · exact absurd ⟨h3, h⟩ hb'

theorem skipHeader_apply (fb : Memory) (d : Bd) :
    skipHeader fb d =
      (((decodeBool fb 128 d).1,
        (readIf ((decodeBool fb 128 d).1 = true) 0 (readProb fb) (decodeBool fb 128 d).2).1),
        (readIf ((decodeBool fb 128 d).1 = true) 0 (readProb fb) (decodeBool fb 128 d).2).2) := by
  simp only [skipHeader, flag, Config.litProb, Rd.bind_apply]
  by_cases h : (decodeBool fb 128 d).1 = true
  · rw [if_pos h, readIf_pos h, Rd.bind_apply, Rd.pure_apply, litField_prob, h]
  · rw [if_neg h, readIf_neg h, Rd.pure_apply, Bool.eq_false_iff.2 h]

theorem litFrom_lt (fb : Memory) (n v : Nat) (d : Bd) : (litFrom fb n v d).1 < (v + 1) * 2 ^ n := by
  induction n generalizing v d with
  | zero => simp only [litFrom, Rd.pure_apply]; omega
  | succ n ih =>
    have hb : (decodeBool fb Config.litProb d).1.toNat ≤ 1 := Bool.toNat_le _
    have h := ih (2 * v + (decodeBool fb Config.litProb d).1.toNat) (decodeBool fb Config.litProb d).2
    simp only [litFrom, Rd.bind_apply]
    refine Nat.lt_of_lt_of_le h ?_
    rw [Nat.pow_succ, Nat.mul_comm (2 ^ n) 2, ← Nat.mul_assoc]
    exact Nat.mul_le_mul_right _ (by omega)

theorem lit_lt (fb : Memory) (n : Nat) (d : Bd) : (lit fb n d).1 < 2 ^ n := by
  simpa [lit] using litFrom_lt fb n 0 d

theorem readIf_lit_lt {c : Prop} [Decidable c] (fb : Memory) (n : Nat) (d : Bd) :
    (readIf c 0 (lit fb n) d).1 < 2 ^ n := by
  by_cases h : c
  · rw [readIf_pos h]; exact lit_lt fb n d
  · rw [readIf_neg h]; exact Nat.two_pow_pos n

/-! ### The frame the passes work on -/

/-- What `S1` has opened: the state `u` in which the first element of the frame at `s` is read. -/
structure Opened (s u : State) : Prop where
  fb : u.fb = s.fb
  cfg : u.cfg = s.cfg
  key : u.fhr.keyFrame = true ↔ s.isKeyframe
  pcs : u.pcs = s.pcsIn
  w : u.w = s.pcsIn.entropy
  bd : u.bd = s.headerBd

theorem prefixState_opened (s : State) : Opened s (prefixState s.beginParse) := by
  have hsz : (s.tag.extractLsb' 5 19).setWidth addrWidth = BitVec.ofNat addrWidth (s.tag.toNat / 32) := by
    have hx : (s.tag.extractLsb' 5 19).toNat = s.tag.toNat / 32 := by
      have := s.tag.isLt
      simp only [BitVec.extractLsb'_toNat, Nat.shiftRight_eq_div_pow]
      omega
    apply BitVec.eq_of_toNat_eq
    rw [BitVec.toNat_setWidth, hx, BitVec.toNat_ofNat]
  have hadd : ∀ k : Nat, s.argBase + BitVec.ofNat addrWidth k = BitVec.ofNat addrWidth (s.argBase.toNat + k) := by
    intro k
    apply BitVec.eq_of_toNat_eq
    simp [BitVec.toNat_add, addrWidth]
  by_cases hk : s.isKeyframe
  · have hb : s.beginParse.isKeyframe := hk
    rw [prefixState, if_pos hb]
    refine ⟨rfl, rfl, keyFrame_iff s, (if_pos hk).symm, congrArg Pcs.entropy (if_pos hk).symm, ?_⟩
    rw [State.headerBd, if_pos hk, ← hadd, ← hsz]
    rfl
  · have hb : ¬ s.beginParse.isKeyframe := hk
    rw [prefixState, if_neg hb]
    refine ⟨rfl, rfl, keyFrame_iff s, (if_neg hk).symm, congrArg Pcs.entropy (if_neg hk).symm, ?_⟩
    rw [State.headerBd, if_neg hk, ← hadd, ← hsz]
    rfl

namespace Opened

variable {s u : State}

theorem not_key (h : Opened s u) (hk : ¬ s.isKeyframe) : u.fhr.keyFrame = false := by
  rw [← Bool.not_eq_true, h.key]
  exact hk

/-- Rows 1 and 2. -/
theorem color (h : Opened s u) : (parseColor u).bd = s.readClamping.2 ∧
    (s.isKeyframe → s.cfg.gkRows = true →
      (parseColor u).fhr.colorSpace = s.readSpace.1 ∧ (parseColor u).fhr.clampingType = s.readClamping.1) := by
  by_cases hc : s.isKeyframe ∧ s.cfg.gkRows = true
  · have e : (u.fhr.keyFrame && u.cfg.gkRows) = true := by rw [h.cfg, h.key.2 hc.1, hc.2]; rfl
    simp only [parseColor, if_pos e, State.decoding, State.setColor_bd, State.setColor_fhr, colorHeader, flag,
      Rd.bind_apply, Rd.pure_apply, State.readClamping, State.readSpace, readIf_pos hc, h.fb, h.bd]
    exact ⟨trivial, fun _ _ => ⟨trivial, trivial⟩⟩
  · have e : ¬ (u.fhr.keyFrame && u.cfg.gkRows) = true := by
      rw [h.cfg, Bool.and_eq_true, h.key]
      exact hc
    simp only [parseColor, if_neg e, State.readClamping, State.readSpace, readIf_neg hc, h.bd]
    exact ⟨trivial, fun hk hg => absurd ⟨hk, hg⟩ hc⟩

/-- Rows 1 to 19: where they leave the decoder, and what the rest of the parse meets. -/
theorem front (h : Opened s u) :
    (parseFrontElements u).fb = s.fb ∧ (parseFrontElements u).cfg = s.cfg ∧
      (parseFrontElements u).fhr.keyFrame = u.fhr.keyFrame ∧ (parseFrontElements u).w = s.pcsIn.entropy ∧
      (parseFrontElements u).bd = s.readQuant.2 := by
  refine ⟨by simp [parseFrontElements, h.fb], by simp [parseFrontElements, h.cfg], ?_,
    by simp [parseFrontElements, h.w], ?_⟩
  · simp [parseFrontElements]
    rw [parseColor_fhr]
  · simp only [parseFrontElements, parseQuant_bd, parsePartCount_bd, parsePartCount_cfg, parsePartCount_fb,
      parseLoopFilter_bd, parseLoopFilter_cfg, parseLoopFilter_fb, parseSegmentation_bd, parseSegmentation_cfg,
      parseSegmentation_fb, parseSegmentation_pcs, parseColor_cfg, parseColor_fb, parseColor_pcs, h.color.1, h.fb, h.cfg,
      h.pcs]
    rfl

/-- What rows 1 to 19 store. -/
theorem front_values (h : Opened s u) :
    (s.isKeyframe → s.cfg.gkRows = true →
      (parseFrontElements u).fhr.colorSpace = s.readSpace.1 ∧
        (parseFrontElements u).fhr.clampingType = s.readClamping.1) ∧
    (parseFrontElements u).pcs.seg = s.readSegmentation.1.1 ∧
    (parseFrontElements u).fhr.updateMbSegmentationMap = s.readSegmentation.1.2.1 ∧
    (parseFrontElements u).fhr.updateSegmentFeatureData = s.readSegmentation.1.2.2 ∧
    (parseFrontElements u).pcs.lf = s.readLoopFilter.1.1 ∧
    (parseFrontElements u).fhr.lfDeltaUpdate = s.readLoopFilter.1.2 ∧
    (parseFrontElements u).fhr.numOfDctPartitions = BitVec.ofNat 4 (1 <<< s.readPartCount.1) ∧
    (parseFrontElements u).fhr.quant = s.readQuant.1 := by
  simp only [parseFrontElements, parseQuant_fhr, parseQuant_pcs, parsePartCount_fhr, parsePartCount_pcs, parsePartCount_bd,
    parsePartCount_cfg, parsePartCount_fb, parseLoopFilter_fhr, parseLoopFilter_pcs, parseLoopFilter_bd,
    parseLoopFilter_cfg, parseLoopFilter_fb, parseSegmentation_fhr, parseSegmentation_bd, parseSegmentation_cfg,
    parseSegmentation_fb, parseSegmentation_pcs, parseColor_cfg, parseColor_fb, parseColor_pcs, h.color.1, h.fb, h.cfg,
    h.pcs, State.readSegmentation, State.readLoopFilter, State.readPartCount, State.readQuant]
  exact ⟨h.color.2, trivial, trivial, trivial, trivial, trivial, trivial, trivial⟩

/-- `S5`: where the refresh fields leave the decoder, and their values. -/
theorem refresh (h : Opened s u) {v : State} (hv : parseRefresh (parseFrontElements u) = .ok v) :
    v.fb = s.fb ∧ v.cfg = s.cfg ∧ v.fhr.keyFrame = u.fhr.keyFrame ∧ v.w = s.pcsIn.entropy ∧
      v.bd = s.readRefreshLast.2 ∧
    v.fhr.refresh.golden = s.readGolden.1 ∧ v.fhr.refresh.alternate = s.readAlternate.1 ∧
    v.fhr.refresh.copyToGolden.toNat = s.readCopyGolden.1 ∧
    v.fhr.refresh.copyToAlternate.toNat = s.readCopyAlternate.1 ∧
    v.fhr.refresh.signBiasGolden = s.readBiasGolden.1 ∧ v.fhr.refresh.signBiasAlternate = s.readBiasAlternate.1 ∧
    v.fhr.refreshEntropyProbs = s.readRefreshEntropy.1 ∧
    (s.cfg.gkRows = true ∨ s.isKeyframe → v.fhr.refreshLast = s.readRefreshLast.1) := by
  obtain ⟨f1, f2, f3, f4, f5⟩ := h.front
  by_cases hk : s.isKeyframe
  · have hn : ¬ ¬ s.isKeyframe := not_not_intro hk
    rcases parseRefresh_cases (parseFrontElements u) with ⟨-, e⟩ | ⟨hf, e⟩
    · rw [e, Except.ok.injEq] at hv
      subst hv
      simp only [parseKeyRefresh_fb, parseKeyRefresh_cfg, parseKeyRefresh_fhr, parseKeyRefresh_w, parseKeyRefresh_bd,
        State.enter_fb, State.enter_cfg, State.enter_fhr, State.enter_w, State.enter_bd, f1, f2, f3, f4, f5,
        keyRefreshHeader, keyRefresh, flag, Config.litProb, Rd.bind_apply, Rd.pure_apply, State.readGolden,
        State.readAlternate, State.readCopyGolden, State.readCopyAlternate, State.readBiasGolden,
        State.readBiasAlternate, State.readRefreshEntropy, State.readRefreshLast, readIf_neg hn,
        readIf_neg (show ¬ (¬ s.isKeyframe ∧ s.cfg.gkRows = true) from fun x => hn x.1),
        readIf_neg Bool.true_eq_false_eq_False]
      exact ⟨trivial, trivial, trivial, trivial, trivial, trivial, trivial, rfl, rfl, trivial, trivial, trivial,
        fun _ => trivial⟩
    · rw [f3, h.key.2 hk] at hf
      exact absurd hf (by decide)
  · rcases parseRefresh_cases (parseFrontElements u) with ⟨hf, -⟩ | ⟨-, e⟩
    · rw [f3, h.key] at hf
      exact absurd hf hk
    · rw [e] at hv
      simp only [parseInterRefresh, State.enter_cfg, State.enter_fb, State.enter_fhr, State.enter_bd, f1, f2, f5] at hv
      split at hv
      · simp only [reduceCtorEq] at hv
      · rename_i r hr
        rw [Except.ok.injEq] at hv
        subst hv
        obtain ⟨rfl, hd⟩ := interRefresh_values hr
        simp only [State.setRefresh_fb, State.setRefresh_cfg, State.setRefresh_fhr, State.setRefresh_w,
          State.setRefresh_bd, State.setBd_fb, State.setBd_cfg, State.setBd_fhr, State.setBd_w, State.setBd_bd,
          State.enter_fb, State.enter_cfg, State.enter_fhr, State.enter_w, f1, f2, f3, f4, hd, State.readGolden,
          State.readAlternate, State.readCopyGolden, State.readCopyAlternate, State.readBiasGolden,
          State.readBiasAlternate, State.readRefreshEntropy, State.readRefreshLast, readIf_pos hk]
        by_cases hg : s.cfg.gkRows = true
        · simp only [readIf_pos hg, readIf_pos (show ¬ s.isKeyframe ∧ s.cfg.gkRows = true from ⟨hk, hg⟩),
            BitVec.toNat_ofNat]
          exact ⟨trivial, trivial, trivial, trivial, trivial, trivial, trivial,
            Nat.mod_eq_of_lt (readIf_lit_lt s.fb 2 _), Nat.mod_eq_of_lt (readIf_lit_lt s.fb 2 _), trivial, trivial,
            trivial, fun _ => trivial⟩
        · simp only [readIf_neg hg, readIf_neg (show ¬ (¬ s.isKeyframe ∧ s.cfg.gkRows = true) from fun x => hg x.2),
            BitVec.toNat_ofNat]
          exact ⟨trivial, trivial, trivial, trivial, trivial, trivial, trivial,
            Nat.mod_eq_of_lt (readIf_lit_lt s.fb 2 _), Nat.mod_eq_of_lt (readIf_lit_lt s.fb 2 _), trivial, trivial,
            trivial, fun x => absurd x (not_or.2 ⟨hg, hk⟩)⟩

/-- `S6T` to `S6M`: where they leave the decoder, and what they store. -/
theorem back (h : Opened s u) {v : State} (hv : parseRefresh (parseFrontElements u) = .ok v) :
    (parseBackElements v).bd = s.readMv.2 ∧
    (parseBackElements v).w.coeff = s.readTokenProbs.1 ∧
    (parseBackElements v).fhr.mbNoSkipCoeff = s.readNoSkip.1 ∧
    (parseBackElements v).fhr.probSkipFalse = s.readProbSkip.1 ∧
    (¬ s.isKeyframe → (parseBackElements v).fhr.probIntra = s.readProbIntra.1 ∧
      (parseBackElements v).fhr.probLast = s.readProbLast.1 ∧ (parseBackElements v).fhr.probGf = s.readProbGf.1) ∧
    (parseBackElements v).w.ymode = s.readYmode.1 ∧ (parseBackElements v).w.uvmode = s.readUvmode.1 ∧
    (parseBackElements v).w.mv = s.readMv.1 := by
  obtain ⟨f1, f2, f3, f4, f5, -⟩ := h.refresh hv
  by_cases hk : s.isKeyframe
  · have hn : ¬ ¬ s.isKeyframe := not_not_intro hk
    have hf : v.fhr.keyFrame = true := f3.trans (h.key.2 hk)
    simp only [parseBackElements, parseMvProbs, parseIntraProbs, parseInterProbs, parseSkip_fhr, parseTokenProbs_fhr,
      hf, if_true, parseSkip_bd, parseSkip_w, parseTokenProbs_fb, parseTokenProbs_bd, parseTokenProbs_w, f1, f2, f4, f5,
      skipHeader_apply, State.readMv, State.readUvmode, State.readYmode, State.readProbGf, State.readProbLast,
      State.readProbIntra, readIf_neg hn, State.readProbSkip, State.readNoSkip, State.readTokenProbs]
    exact ⟨rfl, trivial, trivial, rfl, fun x => absurd hk x, trivial, trivial, trivial⟩
  · have hf : v.fhr.keyFrame = false := f3.trans (h.not_key hk)
    simp only [parseBackElements, parseMvProbs, parseIntraProbs, parseInterProbs, parseSkip_fhr, parseTokenProbs_fhr,
      hf, Bool.false_eq_true, if_false, parseSkip_bd, parseSkip_w, parseTokenProbs_fb, parseTokenProbs_bd,
      parseTokenProbs_w, f1, f2, f4, f5,
      skipHeader_apply, State.readMv, State.readUvmode, State.readYmode, State.readProbGf, State.readProbLast,
      State.readProbIntra, readIf_pos hk, State.readProbSkip, State.readNoSkip, State.readTokenProbs, State.decoding,
      parseSkip_fb, parseSkip_cfg, parseTokenProbs_cfg, State.setInterProbs, State.setIntraProbs,
      State.setMvProbs, State.enter,
      interProbs, intraProbs, Rd.bind_apply, Rd.pure_apply, litField_prob]
    exact ⟨rfl, trivial, trivial, rfl, fun _ => ⟨rfl, rfl, rfl⟩, rfl, rfl, rfl⟩

end Opened

/-- An `Ok` frame: the state its elements start in, the state after `S5`, and what the commit shows of the rest. -/
theorem exec_fhParse_opened {s t : State} (he : exec .fhParse s = .next t) (ht : t.result = .ok) :
    ∃ u d, Opened s u ∧ parseRefresh (parseFrontElements u) = .ok d ∧
      t.pcs.seg = (parseBackElements d).pcs.seg ∧ t.pcs.lf = (parseBackElements d).pcs.lf ∧
      t.fhr =
        { (parseBackElements d).fhr with
          seg := (parseBackElements d).pcs.seg, lf := (parseBackElements d).pcs.lf, entropy := (parseBackElements d).w } ∧
      t.posByte = (parseBackElements d).reportPos.posByte ∧ t.posBit = (parseBackElements d).reportPos.posBit := by
  obtain ⟨-, p, hp, rfl⟩ := exec_fhParse_ok he ht
  obtain ⟨v, entries, -, hv, -, rfl⟩ := parseFrame_ok hp
  rcases parseElements_cases (prefixState s.beginParse) with ⟨e, _, h⟩ | ⟨d, hd, h⟩ <;> rw [h] at hv
  · simp only [reduceCtorEq] at hv
  · rw [Except.ok.injEq] at hv
    subst hv
    refine ⟨_, d, prefixState_opened s, hd, ?_⟩
    simp only [State.commit, State.setPt_pcs, State.setPt_fhr, State.setPt_w, State.setPt_posByte, State.setPt_posBit,
      State.enterPartitions_pcs, State.enterPartitions_fhr, State.enterPartitions_w, State.enterPartitions_posByte,
      State.enterPartitions_posBit, State.reportPos_pcs, State.reportPos_fhr, State.reportPos_w]
    exact ⟨trivial, trivial, trivial, trivial, trivial⟩

end Sys2Proof.Machine
end

