-- ==== Sys2Proof/Laws/Memory.lean ====
section
/-! SUPPORT. The laws of the frame buffer: read after write, and that a write keeps the canonical form. -/

namespace Sys2Proof.Machine

@[simp] theorem Memory.read_nil (a : Nat) : Memory.read [] a = fbDefault := rfl

theorem Memory.read_of_lt_head {m : Memory} {a : Nat} (h : ∀ c ∈ m, a < c.1) : m.read a = fbDefault := by
  induction m with
  | nil => rfl
  | cons c rest ih =>
    have hc : a < c.1 := h c (by simp)
    have hr := ih fun x hx => h x (by simp [hx])
    simp only [Memory.read, if_neg (show ¬ c.1 = a by omega), hr]

/-- A byte reads as what was last written to it, and every other byte as before. -/
theorem Memory.read_write {m : Memory} (h : m.wf) (a : Nat) (b : Byte) (x : Nat) :
    (m.write a b).read x = if x = a then b else m.read x := by
  induction m with
  | nil =>
    by_cases hb : b = fbDefault <;> by_cases hx : x = a <;>
      simp [Memory.write, Memory.read, hb, hx, eq_comm (a := a)]
  | cons c rest ih =>
    obtain ⟨k, v⟩ := c
    obtain ⟨hp, hv⟩ := h
    rw [List.pairwise_cons] at hp
    have hrest : Memory.wf rest := ⟨hp.2, fun c hc => hv c (by simp [hc])⟩
    have hgt : ∀ c ∈ rest, k < c.1 := hp.1
    simp only [Memory.write]
    split
    · rename_i hak
      have habs : Memory.read ((k, v) :: rest) a = fbDefault :=
        Memory.read_of_lt_head fun c hc => by
          rcases List.mem_cons.1 hc with rfl | hc
          · exact hak
          · exact Nat.lt_trans hak (hgt c hc)
      split
      · rename_i hb
        split
        · rename_i hx; rw [hx, habs, hb]
        · rfl
      · simp only [Memory.read, eq_comm (a := a)]
    · rename_i hak
      split
      · rename_i hak'
        subst hak'
        have habs : Memory.read rest a = fbDefault := Memory.read_of_lt_head hgt
        split
        · rename_i hb
          by_cases hx : x = a
          · rw [if_pos hx, hx, habs, hb]
          · simp only [if_neg hx, Memory.read, if_neg (Ne.symm hx)]
        · by_cases hx : x = a
          · simp [Memory.read, hx]
          · simp [Memory.read, hx, Ne.symm hx]
      · rename_i hne
        simp only [Memory.read, ih hrest]
        by_cases hx : x = a
        · subst hx; simp [Ne.symm hne]
        · simp [hx]

theorem Memory.mem_write {m : Memory} {a : Nat} {b : Byte} {c : Host.Cell} (h : c ∈ m.write a b) :
    c ∈ m ∨ (c = (a, b) ∧ b ≠ fbDefault) := by
  induction m with
  | nil =>
    simp only [Memory.write] at h
    split at h <;> simp_all
  | cons d rest ih =>
    simp only [Memory.write] at h
    split at h
    · split at h
      · exact .inl h
      · rename_i hb
        rcases List.mem_cons.1 h with rfl | h
        · exact .inr ⟨rfl, hb⟩
        · exact .inl h
    · split at h
      · split at h
        · exact .inl (by simp [h])
        · rename_i hb
          rcases List.mem_cons.1 h with rfl | h
          · exact .inr ⟨rfl, hb⟩
          · exact .inl (by simp [h])
      · rcases List.mem_cons.1 h with rfl | h
        · exact .inl (by simp)
        · rcases ih h with h | h
          · exact .inl (by simp [h])
          · exact .inr h

/-- A write inside FB keeps the canonical form. -/
theorem Memory.write_wf {m : Memory} (h : m.wf) {a : Nat} (ha : a < addrSpace) (b : Byte) : (m.write a b).wf := by
  refine ⟨?_, fun c hc => ?_⟩
  · induction m with
    | nil => simp only [Memory.write]; split <;> simp
    | cons d rest ih =>
      obtain ⟨k, v⟩ := d
      obtain ⟨hp, hv⟩ := h
      have hp' := hp
      rw [List.pairwise_cons] at hp
      have hrest : Memory.wf rest := ⟨hp.2, fun c hc => hv c (by simp [hc])⟩
      simp only [Memory.write]
      split
      · rename_i hak
        split
        · exact hp'
        · refine List.pairwise_cons.2 ⟨fun c hc => ?_, hp'⟩
          rcases List.mem_cons.1 hc with rfl | hc
          · exact hak
          · exact Nat.lt_trans hak (hp.1 c hc)
      · split
        · rename_i hak
          subst hak
          split
          · exact hp.2
          · exact List.pairwise_cons.2 ⟨hp.1, hp.2⟩
        · refine List.pairwise_cons.2 ⟨fun c hc => ?_, ih hrest⟩
          rcases Memory.mem_write hc with hc | ⟨rfl, -⟩
          · exact hp.1 c hc
          · show k < a; omega
  · rcases Memory.mem_write hc with hc | ⟨rfl, hb⟩
    · exact h.2 c hc
    · exact ⟨ha, hb⟩

/-- Canonical memories with the same bytes are the same memory. -/
theorem Memory.ext_of_wf {m m' : Memory} (h : m.wf) (h' : m'.wf) (e : ∀ a, m.read a = m'.read a) : m = m' := by
  induction m generalizing m' with
  | nil =>
    cases m' with
    | nil => rfl
    | cons c rest =>
      have := e c.1
      simp only [Memory.read, if_true] at this
      exact absurd this.symm (h'.2 c (by simp)).2
  | cons c rest ih =>
    cases m' with
    | nil =>
      have := e c.1
      simp only [Memory.read, if_true] at this
      exact absurd this (h.2 c (by simp)).2
    | cons d rest' =>
      obtain ⟨k, v⟩ := c
      obtain ⟨k', v'⟩ := d
      obtain ⟨hp, hv⟩ := h
      obtain ⟨hp', hv'⟩ := h'
      rw [List.pairwise_cons] at hp hp'
      have hk : k = k' := by
        rcases Nat.lt_trichotomy k k' with hlt | heq | hgt
        · have h1 := e k
          rw [Memory.read_of_lt_head (m := (k', v') :: rest') (a := k) fun c hc => by
            rcases List.mem_cons.1 hc with rfl | hc
            · exact hlt
            · exact Nat.lt_trans hlt (hp'.1 c hc)] at h1
          simp only [Memory.read, if_true] at h1
          exact absurd h1 (hv (k, v) (by simp)).2
        · exact heq
        · have h1 := e k'
          rw [Memory.read_of_lt_head (m := (k, v) :: rest) (a := k') fun c hc => by
            rcases List.mem_cons.1 hc with rfl | hc
            · exact hgt
            · exact Nat.lt_trans hgt (hp.1 c hc)] at h1
          simp only [Memory.read, if_true] at h1
          exact absurd h1.symm (hv' (k', v') (by simp)).2
      subst hk
      have hv0 : v = v' := by simpa [Memory.read] using e k
      have hr : rest = rest' := ih ⟨hp.2, fun c hc => hv c (by simp [hc])⟩ ⟨hp'.2, fun c hc => hv' c (by simp [hc])⟩
        fun a => by
          by_cases ha : a = k
          · subst ha
            rw [Memory.read_of_lt_head hp.1, Memory.read_of_lt_head hp'.1]
          · simpa [Memory.read, Ne.symm ha] using e a
      rw [hv0, hr]

end Sys2Proof.Machine
end

