-- ==== Sys2Proof/Laws/PerInstr.lean ====
section
/-! SUPPORT. Statements made per constructor of Instr: the family `EncodedZeroField`. -/

namespace Sys2Proof.Laws.EncodedZeroField

/-- The command word of an instruction has 0 in bits 11:8 (30_encoding R80). -/
def Statement (i : Instr) : Prop := zeroField (encode i) = 0

theorem bdInit : Statement .bdInit := zeroField_wordOf _ _
theorem bdRbool (p : Byte) : Statement (.bdRbool p) := zeroField_wordOf _ _
theorem bdRlit (n : Byte) : Statement (.bdRlit n) := zeroField_wordOf _ _
theorem bdRslit (n : Byte) : Statement (.bdRslit n) := zeroField_wordOf _ _
theorem bdRflag : Statement .bdRflag := zeroField_wordOf _ _
theorem bdPos : Statement .bdPos := zeroField_wordOf _ _
theorem fhParse : Statement .fhParse := zeroField_wordOf _ _

end Sys2Proof.Laws.EncodedZeroField
end

