-- ==== Sys2Proof/Tests/Slice0.lean ====
section
/-! SUPPORT. Tests on fixed values: ill-formed commands, words decoded bit by bit, the derived vectors of
95_test_vectors.md (each names its vector; the expected values are that file's), and, for every obligation with
hypotheses, states that meet them. -/

namespace Sys2Proof.Tests

open Sys2Proof.Machine

-- One theorem at a time: the kernel evaluations of this file side by side need more threads than the memory limit lets.
set_option Elab.async false

/-! ### Helpers -/

/-- FB with the bytes at `base`. -/
def place (base : Nat) : List Byte → Memory
  | [] => []
  | b :: rest => if b = 0 then place (base + 1) rest else (base, b) :: place (base + 1) rest

/-- A coefficient table with one value everywhere. -/
def coeffAll (x : Prob) : CoeffTable :=
  Vector.replicate 4 (Vector.replicate 8 (Vector.replicate 3 (Vector.replicate 11 x)))

/-- The instantiation `I255` of 95_test_vectors.md. -/
def i255 : Params := Config.suggested (coeffAll 255) (coeffAll 128)

/-- After reset, HOST has put the bytes at `base` and set the argument registers to them. -/
def ready (base : Nat) (bytes : List Byte) : State :=
  { State.reset with
    fb := place base bytes, argBase := BitVec.ofNat 32 base, argLen := BitVec.ofNat 32 bytes.length, argNull := false
    cfg := i255 }

/-- A decoder over `bytes` at 0x100 in the state `(range, value, bit_count, cursor)` of 95_test_vectors.md. -/
def live (bytes : List Byte) (range : BitVec 8) (value : BitVec 16) (bitCount : BitVec 3) (cursor : Nat) : State :=
  { ready 0x100 bytes with
    bd := { range := range, value := value, bitCount := bitCount, base := 0x100
            len := BitVec.ofNat 32 bytes.length, cursor := cursor, valid := true, overlay := [] } }

/-- The answer is a next state of which `p` holds. -/
def answers (p : State → Bool) : Answer → Bool
  | .next t => p t
  | .fault _ => false
  | .refused _ => false

theorem next_of (P : State → Prop) [DecidablePred P] {o : Answer} (h : answers (fun t => decide (P t)) o = true) :
    ∃ t, o = .next t ∧ P t := by
  cases o with
  | next t => exact ⟨t, rfl, of_decide_eq_true h⟩
  | fault f => exact absurd h Bool.false_ne_true
  | refused r => exact absurd h Bool.false_ne_true

/-- The decoder shows `(range, value, bit_count, cursor | P)`. -/
abbrev shows (t : State) (range : BitVec 8) (value : BitVec 16) (bitCount : BitVec 3) (cursor pos : Nat) : Prop :=
  t.result = .ok ∧ t.bd.valid = true ∧ t.bd.range = range ∧ t.bd.value = value ∧ t.bd.bitCount = bitCount ∧
    t.bd.cursor = cursor ∧ t.bd.pos = pos

/-! ### WellFormed -/

theorem test_rlit_33_is_ill_formed : (Instr.bdRlit 33).wf = false ∧ decode (encode (.bdRlit 33)) = .error .literalTooLong := by
  decide

theorem test_rslit_32_is_ill_formed :
    (Instr.bdRslit 32).wf = false ∧ decode (encode (.bdRslit 32)) = .error .signedLiteralTooLong := by
  decide

/-! ### Decode: words written out from 30_encoding R80 to R82 as `op_zero_arg` -/

theorem test_decode_bdInit : decode 0b0001_0000_00000000 = .ok .bdInit := by decide
theorem test_decode_bdRbool : decode 0b0010_0000_11001000 = .ok (.bdRbool 200) := by decide
theorem test_decode_bdRlit : decode 0b0011_0000_00000011 = .ok (.bdRlit 3) := by decide
theorem test_decode_bdRslit : decode 0b0100_0000_00000100 = .ok (.bdRslit 4) := by decide
theorem test_decode_bdRflag : decode 0b0101_0000_00000000 = .ok .bdRflag := by decide
theorem test_decode_bdPos : decode 0b0110_0000_00000000 = .ok .bdPos := by decide
theorem test_decode_fhParse : decode 0b1000_0000_00000000 = .ok .fhParse := by decide

/-- 95_test_vectors V19, every row. -/
theorem test_decode_illegal_words :
    [0x0000, 0x7000, 0x9000, 0xA000, 0xB000, 0xC000, 0xD000, 0xE000, 0xF000, 0xFFFF, 0x2180, 0x1800, 0x1001, 0x3021,
      0x30FF, 0x4020, 0x5001, 0x6080, 0x8001].all (fun w => (decode w).toOption.isNone) = true := by
  decide

theorem test_decodeTableWord : decodeTableWord 16 0x20C8 = some (.bdRbool 200) ∧ decodeTableWord 16 0x2180 = none := by
  decide

theorem test_withFetchWord_runs :
    answers (fun t => t.bd.valid && t.bd.value == 0xA53C) (step ((ready 0x100 [0xA5, 0x3C, 0x96]).withFetchWord 16 0x1000))
      = true := by
  decide +kernel

/-! ### Vectors of the BD commands -/

/-- V1 row 0. -/
theorem test_bdInit_V1 :
    answers (fun t => decide (shows t 255 0xA53C 0 2 0 ∧ t.res = 0 ∧ t.status = 0x0004))
      (exec .bdInit (ready 0x100 [0xA5, 0x3C, 0x96])) = true := by decide +kernel

/-- V4 row 0: one byte, the second is the zero byte. -/
theorem test_bdInit_V4 : answers (fun t => decide (shows t 255 0x5A00 0 2 0)) (exec .bdInit (ready 0x100 [0x5A])) = true := by
  decide +kernel

/-- V5 row 1: seven shifts, no byte. -/
theorem test_bdRbool_V5 :
    answers (fun t => decide (shows t 128 0x4000 7 2 7 ∧ t.res = 0)) (exec (.bdRbool 0) (live [0x00, 0x80] 255 0x0080 0 2))
      = true := by decide +kernel

/-- V7: the comparison is `>=`, and `range` becomes 1. -/
theorem test_bdRbool_V7 :
    answers (fun t => decide (shows t 128 0x0000 7 2 7 ∧ t.res = 1))
      (exec (.bdRbool 255) (live [0xFE, 0x00] 255 0xFE00 0 2)) = true := by decide +kernel

/-- V12: outside the shifter state the literal is not the raw byte 0xBF. -/
theorem test_bdRlit_V12 :
    answers (fun t => decide (shows t 254 0x4000 0 3 8 ∧ t.res = 0xC0)) (exec (.bdRlit 8) (live [0xBF, 0xC0] 255 0xBFC0 0 2))
      = true := by decide +kernel

/-- V16: the widest literal. -/
theorem test_bdRlit_V16 :
    answers (fun t => decide (shows t 128 0x4D00 7 5 31 ∧ t.res = 0x12345678))
      (exec (.bdRlit 32) (live [0x12, 0x34, 0x56, 0x78, 0x9A, 0xBC] 255 0x1234 0 2)) = true := by decide +kernel

/-- V15: -5. -/
theorem test_bdRslit_V15 :
    answers (fun t => decide (shows t 128 0x0000 4 2 4 ∧ t.res = 0xFFFFFFFB)) (exec (.bdRslit 4) (live [0x58] 255 0x5800 0 2))
      = true := by decide +kernel

/-- V16: the widest signed literal, -1073741823. -/
theorem test_bdRslit_V16 :
    answers (fun t => decide (shows t 128 0x7F80 7 5 31 ∧ t.res = 0xC0000001))
      (exec (.bdRslit 31) (live [0x7F, 0xFF, 0xFF, 0xFF, 0xFF] 255 0x7FFF 0 2)) = true := by decide +kernel

/-- V10 row 2. -/
theorem test_bdRflag_V10 :
    answers (fun t => decide (shows t 128 0x0000 1 2 1 ∧ t.res = 1)) (exec .bdRflag (live [0x40, 0x00] 128 0x4000 0 2))
      = true := by decide +kernel

/-- V9 row 2: a first byte of 0xFF, where the shift loses a 1. -/
theorem test_bdRflag_V9 :
    answers (fun t => decide (shows t 254 0x01FC 2 2 2 ∧ t.res = 1))
      (exec .bdRflag (live [0xFF, 0xFF, 0xFF] 254 0xFFFE 1 2)) = true := by decide +kernel

/-- V1 row 7. -/
theorem test_bdPos_V1 :
    answers (fun t => decide (shows t 172 0x3796 0 3 8 ∧ t.posByte = 1 ∧ t.posBit = 0))
      (exec .bdPos (live [0xA5, 0x3C, 0x96] 172 0x3796 0 3)) = true := by decide +kernel

/-- V17 row 5's state, `P` = 5. -/
theorem test_bdPos_V17 :
    answers (fun t => decide (shows t 142 0x62E0 5 2 5 ∧ t.posByte = 0 ∧ t.posBit = 5))
      (exec .bdPos (live [0xC8, 0x37, 0x11] 142 0x62E0 5 2)) = true := by decide +kernel

/-! ### Frames -/

/-- Frame `K1`. -/
def k1 : State :=
  ready 0x200 [0x90, 0x00, 0x00, 0x9D, 0x01, 0x2A, 0xB0, 0x00, 0x90, 0x00, 0x00, 0x00, 0x00, 0x00, 0xAA, 0xBB, 0xCC, 0xDD,
    0xEE]

/-- Frame `K2`. -/
def k2 : State :=
  ready 0x1000 [0x12, 0x03, 0x00, 0x9D, 0x01, 0x2A, 0x40, 0x41, 0xF0, 0x80, 0x7E, 0x28, 0x85, 0x90, 0xCF, 0xFE, 0x42, 0x0F,
    0x86, 0xF0, 0x88, 0x51, 0x11, 0x13, 0x2D, 0x99, 0xF8, 0xFE, 0x9A, 0x01, 0xB0, 0x03, 0xF0, 0x00, 0x02, 0x00, 0x00, 0x03,
    0x00, 0x00, 0x01, 0x00, 0x00, 0x11, 0x12, 0x21, 0x22, 0x23, 0x31, 0x41, 0x42, 0x43, 0x44]

/-- The persistent state after `K2` (V42). -/
def pcsAfterK2 : Pcs where
  seg := { enabled := true, featureMode := true, quant := #v[10, 0, -5, 0], lf := #v[0, 3, 0, -63], prob := #v[200, 255, 7] }
  lf := { filterType := true, level := 33, sharpness := 5, adjEnable := true, refDelta := #v[2, 0, -2, 0]
          modeDelta := #v[0, 0, 4, -4] }
  entropy := (defaultPcs i255).entropy

/-- Frame `I1` after `K2`. -/
def i1 : State :=
  { ready 0x1100 [0xC3, 0x01, 0x00, 0x82, 0x7F, 0x29, 0x9F, 0x51, 0x51, 0x50, 0x58, 0x2D, 0x54, 0x64, 0xC9, 0x60, 0x00, 0xDE,
      0xAD] with pcs := pcsAfterK2 }

/-- Frame `I2`, `I1` with a copy mode of 3. -/
def i2 : State :=
  { ready 0x1200 [0xC3, 0x01, 0x00, 0x82, 0x7F, 0x29, 0x9F, 0xD0, 0x51, 0x50, 0x58, 0x2D, 0x54, 0x64, 0xC9, 0x60, 0x00, 0xDE,
      0xAD] with pcs := pcsAfterK2 }

/-- Frame `I0`, the shortest that parses. -/
def i0 : State := { ready 0x1300 [0x11, 0x00, 0x00] with pcs := pcsAfterK2 }

/-- An interframe of four bytes in the shifter state whose bit 26 is 1: `refresh_golden_frame`. -/
def goldenFrame : State := ready 0x1400 [0x91, 0x00, 0x00, 0x00, 0x00, 0x00, 0x20]

/-- The same with bit 27: `refresh_alternate_frame`. -/
def alternateFrame : State := ready 0x1500 [0x91, 0x00, 0x00, 0x00, 0x00, 0x00, 0x10]

/-- V40. -/
theorem k1_parses : ∃ t, exec .fhParse k1 = .next t ∧ t.result = .ok ∧ t.status = 0x0008 ∧ t.posByte = 4 ∧ t.posBit = 6 ∧
    t.pt.count = 1 ∧ t.pt.entry[0] = { offsetAbs := 14, offsetRel := 0, size := 5 } ∧
    t.fhr.width = 176 ∧ t.fhr.height = 144 ∧ t.fhr.refreshEntropyProbs = false :=
  next_of _ (by decide +kernel)

/-- V40 with `GK_ROWS` absent: the forced values of a keyframe stay. -/
theorem k1_parses_without_gkRows : ∃ t, exec .fhParse { k1 with cfg := { i255 with gkRows := false } } = .next t ∧
    t.result = .ok ∧ t.posByte = 4 ∧ t.posBit = 4 ∧ t.fhr.refreshLast = true ∧ t.fhr.refresh.golden = true :=
  next_of _ (by decide +kernel)

/-- V42. -/
theorem test_fhParse_V42 : ∃ t, exec .fhParse k2 = .next t ∧ t.result = .ok ∧ t.posByte = 22 ∧ t.posBit = 7 ∧
    t.pt.count = 4 ∧
    [t.pt.entry[0], t.pt.entry[1], t.pt.entry[2], t.pt.entry[3]] =
      [{ offsetAbs := 43, offsetRel := 0, size := 2 }, { offsetAbs := 45, offsetRel := 2, size := 3 },
        { offsetAbs := 48, offsetRel := 5, size := 1 }, { offsetAbs := 49, offsetRel := 6, size := 4 }] ∧
    t.fhr.horizontalScale = 1 ∧ t.fhr.verticalScale = 2 ∧ t.fhr.quant = { base := 45, delta := #v[3, 0, -15, 0, 0] } ∧
    t.fhr.probSkipFalse = 240 ∧ t.fhr.entropy.coeffAt 0 0 0 0 = 77 ∧ t.fhr.entropy.coeffAt 3 7 2 10 = 1 ∧
    t.fhr.entropy.coeffAt 0 0 0 1 = 128 ∧ t.pcs.seg = pcsAfterK2.seg ∧ t.pcs.lf = pcsAfterK2.lf ∧
    t.pcs.entropy.coeffAt 0 0 0 0 = 128 ∧ t.pcs.entropy.coeffAt 3 7 2 10 = 128 ∧ t.fhr.refreshEntropyProbs = false :=
  next_of _ (by decide +kernel)

/-- V43. -/
theorem test_fhParse_V43 : ∃ t, exec .fhParse i1 = .next t ∧ t.result = .ok ∧ t.posByte = 12 ∧ t.posBit = 4 ∧
    t.pt.entry[0] = { offsetAbs := 17, offsetRel := 0, size := 2 } ∧ t.pcs.seg = pcsAfterK2.seg ∧
    t.pcs.lf = { pcsAfterK2.lf with filterType := false, level := 10, sharpness := 0 } ∧
    t.fhr.refresh = { golden := false, alternate := true, copyToGolden := 2, copyToAlternate := 0, signBiasGolden := true
                      signBiasAlternate := false } ∧
    t.fhr.probIntra = 100 ∧ t.fhr.probLast = 150 ∧ t.fhr.probGf = 200 ∧ t.fhr.entropy.ymode = #v[112, 86, 99, 37] ∧
    t.pcs.entropy.mvAt 1 3 = 200 ∧ t.pcs.entropy.mvAt 1 2 = 204 ∧ t.fhr.refreshEntropyProbs = true ∧
    t.fhr.updateSegmentFeatureData = false ∧ t.fhr.updateMbSegmentationMap = false ∧ t.fhr.lfDeltaUpdate = false :=
  next_of _ (by decide +kernel)

/-- V44, with V56's status. -/
theorem i2_breaks : ∃ t, exec .fhParse i2 = .next t ∧ t.result = .brokenData ∧ t.status = 0x0001 ∧ t.pcs.lf = pcsAfterK2.lf :=
  next_of _ (by decide +kernel)

/-- V45 and V46. -/
theorem i0_parses : ∃ t, exec .fhParse i0 = .next t ∧ t.result = .ok ∧ t.posByte = 9 ∧ t.posBit = 5 ∧
    t.pcs.seg = { pcsAfterK2.seg with enabled := false } ∧ t.pcs.lf.adjEnable = false ∧ t.fhr.refreshEntropyProbs = false ∧
    t.fhr.mbNoSkipCoeff = false ∧
    t.fhr.refresh = { golden := false, alternate := false, copyToGolden := 0, copyToAlternate := 0
                      signBiasGolden := false, signBiasAlternate := false } ∧
    t.fhr.refreshLast = false ∧ t.fhr.probIntra = 0 ∧ t.fhr.probLast = 0 ∧ t.fhr.probGf = 0 :=
  next_of _ (by decide +kernel)

/-- The bits of R122 over the elements of R160: golden is refreshed, so its copy mode is not coded. -/
theorem golden_parses : ∃ t, exec .fhParse goldenFrame = .next t ∧ t.result = .ok ∧ t.fhr.refresh.golden = true ∧
    t.fhr.refresh.alternate = false :=
  next_of _ (by decide +kernel)

/-- An interframe in the shifter state whose copy modes are 0 and 3, by bits 28 to 31: the alternate buffer's is invalid. -/
def alternateModeFrame : State := ready 0x1600 [0x91, 0x00, 0x00, 0x00, 0x00, 0x00, 0x03]

theorem alternateMode_breaks : ∃ t, exec .fhParse alternateModeFrame = .next t ∧ t.result = .brokenData ∧
    t.fhrValid = false :=
  next_of _ (by decide +kernel)

theorem alternate_parses : ∃ t, exec .fhParse alternateFrame = .next t ∧ t.result = .ok ∧
    t.fhr.refresh.golden = false ∧ t.fhr.refresh.alternate = true :=
  next_of _ (by decide +kernel)

/-! ### Witnesses: for each obligation with hypotheses, states and operands that meet them, at the boundaries -/

/-- `s` with these actions of HOST to come. -/
def withPending (l : List HostAction) (s : State) : State := { s with pending := l }

theorem witness_EncodedCommandDecodesBack : (Instr.bdRlit 32).wf = true ∧ (Instr.bdRslit 31).wf = true := by decide

theorem witness_DecodedWordEncodesBack : decode 0x3020 = .ok (.bdRlit 32) ∧ decode 0x401F = .ok (.bdRslit 31) := by decide

/-- Both sides of each boundary of R83: the words just legal and just illegal, by their fields. -/
theorem witness_IllegalCommandWordsFail :
    (withPending [.writeCmd 0x0FFF] k1).pending = .writeCmd 0x0FFF :: [] ∧
      (0x0FFF : CmdWord).toNat / 4096 = 0 ∧ (0x70FF : CmdWord).toNat / 4096 = 7 ∧ (0x9000 : CmdWord).toNat / 4096 = 9 ∧
      (0x8100 : CmdWord).toNat / 256 % 16 = 1 ∧ (0x1001 : CmdWord).toNat % 256 = 1 ∧ (0x3021 : CmdWord).toNat % 256 = 33 ∧
      (0x4020 : CmdWord).toNat % 256 = 32 ∧ (0x3020 : CmdWord).toNat % 256 = 32 ∧ (0x401F : CmdWord).toNat % 256 = 31 := by
  decide

/-- A legal word in the sense of R83. -/
theorem witness_IllegalCommandWordsFail_legal :
    (0x8000 : CmdWord).toNat / 4096 = 8 ∧ (0x8000 : CmdWord).toNat / 256 % 16 = 0 ∧ (0x8000 : CmdWord).toNat % 256 = 0 := by
  decide

theorem witness_StepRunsDecodedCommand :
    (withPending [.writeCmd 0x8000] k1).pending = .writeCmd 0x8000 :: [] ∧ decode 0x8000 = .ok .fhParse := by decide

theorem witness_IdleBlockDoesNothing : k1.pending = [] := rfl

theorem witness_HostSetsArgumentRegisters :
    (withPending [.setArgBase 0xFFFFFFFF] k1).pending = .setArgBase 0xFFFFFFFF :: [] ∧
      (withPending [.setArgLen 0] k1).pending = .setArgLen 0 :: [] ∧
      (withPending [.setArgNull true] k1).pending = .setArgNull true :: [] := by decide

/-- Addresses just below the cursor, at it, and just above the slice; a decoder or none. -/
theorem witness_HostWritesOneFbByte :
    let s := withPending [.writeFb 0x101 7] (live [0xA5, 0x3C, 0x96] 255 0xA53C 0 2)
    s.fb.wf ∧ s.pending = .writeFb 0x101 7 :: [] ∧ s.bd.valid = true ∧
      0x101 < s.bd.base.toNat + s.bd.cursor ∧ ¬ 0x102 < s.bd.base.toNat + s.bd.cursor ∧
      ¬ s.bd.base.toNat + s.bd.len.toNat ≤ 0x102 ∧ s.bd.base.toNat + s.bd.len.toNat ≤ 0x103 ∧ k1.bd.valid = false := by
  decide

theorem witness_CommandsNeverWriteMemory :
    (∃ t, exec .bdInit k1 = .next t) ∧ (∃ t, exec .bdRflag (live [0x40] 255 0x4000 0 2) = .next t) ∧
      ∃ t, exec .fhParse k1 = .next t :=
  ⟨⟨_, rfl⟩, ⟨_, rfl⟩, k1_parses.imp fun _ h => h.1⟩

/-- A buffer that ends at the last byte of FB. -/
theorem witness_EveryCommandCompletes :
    let s := { k1 with argBase := 0xFFFFFFF0, argLen := 0x10 }
    s.argNull = false ∧ s.bufferFits = true ∧ State.reset.argNull = true := by decide

theorem witness_BufferBeyondAddressSpaceRefused :
    let s := { k1 with argBase := 0xFFFFFFF0, argLen := 0x11 }
    s.argNull = false ∧ 2 ^ 32 < s.argBase.toNat + s.argLen.toNat := by decide

/-- The last byte of the slice, and the first past it. -/
theorem witness_NextByteDeliversSliceThenZeros :
    let d := (live [0xA5, 0x3C, 0x96] 255 0xA53C 0 2).bd
    let e := (live [0xA5, 0x3C, 0x96] 255 0xA53C 0 3).bd
    d.cursor < d.len.toNat ∧ lookupCell d.overlay (d.base.toNat + d.cursor) = none ∧ e.len.toNat ≤ e.cursor := by decide

/-- The smallest `range`, and V6 and V8: `value` at the split and just below it. -/
theorem witness_DecodeBoolFollowsSplit :
    (2 : Nat) ≤ (2 : BitVec 8).toNat ∧
      (let d := (live [0x01, 0x00] 255 0x0100 0 2).bd;
        (1 + (d.range.toNat - 1) * (0 : Prob).toNat / 256) * 256 ≤ d.value.toNat) ∧
      (let d := (live [0xFD, 0xFF] 255 0xFDFF 0 2).bd;
        d.value.toNat < (1 + (d.range.toNat - 1) * (255 : Prob).toNat / 256) * 256) := by decide

/-- `bit_count` 6 and 7, `range` 1 and 127, the first cursor. -/
theorem witness_RenormaliseShiftsUntilHalf :
    let d := (live [0x00, 0x00] 127 0x7EC0 6 2).bd
    let e := (live [0x00, 0x00] 1 0x0080 7 2).bd
    d.bitCount ≠ 7 ∧ d.Below ∧ d.range.toNat < 128 ∧ e.bitCount = 7 ∧ e.value.toNat % 128 = 0 ∧ 1 ≤ e.range.toNat ∧
      2 ≤ e.cursor := by decide

theorem witness_DecodeBoolAdvancesPosition : (live [0x00, 0x80] 255 0x0080 0 2).bd.Ready := by decide

/-- A zero value past the slice, and one about to load the byte 0x80. -/
theorem witness_ZeroValueDecodesZeros :
    let s := live [0x00, 0x00, 0x80] 128 0 7 2
    s.bd.value = 0 ∧ (decodeBool s.fb 0 s.bd).2.value ≠ 0 ∧ (live [] 255 0 0 2).bd.value = 0 ∧
      (live [] 255 0 0 2).bd.len.toNat ≤ (live [] 255 0 0 2).bd.cursor := by decide +kernel

theorem witness_ShifterStateReturnsTopBit :
    let d := (live [0x7F, 0xFF] 128 0x7FFF 0 2).bd
    d.Ready ∧ d.range = 128 ∧ d.value.toNat < 0x8000 := by decide

/-- A slice whose first bit is 0, and an empty one: the bits may run past the end. -/
theorem witness_LiteralReturnsStreamBits :
    streamBit (place 0x100 [0x7F]) 0x100 1 0 = false ∧ streamBit [] 0x100 0 0 = false ∧ 1 ≤ 1 ∧ 0 < 1 := by decide

theorem witness_EqualSlicesDecodeEqually :
    let d := (live [0x7F] 255 0x7F00 0 2).bd
    d.overlay = [] ∧
      ∀ i, i < d.len.toNat → (place 0x100 [0x7F]).read (d.base.toNat + i) = (place 0x200 [0x7F]).read ((0x200 : Addr).toNat + i) := by
  decide

theorem witness_InitConstructsDecoder :
    State.reset.argNull = true ∧
      (let s := { k1 with argBase := 0xFFFFFFF0, argLen := 0x10 }; s.argNull = false ∧ s.bufferFits = true) := by decide

theorem witness_RboolReturnsDecodedBit : k1.bd.valid = false ∧ (live [] 255 0 0 2).bd.valid = true := by decide

theorem witness_RlitReturnsLiteral :
    (live [] 255 0 0 2).bd.valid = true ∧ (32 : Byte).toNat ≤ 32 ∧ 32 < (33 : Byte).toNat := by decide

theorem witness_RslitReturnsSignedLiteral :
    (live [] 255 0 0 2).bd.valid = true ∧ (31 : Byte).toNat ≤ 31 ∧ 31 < (32 : Byte).toNat := by decide

theorem witness_RflagIsOneBitLiteral : k1.bd.valid = false ∧ (live [] 255 0 0 2).bd.valid = true := by decide

/-- The largest position `POS_BYTE` holds. -/
theorem witness_PosReportsPosition :
    let d := (live [] 255 0 7 (2 ^ 32 + 1)).bd
    d.valid = true ∧ (8 * (d.cursor - 2) + d.bitCount.toNat) / 8 < 2 ^ 32 ∧ k1.bd.valid = false := by decide

theorem witness_PositionBeyondAddressWidth :
    let d := (live [] 255 0 0 (2 ^ 32 + 2)).bd
    d.valid = true ∧ 2 ^ 32 ≤ d.cursor - 2 := by decide

theorem witness_ReadsNeedDecoder :
    k1.bd.valid = false ∧ Instr.bdRlit 33 ≠ .bdInit ∧ Instr.bdRlit 33 ≠ .fhParse ∧ Instr.bdPos ≠ .bdInit ∧
      Instr.bdPos ≠ .fhParse := by decide

theorem witness_BdCommandsFrame :
    (∃ t, exec .bdPos (live [] 255 0 0 2) = .next t) ∧ (∃ t, exec .bdInit k1 = .next t) ∧
      (∃ t, exec .bdRflag (live [] 255 0 0 2) = .next t) ∧
      ∃ t, exec (.bdRlit 33) (live [] 255 0 0 2) = .next t ∧ t.result = .error :=
  ⟨⟨_, rfl⟩, ⟨_, rfl⟩, ⟨_, rfl⟩, ⟨_, rfl, rfl⟩⟩

/-- First bytes 0xFE and none; a ready decoder with (e), and V9's without it. -/
theorem witness_WorkingRegisterInvariants :
    (∃ t, (ready 0x100 [0xFE]).argNull = false ∧ exec .bdInit (ready 0x100 [0xFE]) = .next t) ∧
      sliceByteAt (place 0x100 [0xFE]) 0x100 1 0 ≠ 0xFF ∧ sliceByteAt [] 0x100 0 0 ≠ 0xFF ∧
      (live [0xFE, 0xFF] 255 0xFEFF 0 2).bd.Ready ∧ (live [0xFE, 0xFF] 255 0xFEFF 0 2).bd.Below ∧
      (live [0xFF, 0xFF] 255 0xFFFF 0 2).bd.Ready ∧ ∃ t, exec .bdRflag (live [0xFE, 0xFF] 255 0xFEFF 0 2) = .next t :=
  ⟨⟨_, rfl, rfl⟩, by decide, by decide, by decide, by decide, by decide, ⟨_, rfl⟩⟩

/-- A frame buffer with other bytes on both sides of the window. -/
theorem witness_ReadsStayInsideWindow :
    let s := live [0x40] 255 0x4000 0 2
    s.fb.agreeOn s.argBase.toNat s.argLen.toNat (place 0xFF [0x01, 0x40, 0x02]) ∧
      s.fb.agreeOn s.bd.base.toNat s.bd.len.toNat (place 0xFF [0x01, 0x40, 0x02]) ∧
      s.fb ≠ place 0xFF [0x01, 0x40, 0x02] ∧ (∃ t, exec .bdInit s = .next t) ∧ ∃ t, exec .bdRflag s = .next t := by
  refine ⟨?_, ?_, by decide, ⟨_, rfl⟩, ⟨_, rfl⟩⟩ <;>
    · intro a h h'
      change 0x100 ≤ a at h
      change a < 0x100 + 1 at h'
      obtain rfl : a = 0x100 := by omega
      decide

/-- The same for `FH.PARSE` of `I0`. -/
theorem witness_ReadsStayInsideWindow_parse :
    i0.fb.agreeOn i0.argBase.toNat i0.argLen.toNat (place 0x12FF [0x01, 0x11, 0x00, 0x00, 0x02]) ∧
      i0.fb ≠ place 0x12FF [0x01, 0x11, 0x00, 0x00, 0x02] ∧ ∃ t, exec .fhParse i0 = .next t := by
  refine ⟨?_, by decide, i0_parses.imp fun _ h => h.1⟩
  intro a h h'
  change 0x1300 ≤ a at h
  change a < 0x1300 + 3 at h'
  obtain rfl | rfl | rfl : a = 0x1300 ∨ a = 0x1301 ∨ a = 0x1302 := by omega
  all_goals decide

theorem witness_CallerContractErrors :
    State.reset.argNull = true ∧ ((ready 0x200 []).argNull = false ∧ (ready 0x200 []).argLen = 0) ∧
      ∃ t, exec .fhParse (ready 0x200 []) = .next t ∧ t.result = .error :=
  ⟨rfl, by decide, ⟨_, rfl, rfl⟩⟩

/-- `K1` cut to `n` bytes. -/
def k1Cut (n : Addr) : State := { k1 with argLen := n }

/-- `K1` with another byte at frame offset `i`. -/
def k1With (i : Nat) (b : Byte) (c : Params) : State := { k1 with fb := k1.fb.write (0x200 + i) b, cfg := c }

/-- One state for each way `S1` can fail, each one step from a state that passes (V41, V50, V57, V58). -/
theorem witness_BrokenPrefixIsBrokenData :
    (k1Cut 2).CallerGood ∧ ¬ (k1Cut 2).PrefixGood ∧ ¬ (k1Cut 9).PrefixGood ∧ ¬ (k1Cut 13).PrefixGood ∧
      ¬ (k1With 5 0x2B i255).PrefixGood ∧
      ¬ (k1With 0 0x98 { i255 with tagBit3Policy := .versionMsb }).PrefixGood := by
  refine ⟨?_, ?_, ?_, ?_, ?_, ?_⟩ <;> decide

theorem witness_BrokenPrefixIsBrokenData_good :
    k1.CallerGood ∧ k1.PrefixGood ∧ (k1Cut 14).PrefixGood ∧ i0.CallerGood ∧ i0.PrefixGood ∧
      (k1With 0 0x98 i255).PrefixGood := by
  refine ⟨?_, ?_, ?_, ?_, ?_, ?_⟩ <;> decide

theorem witness_BrokenDataRollsBack :
    ∃ t, exec .fhParse i2 = .next t ∧ t.result = .brokenData ∧ i2.cfg.pcsOnFailure = .rollback :=
  i2_breaks.imp fun _ h => ⟨h.1, h.2.1, rfl⟩

theorem witness_BrokenDataRollsBack_any :
    let s := { i2 with argLen := 2, cfg := { i255 with pcsOnFailure := .any } }
    s.cfg.pcsOnFailure = .any ∧ ∃ t, exec .fhParse s = .next t ∧ t.result = .brokenData :=
  ⟨rfl, _, rfl, rfl⟩

/-- Whether a pass of the sequencer fails. -/
def fails : Pass → Bool
  | .ok _ => false
  | .error _ => true

theorem fails_error {p : Pass} (h : fails p = true) : ∃ c t, p = .error (c, t) := by
  rcases p with ⟨c, t⟩ | u
  · exact ⟨c, t, rfl⟩
  · exact absurd h Bool.false_ne_true

/-- `I2`'s header on the decoder over its first partition. -/
theorem witness_OnlyCopyModeBreaksElements : ∃ c t,
    parseElements { i2 with bd := Bd.construct i2.fb 0x1203 14, fhr := { i2.fhr with keyFrame := false } } = .error (c, t) :=
  fails_error (by decide +kernel)

/-- Whether a pass of the sequencer does not fail. -/
theorem passes_ok {p : Pass} (h : fails p = false) : ∃ u, p = .ok u := by
  rcases p with _ | u
  · exact absurd h Bool.true_eq_false_eq_False
  · exact ⟨u, rfl⟩

/-- `I2` with `COPYMODE3_BROKEN` set, whose golden buffer has a copy mode of 3; and `I1`, where that mode is 2, the other
side of the equivalence. -/
theorem witness_OnlyCopyModeBreaksElements_modes :
    (∃ u, parsePrefix i2.beginParse = .ok u) ∧ i2.cfg.copymode3Broken = true ∧ ¬ i2.isKeyframe ∧
      i2.readGolden.1 = false ∧ i2.readCopyGolden.1 = 3 ∧
      (∃ u, parsePrefix i1.beginParse = .ok u) ∧ i1.readGolden.1 = false ∧ i1.readCopyGolden.1 = 2 ∧
      i1.readAlternate.1 = true :=
  ⟨passes_ok (by decide +kernel), rfl, by decide, by decide +kernel, by decide +kernel, passes_ok (by decide +kernel),
    by decide +kernel, by decide +kernel, by decide +kernel⟩

/-- A golden copy mode of 3 (`I2`), and an alternate one beside a valid golden one, both past `S1`. -/
theorem witness_OnlyCopyModeBreaksElements_command :
    (i2.CallerGood ∧ i2.PrefixGood) ∧
      (let s := alternateModeFrame;
        s.CallerGood ∧ s.PrefixGood ∧ s.cfg.copymode3Broken = true ∧ s.readGolden.1 = false ∧ s.readCopyGolden.1 = 0 ∧
          s.readAlternate.1 = false ∧ s.readCopyAlternate.1 = 3) := by decide +kernel

/-- The three coded sizes of `K2` fit 53 bytes and not 48; a first size of 0 is a matter of the parameter. -/
theorem witness_LayoutAcceptedExactly :
    (extractLayout true k2.fb 0x1000 53 34 4).toOption.isSome = true ∧
      (extractLayout true k2.fb 0x1000 49 34 4).toOption.isSome = true ∧
      (extractLayout true k2.fb 0x1000 48 34 4).toOption.isSome = false ∧
      (extractLayout true k2.fb 0x1000 42 34 4).toOption.isSome = false ∧
      (extractLayout true (k2.fb.write 0x1022 0) 0x1000 53 34 4).toOption.isSome = false ∧
      (extractLayout false (k2.fb.write 0x1022 0) 0x1000 53 34 4).toOption.isSome = true := by decide +kernel

/-- The three parts of a parse, where none fails. -/
def parts (s : State) : Option (State × State × List PtEntry) :=
  match parsePrefix s.beginParse with
  | .error _ => none
  | .ok u =>
    match parseElements u with
    | .error _ => none
    | .ok v =>
      match extractLayout s.cfg.zeroSizePartBroken s.fb s.argBase.toNat s.argLen.toNat v.fhr.firstPartEnd
          v.fhr.numOfDctPartitions.toNat with
      | .error _ => none
      | .ok l => some (u, v, l)

theorem parts_of {s : State} (h : (parts s).isSome = true) :
    ∃ u v l, parsePrefix s.beginParse = .ok u ∧ parseElements u = .ok v ∧
      extractLayout s.cfg.zeroSizePartBroken s.fb s.argBase.toNat s.argLen.toNat v.fhr.firstPartEnd
        v.fhr.numOfDctPartitions.toNat = .ok l := by
  unfold parts at h
  split at h
  · cases h
  · split at h
    · cases h
    · split at h
      · cases h
      · exact ⟨_, _, _, ‹_›, ‹_›, ‹_›⟩

/-- `K1`, whose one partition fits; and `K2` cut to 48 bytes, where a coded partition ends beyond it, and to 49, where all
fit. -/
theorem witness_LayoutAcceptedExactly_command :
    (k1.CallerGood ∧ 2 ^ k1.readPartCount.1 = 1) ∧
      (let s := { k2 with argLen := 48 };
        s.CallerGood ∧ 2 ^ s.readPartCount.1 = 4 ∧ s.argLen.toNat < s.declaredEnd + 9 + sizesBefore s.fb 0x1022 3 ∧
          fails (parsePrefix s.beginParse >>= parseElements) = false) ∧
      (let s := { k2 with argLen := 49 };
        s.CallerGood ∧ s.declaredEnd + 9 + sizesBefore s.fb 0x1022 3 ≤ s.argLen.toNat ∧
          fails (parsePrefix s.beginParse >>= parseElements) = false) := by decide +kernel

theorem k1_parts : ∃ u v l, parsePrefix k1.beginParse = .ok u ∧ parseElements u = .ok v ∧
    extractLayout k1.cfg.zeroSizePartBroken k1.fb k1.argBase.toNat k1.argLen.toNat v.fhr.firstPartEnd
      v.fhr.numOfDctPartitions.toNat = .ok l :=
  parts_of (by decide +kernel)

theorem i1_parts : ∃ u v l, parsePrefix i1.beginParse = .ok u ∧ parseElements u = .ok v ∧
    extractLayout i1.cfg.zeroSizePartBroken i1.fb i1.argBase.toNat i1.argLen.toNat v.fhr.firstPartEnd
      v.fhr.numOfDctPartitions.toNat = .ok l :=
  parts_of (by decide +kernel)

theorem witness_PrefixFieldsFollowTag :
    (∃ u, k1.CallerGood ∧ k1.isKeyframe ∧ parsePrefix k1.beginParse = .ok u) ∧
      ∃ u, i1.CallerGood ∧ ¬ i1.isKeyframe ∧ parsePrefix i1.beginParse = .ok u :=
  ⟨k1_parts.imp fun _ ⟨_, _, h, _⟩ => ⟨by decide, by decide, h⟩, i1_parts.imp fun _ ⟨_, _, h, _⟩ => ⟨by decide, by decide, h⟩⟩

theorem witness_KeyframeResetsPcs :
    (∃ u, k1.isKeyframe ∧ parsePrefix k1.beginParse = .ok u) ∧
      ∃ u, ¬ i1.isKeyframe ∧ parsePrefix i1.beginParse = .ok u :=
  ⟨k1_parts.imp fun _ ⟨_, _, h, _⟩ => ⟨by decide, h⟩, i1_parts.imp fun _ ⟨_, _, h, _⟩ => ⟨by decide, h⟩⟩

theorem witness_GoodFrameCommits :
    k1.CallerGood ∧ ∃ u v l, parsePrefix k1.beginParse = .ok u ∧ parseElements u = .ok v ∧
      extractLayout k1.cfg.zeroSizePartBroken k1.fb k1.argBase.toNat k1.argLen.toNat v.fhr.firstPartEnd
        v.fhr.numOfDctPartitions.toNat = .ok l :=
  ⟨by decide, k1_parts⟩

/-- `I0`, and a keyframe of its ten bytes alone. -/
theorem witness_EmptyFirstPartitionParses :
    (i0.CallerGood ∧ i0.PrefixGood ∧ i0.tag.toNat / 32 = 0 ∧ ¬ i0.isKeyframe) ∧
      (let s := ready 0x200 [0x10, 0x00, 0x00, 0x9D, 0x01, 0x2A, 0xB0, 0x00, 0x90, 0x00];
        s.CallerGood ∧ s.PrefixGood ∧ s.tag.toNat / 32 = 0 ∧ s.isKeyframe) := by decide

theorem witness_KeyframeFieldsAreStreamBits :
    k1.isKeyframe ∧ k1.cfg.gkRows = true ∧ k1.headerBit 0 = false ∧ k1.headerBit 2 = false ∧
      k1.headerBit (4 + k1.cfg.lfLevelBits + 3) = false ∧ (∀ i : Fin 5, k1.headerBit (16 + 7 + i.val) = false) ∧
      ∃ t, exec .fhParse k1 = .next t ∧ t.result = .ok :=
  ⟨by decide, rfl, by decide, by decide, by decide, by decide, k1_parses.imp fun _ h => ⟨h.1, h.2.1⟩⟩

/-- `I0` refreshes neither buffer, `goldenFrame` the golden one, by bit 26, `alternateFrame` the other, by bit 27. -/
theorem witness_InterframeFieldsAreStreamBits :
    (¬ i0.isKeyframe ∧ i0.headerBit 0 = false ∧ i0.headerBit (2 + i0.cfg.lfLevelBits + 3) = false ∧
        (∀ i : Fin 5, i0.headerBit (14 + 7 + i.val) = false) ∧ i0.headerBit 26 = false ∧
        ∃ t, exec .fhParse i0 = .next t ∧ t.result = .ok) ∧
      ¬ goldenFrame.isKeyframe ∧ goldenFrame.headerBit 0 = false ∧ goldenFrame.headerBit 11 = false ∧
        (∀ i : Fin 5, goldenFrame.headerBit (14 + 7 + i.val) = false) ∧ goldenFrame.headerBit 26 = true ∧
        ∃ t, exec .fhParse goldenFrame = .next t ∧ t.result = .ok :=
  ⟨⟨by decide, by decide, by decide, by decide, by decide, i0_parses.imp fun _ h => ⟨h.1, h.2.1⟩⟩,
    by decide, by decide, by decide, by decide, by decide, golden_parses.imp fun _ h => ⟨h.1, h.2.1⟩⟩

theorem witness_InterframeFieldsAreStreamBits_alternate :
    ¬ alternateFrame.isKeyframe ∧ alternateFrame.headerBit 0 = false ∧ alternateFrame.headerBit 11 = false ∧
      (∀ i : Fin 5, alternateFrame.headerBit (14 + 7 + i.val) = false) ∧ alternateFrame.headerBit 26 = false ∧
      alternateFrame.headerBit 27 = true ∧ ∃ t, exec .fhParse alternateFrame = .next t ∧ t.result = .ok :=
  ⟨by decide, by decide, by decide, by decide, by decide, by decide, alternate_parses.imp fun _ h => ⟨h.1, h.2.1⟩⟩

/-- A keyframe with `GK_ROWS` present, and an interframe with segmentation and adjustment on. -/
theorem witness_FrontElementsInTableOrder :
    (∃ t, exec .fhParse k2 = .next t ∧ t.result = .ok ∧ k2.isKeyframe ∧ k2.cfg.gkRows = true) ∧
      ∃ t, exec .fhParse i1 = .next t ∧ t.result = .ok ∧ ¬ i1.isKeyframe :=
  ⟨test_fhParse_V42.imp fun _ h => ⟨h.1, h.2.1, by decide, rfl⟩, test_fhParse_V43.imp fun _ h => ⟨h.1, h.2.1, by decide⟩⟩

/-- The same two; the position of `K2` is far below the bound.  A keyframe with `GK_ROWS` absent:
`k1_parses_without_gkRows`. -/
theorem witness_BackElementsInTableOrder :
    (∃ t, exec .fhParse k2 = .next t ∧ t.result = .ok ∧ k2.isKeyframe) ∧ k2.readMv.2.pos / 8 < 2 ^ 32 ∧
      ∃ t, exec .fhParse i1 = .next t ∧ t.result = .ok ∧ ¬ i1.isKeyframe ∧ i1.cfg.gkRows = true :=
  ⟨test_fhParse_V42.imp fun _ h => ⟨h.1, h.2.1, by decide⟩, by decide +kernel,
    test_fhParse_V43.imp fun _ h => ⟨h.1, h.2.1, by decide, rfl⟩⟩

/-- Four partitions, so that there are a first, a middle and a last. -/
theorem witness_PartitionsTileFrame :
    ∃ t, exec .fhParse k2 = .next t ∧ t.result = .ok ∧ t.pt.count.toNat = 4 ∧ k2.cfg.zeroSizePartBroken = true :=
  test_fhParse_V42.imp fun _ h => ⟨h.1, h.2.1, by rw [h.2.2.2.2.1]; rfl, rfl⟩

theorem witness_ModeAndMotionVectorTables :
    (∃ t, k1.isKeyframe ∧ exec .fhParse k1 = .next t ∧ t.result = .ok) ∧ i255.mvProbCoding = .lit8 ∧
      ({ i255 with mvProbCoding := .lit7Shift } : Params).mvProbCoding = .lit7Shift ∧
      i255.intraGating = .perEntry ∧ ({ i255 with intraGating := .perGroup } : Params).intraGating = .perGroup ∧
      (decodeBool [] 128 (live [] 255 0 0 2).bd).1 = false ∧ (decodeBool [] 128 (live [] 255 0xFE00 0 2).bd).1 = true :=
  ⟨k1_parses.imp fun _ h => ⟨by decide, h.1, h.2.1⟩, rfl, rfl, rfl, rfl, by decide +kernel, by decide +kernel⟩

/-- An interframe that commits its tables, one that does not, and a keyframe that does not. -/
theorem witness_EntropyCommitFollowsRefresh :
    (∃ t, exec .fhParse i1 = .next t ∧ t.result = .ok ∧ t.fhr.refreshEntropyProbs = true) ∧
      (∃ t, exec .fhParse i0 = .next t ∧ t.result = .ok ∧ t.fhr.refreshEntropyProbs = false ∧ ¬ i0.isKeyframe) ∧
      ∃ t, exec .fhParse k2 = .next t ∧ t.result = .ok ∧ t.fhr.refreshEntropyProbs = false ∧ k2.isKeyframe := by
  obtain ⟨t, h, h', -, -, -, -, -, -, -, -, -, -, -, -, hr, -⟩ := test_fhParse_V43
  obtain ⟨u, g, g', -, -, -, -, gr, -⟩ := i0_parses
  obtain ⟨v, k, k', -, -, -, -, -, -, -, -, -, -, -, -, -, -, -, kr⟩ := test_fhParse_V42
  exact ⟨⟨t, h, h', hr⟩, ⟨u, g, g', gr, by decide⟩, ⟨v, k, k', kr, by decide⟩⟩

/-- `I1` keeps segmentation on and codes none of it; `I0` switches it off. -/
theorem witness_SegmentationPersists :
    (∃ t, exec .fhParse i1 = .next t ∧ t.result = .ok ∧ ¬ i1.isKeyframe ∧ t.fhr.updateSegmentFeatureData = false ∧
        t.fhr.updateMbSegmentationMap = false) ∧
      ∃ t, exec .fhParse i0 = .next t ∧ t.result = .ok ∧ ¬ i0.isKeyframe ∧ t.pcs.seg.enabled = false := by
  obtain ⟨t, h, h', -, -, -, -, -, -, -, -, -, -, -, -, -, hd, hm, -⟩ := test_fhParse_V43
  obtain ⟨u, g, g', -, -, gs, -⟩ := i0_parses
  exact ⟨⟨t, h, h', by decide, hd, hm⟩, ⟨u, g, g', by decide, by rw [gs]⟩⟩

/-- The flag at place `k` of the decoder whose next 15 bits are the low 15 bits of `value` (40_bd_commands R122). -/
def nextFlag (value : BitVec 16) : Nat → Bool
  | 0 => (decodeBool [] 128 (live [] 128 value 0 2).bd).1
  | k + 1 => (decodeBool [] 128 (lit [] (k + 1) (live [] 128 value 0 2).bd).2).1

/-- `enabled`, the map flag and the data flag: 0; 1, 0, 1; 1, 1, 0; and the two policies. -/
theorem witness_SegmentationPersists_coded :
    nextFlag 0 0 = false ∧ [nextFlag 0x5000 0, nextFlag 0x5000 1, nextFlag 0x5000 2] = [true, false, true] ∧
      [nextFlag 0x6000 0, nextFlag 0x6000 1, nextFlag 0x6000 2] = [true, true, false] ∧
      i255.segEntryAbsent = .reset ∧ ({ i255 with segEntryAbsent := .keep } : Params).segEntryAbsent = .keep := by
  decide +kernel

/-- `K2` codes both groups: what 95_test_vectors V42 gives, entries absent under `reset` among them. -/
theorem test_segmentation_V42 :
    (segHeader i255 k2.fb (defaultPcs i255).seg k2.readClamping.2).1 = (pcsAfterK2.seg, true, true) := by decide +kernel

/-- `adj_enable` (place 10) and `delta_update` (place 11): 0; 1, 0; 1, 1. -/
theorem witness_LoopFilterDeltasPersist_coded :
    nextFlag 0 10 = false ∧ [nextFlag 0x10 10, nextFlag 0x10 11] = [true, false] ∧
      [nextFlag 0x18 10, nextFlag 0x18 11] = [true, true] ∧
      (lfHeader i255 [] (defaultPcs i255).lf (live [] 128 0x10 0 2).bd).1.2 = false ∧
      (lfHeader i255 [] (defaultPcs i255).lf (live [] 128 0x18 0 2).bd).1.2 = true := by decide +kernel

theorem witness_LoopFilterDeltasPersist :
    (∃ t, exec .fhParse i1 = .next t ∧ t.result = .ok ∧ ¬ i1.isKeyframe ∧ t.fhr.lfDeltaUpdate = false) ∧
      ∃ t, exec .fhParse i0 = .next t ∧ t.result = .ok ∧ ¬ i0.isKeyframe ∧ t.pcs.lf.adjEnable = false := by
  obtain ⟨t, h, h', -, -, -, -, -, -, -, -, -, -, -, -, -, -, -, hl⟩ := test_fhParse_V43
  obtain ⟨u, g, g', -, -, -, ga, -⟩ := i0_parses
  exact ⟨⟨t, h, h', by decide, hl⟩, ⟨u, g, g', by decide, ga⟩⟩

theorem witness_CodedMagnitudesBounded : ∃ t, exec .fhParse k2 = .next t ∧ t.result = .ok :=
  test_fhParse_V42.imp fun _ h => ⟨h.1, h.2.1⟩

/-- A keyframe; interframes with the one buffer refreshed and with the other; `mb_no_skip_coeff` 0. -/
theorem witness_RefreshFieldsOfGoodFrame :
    (∃ t, exec .fhParse k1 = .next t ∧ t.result = .ok ∧ k1.isKeyframe) ∧
      (∃ t, exec .fhParse i1 = .next t ∧ t.result = .ok ∧ ¬ i1.isKeyframe ∧ t.fhr.refresh.alternate = true ∧
        i1.cfg.copymode3Broken = true) ∧
      (∃ t, exec .fhParse goldenFrame = .next t ∧ t.result = .ok ∧ ¬ goldenFrame.isKeyframe ∧
        t.fhr.refresh.golden = true) ∧
      ∃ t, exec .fhParse i0 = .next t ∧ t.result = .ok ∧ t.fhr.mbNoSkipCoeff = false := by
  obtain ⟨t, h, h', -, -, -, -, -, hr, -⟩ := test_fhParse_V43
  obtain ⟨u, g, g', -, -, -, -, -, gs, -⟩ := i0_parses
  obtain ⟨v, k, k', kg, -⟩ := golden_parses
  exact ⟨k1_parses.imp fun _ h => ⟨h.1, h.2.1, by decide⟩, ⟨t, h, h', by decide, by rw [hr], rfl⟩,
    ⟨v, k, k', by decide, kg⟩, ⟨u, g, g', gs⟩⟩

theorem witness_ParsePositionBounded :
    i1.cfg.segQBits = 7 ∧ i1.cfg.segLfBits = 6 ∧ i1.cfg.lfLevelBits = 6 ∧ i1.cfg.lfDeltaBits = 6 ∧
      ∃ t, exec .fhParse i1 = .next t ∧ t.result = .ok :=
  ⟨rfl, rfl, rfl, rfl, test_fhParse_V43.imp fun _ h => ⟨h.1, h.2.1⟩⟩

/-- One frame for each of the three results. -/
theorem witness_ParseFrameConditions :
    (∃ t, exec .fhParse k1 = .next t ∧ t.result = .ok) ∧ (∃ t, exec .fhParse i2 = .next t ∧ t.result = .brokenData) ∧
      ∃ t, exec .fhParse (ready 0x200 []) = .next t ∧ t.result = .error :=
  ⟨k1_parses.imp fun _ h => ⟨h.1, h.2.1⟩, i2_breaks.imp fun _ h => ⟨h.1, h.2.1⟩, _, rfl, rfl⟩

theorem witness_KeyframeIndependentOfPcs : ∃ t, k1.isKeyframe ∧ exec .fhParse k1 = .next t ∧ t.result = .ok :=
  k1_parses.imp fun _ h => ⟨by decide, h.1, h.2.1⟩

theorem witness_OutcomeIndependentOfPcs :
    (∃ t, exec .fhParse i0 = .next t ∧ t.result = .ok) ∧ ∃ t, exec .fhParse i2 = .next t ∧ t.result = .brokenData :=
  ⟨i0_parses.imp fun _ h => ⟨h.1, h.2.1⟩, i2_breaks.imp fun _ h => ⟨h.1, h.2.1⟩⟩

theorem witness_StatusFieldsFollowCommands :
    (∃ t, exec .bdInit k1 = .next t) ∧ ∃ t, exec .fhParse k1 = .next t ∧ t.result = .ok :=
  ⟨⟨_, rfl⟩, k1_parses.imp fun _ h => ⟨h.1, h.2.1⟩⟩

/-- A state with a live decoder, persistent fields that are not zero, and a command to come. -/
theorem witness_StepKeepsMachineInvariant :
    let s := withPending [.writeCmd 0x5000] { live [0x40] 255 0x4000 0 2 with pcs := pcsAfterK2 }
    s.Inv ∧ ∃ t, step s = .next t :=
  ⟨by decide +kernel, _, rfl⟩

end Sys2Proof.Tests
end

/-! SUPPORT. What every read of the boolean decoder keeps of the working registers (10_state R26), and the frame of the BD
commands; with the statement about the working registers. -/

namespace Sys2Proof.Machine

/-! ### The invariants of the working registers -/

/-- 10_state R26 (c) and (d), the part of `Bd.Ready` that each single shift of `Renormalise` keeps. -/
def Bd.Aligned (d : Bd) : Prop := 2 ≤ d.cursor ∧ d.value.toNat % 2 ^ d.bitCount.toNat = 0

theorem Bd.Ready.aligned {d : Bd} (h : d.Ready) : d.Aligned := ⟨h.2.1, h.2.2.1⟩

/-- The eighth shift puts the next byte in the low half of `value`, which is 0 there. -/
theorem shiftLeft_or_byte_toNat {v : BitVec 16} (hv : v.toNat % 128 = 0) (b : Byte) :
    ((v <<< 1) ||| b.setWidth 16).toNat = 2 * v.toNat % 2 ^ 16 + b.toNat := by
  have hb := b.isLt
  have hk : 2 * v.toNat % 2 ^ 16 = 2 ^ 8 * (v.toNat / 128 % 256) := by omega
  rw [BitVec.toNat_or, BitVec.toNat_shiftLeft, Nat.shiftLeft_eq, BitVec.toNat_setWidth,
    Nat.mod_eq_of_lt (show b.toNat < 2 ^ 16 by omega), Nat.pow_one, Nat.mul_comm, hk, Nat.two_pow_add_eq_or_of_lt hb]

theorem bitCount_toNat_of_eq_seven {d : Bd} (h : d.bitCount = 7) : d.bitCount.toNat = 7 := by rw [h]; rfl

/-- A shift doubles a value with `bit_count` low zeros, and so adds one; on the eighth, `bit_count` is 0 again. -/
theorem shiftOnce_aligned (fb : Memory) {d : Bd} (h : d.Aligned) : (shiftOnce fb d).Aligned := by
  obtain ⟨hcur, hval⟩ := h
  rcases shiftOnce_cases fb d with ⟨hc, e⟩ | ⟨-, e⟩ <;> rw [e]
  · refine ⟨hcur, Nat.mod_eq_zero_of_dvd ?_⟩
    have hlt : d.bitCount.toNat + 1 < 8 := by
      have := d.bitCount.isLt
      have : d.bitCount.toNat ≠ 7 := fun h7 => hc (BitVec.eq_of_toNat_eq h7)
      omega
    have hcount : (d.bitCount + 1).toNat = d.bitCount.toNat + 1 := by
      rw [BitVec.toNat_add]; exact Nat.mod_eq_of_lt hlt
    have hdvd : 2 ^ (d.bitCount.toNat + 1) ∣ d.value.toNat * 2 ^ 1 := by
      rw [Nat.pow_succ]; exact Nat.mul_dvd_mul_right (Nat.dvd_of_mod_eq_zero hval) 2
    show 2 ^ (d.bitCount + 1).toNat ∣ (d.value <<< 1).toNat
    rw [hcount, BitVec.toNat_shiftLeft, Nat.shiftLeft_eq]
    exact (Nat.dvd_mod_iff (Nat.pow_dvd_pow 2 (by omega))).2 hdvd
  · exact ⟨Nat.le_succ_of_le hcur, Nat.mod_one _⟩

/-- A shift doubles `range` and `value` alike; the byte of the eighth shift is below the 256 that an aligned value is short
of `range * 256`. -/
theorem shiftOnce_below (fb : Memory) {d : Bd} (ha : d.Aligned) (hr : d.range.toNat < 128) (h : d.Below) :
    (shiftOnce fb d).Below := by
  have hrange : (d.range <<< 1).toNat = 2 * d.range.toNat := by
    rw [BitVec.toNat_shiftLeft, Nat.shiftLeft_eq]; omega
  have hbelow : d.value.toNat < d.range.toNat * 256 := h
  rcases shiftOnce_cases fb d with ⟨-, e⟩ | ⟨hc, e⟩ <;> rw [e]
  · show (d.value <<< 1).toNat < (d.range <<< 1).toNat * 256
    rw [hrange, BitVec.toNat_shiftLeft, Nat.shiftLeft_eq]
    omega
  · have hval : d.value.toNat % 128 = 0 := by
      have := ha.2
      rwa [bitCount_toNat_of_eq_seven hc] at this
    have hb := (nextByte fb d).1.isLt
    show (d.value <<< 1 ||| (nextByte fb d).1.setWidth 16).toNat < (d.range <<< 1).toNat * 256
    rw [hrange, shiftLeft_or_byte_toNat hval]
    omega

/-- Taking `split * 256` off a value leaves its low byte, and with it its low zeros. -/
theorem sub_split_mod {v m c : Nat} (hc : c < 8) (h : v % 2 ^ c = 0) : (v - m * 256) % 2 ^ c = 0 := by
  have h256 : 2 ^ c ∣ m * 256 := (Nat.pow_dvd_pow 2 (show c ≤ 8 by omega)).trans (Nat.dvd_mul_left _ m)
  exact Nat.mod_eq_zero_of_dvd (Nat.dvd_sub (Nat.dvd_of_mod_eq_zero h) h256)

/-- `range` after a decoded 1, before `Renormalise`. -/
theorem range_sub_split_toNat (d : Bd) (p : Prob) :
    (BitVec.ofNat 8 (d.range.toNat - splitOf d.range p)).toNat = d.range.toNat - splitOf d.range p := by
  have := d.range.isLt
  rw [BitVec.toNat_ofNat]; omega

/-- `range` after a decoded 0, before `Renormalise`. -/
theorem range_split_toNat (d : Bd) (p : Prob) : (BitVec.ofNat 8 (splitOf d.range p)).toNat = splitOf d.range p := by
  have := splitOf_le d.range p
  rw [BitVec.toNat_ofNat]; omega

/-- `value` after a decoded 1, before `Renormalise`. -/
theorem value_sub_split_toNat (d : Bd) (p : Prob) :
    (BitVec.ofNat 16 (d.value.toNat - splitOf d.range p * 256)).toNat = d.value.toNat - splitOf d.range p * 256 := by
  have := d.value.isLt
  rw [BitVec.toNat_ofNat]; omega

/-- R26 (a): a read leaves a range of at least 128. -/
theorem decodeBool_range (fb : Memory) (p : Prob) {d : Bd} (h : 2 ≤ d.range.toNat) :
    128 ≤ (decodeBool fb p d).2.range.toNat := by
  have hpos := splitOf_pos d.range p
  have hlt := splitOf_lt d.range p h
  rcases decodeBool_cases fb p d with ⟨-, e⟩ | ⟨-, e⟩ <;> rw [e] <;> refine renormalise_range _ ?_
  · show 1 ≤ (BitVec.ofNat 8 _).toNat
    rw [range_sub_split_toNat]; omega
  · show 1 ≤ (BitVec.ofNat 8 _).toNat
    rw [range_split_toNat]; exact hpos

/-- R26 (c) and (d). -/
theorem decodeBool_aligned (fb : Memory) (p : Prob) : (decodeBool fb p).Keeps Bd.Aligned := fun d h =>
  decodeBool_induct p d
    (fun _ => ⟨h.1, by rw [value_sub_split_toNat]; exact sub_split_mod d.bitCount.isLt h.2⟩)
    (fun _ => h) fun _ he _ => shiftOnce_aligned fb he

/-- R26 (a) to (d): every read keeps them. -/
theorem decodeBool_ready (fb : Memory) (p : Prob) : (decodeBool fb p).Keeps Bd.Ready := fun d h => by
  obtain ⟨hbase, hlen, -, -⟩ := decodeBool_slice fb p d
  obtain ⟨hcur, hval⟩ := decodeBool_aligned fb p d h.aligned
  obtain ⟨hr, -, -, hwin⟩ := h
  exact ⟨decodeBool_range fb p (by omega), hcur, hval, by rw [hbase, hlen]; exact hwin⟩

/-- R26 (e): a decoded 1 leaves `value - split * 256 < (range - split) * 256`, a decoded 0 `value < split * 256`, and the
shifts keep it. -/
theorem decodeBool_below (fb : Memory) (p : Prob) : (decodeBool fb p).Keeps fun d => d.Ready ∧ d.Below :=
  fun d ⟨hready, hbelow⟩ => by
  refine ⟨decodeBool_ready fb p d hready, ?_⟩
  have hv : d.value.toNat < d.range.toNat * 256 := hbelow
  have ha := hready.aligned
  refine (decodeBool_induct (P := fun e => e.Aligned ∧ e.Below) p d (fun _ => ⟨⟨ha.1, ?_⟩, ?_⟩) (fun h0 => ⟨ha, ?_⟩)
    fun e he hr => ⟨shiftOnce_aligned fb he.1, shiftOnce_below fb he.1 hr he.2⟩).2
  · rw [value_sub_split_toNat]; exact sub_split_mod d.bitCount.isLt ha.2
  · show (BitVec.ofNat 16 _).toNat < (BitVec.ofNat 8 _).toNat * 256
    rw [value_sub_split_toNat, range_sub_split_toNat]; omega
  · show d.value.toNat < (BitVec.ofNat 8 _).toNat * 256
    rw [range_split_toNat]; exact h0

/-- The decoder that `BD.INIT` constructs over a buffer inside FB. -/
theorem construct_ready (fb : Memory) {base len : Addr} (h : base.toNat + len.toNat ≤ addrSpace) :
    (Bd.construct fb base len).Ready :=
  ⟨show 128 ≤ BitVec.toNat (255 : BitVec 8) by decide, Nat.le_refl 2, Nat.mod_one _, h⟩

/-- A first byte below 255 keeps the two loaded bytes below `255 * 256`. -/
theorem construct_below {fb : Memory} {base len : Addr} (h : sliceByteAt fb base len 0 ≠ 0xFF) :
    (Bd.construct fb base len).Below := by
  have h0 : (sliceByteAt fb base len 0).toNat ≠ 255 := fun e => h (BitVec.eq_of_toNat_eq e)
  have := (sliceByteAt fb base len 0).isLt
  have := (sliceByteAt fb base len 1).isLt
  rw [construct_eq, Bd.Below, toNat_append_add, show BitVec.toNat (255 : BitVec 8) = 255 from rfl]
  omega

/-! ### The BD commands -/

theorem bufferFits_iff (s : State) : s.bufferFits = true ↔ s.argBase.toNat + s.argLen.toNat ≤ addrSpace := by
  rw [State.bufferFits, decide_eq_true_iff]

/-- `BD.INIT` with a buffer that completes has constructed a decoder over it, and the buffer lies inside FB. -/
theorem exec_bdInit_next {s t : State} (hn : s.argNull = false) (he : exec .bdInit s = .next t) :
    s.bufferFits = true ∧ t.bd = Bd.construct s.fb s.argBase s.argLen := by
  have he' : execBdInit s = .next t := he
  cases hb : s.bufferFits with
  | true =>
    rw [execBdInit_of_fits hn hb, Host.Outcome.next.injEq] at he'
    exact ⟨rfl, by rw [← he']⟩
  | false => simp [execBdInit, hn, hb] at he'

/-- The frame of the BD commands: they write the BD registers, `RES`, the position and the result (40_bd_commands R110,
R115 to R119). -/
theorem exec_bd_frame {s t : State} {i : Instr} (hi : i ≠ .fhParse) (he : exec i s = .next t) :
    t = { s with bd := t.bd, res := t.res, posByte := t.posByte, posBit := t.posBit, result := t.result
                 draws := t.draws } := by
  rcases exec_bd_cases s hi with e | ⟨rd, -, -, e⟩ | ⟨-, -, -, e⟩ | ⟨-, -, -, e⟩ | ⟨-, -, e⟩ <;>
    simp only [e, Host.Outcome.next.injEq, reduceCtorEq] at he <;> subst he
  · rfl
  · rfl
  · rfl
  · simp only [State.reportPos]; split <;> rfl

/-- A property of the BD registers that every decoded bit keeps is kept by every BD command but `BD.INIT`. -/
theorem exec_bd_keeps {P : Bd → Prop} {s t : State} {i : Instr} (hP : ∀ p, (decodeBool s.fb p).Keeps P)
    (hi : i ≠ .bdInit) (hi' : i ≠ .fhParse) (hs : P s.bd) (he : exec i s = .next t) : P t.bd := by
  rcases exec_bd_cases s hi' with e | ⟨rd, hrd, -, e⟩ | ⟨h, -⟩ | ⟨h, -⟩ | ⟨-, -, e⟩
  · rw [e, Host.Outcome.next.injEq] at he; subst he; exact hs
  · rw [e, Host.Outcome.next.injEq] at he; subst he; exact readOf_keeps hP hrd s.bd hs
  · exact absurd h hi
  · exact absurd h hi
  · rw [e, Host.Outcome.next.injEq] at he; subst he
    show P s.reportPos.bd
    rwa [State.reportPos_bd]

/-- Settles O30: the construction establishes the invariants, every decoded bit keeps them, and a BD command touches the
decoder in no other way. -/
theorem workingRegisterInvariants : Obligations.WorkingRegisterInvariants := by
  refine ⟨fun s t hn he => ?_, fun s t i hi hi' hs he => ?_⟩
  · obtain ⟨hb, e⟩ := exec_bdInit_next hn he
    rw [e]
    exact ⟨construct_ready s.fb ((bufferFits_iff s).1 hb), construct_below⟩
  · exact ⟨exec_bd_keeps (decodeBool_ready s.fb) hi hi' hs he,
      fun hbelow => (exec_bd_keeps (decodeBool_below s.fb) hi hi' ⟨hs, hbelow⟩ he).2⟩

end Sys2Proof.Machine

/-! SUPPORT. Steps, `STATUS`, and the machine's invariant: what the coded elements can give, what `FH.PARSE` leaves of it,
and that every step keeps it; with the statements about them. -/

namespace Sys2Proof.Machine

/-! ### Steps -/

theorem step_of_pending {s : State} {a : HostAction} {rest : List HostAction} (h : s.pending = a :: rest) :
    step s = perform a { s with pending := rest } := by
  simp only [step, h]

theorem runCommand_of_decode {w : CmdWord} {i : Instr} (h : decode w = .ok i) (s : State) :
    runCommand w s = exec i s := by
  simp only [runCommand, h]

theorem runCommand_of_illegal {w : CmdWord} {e : Illegal} (h : decode w = .error e) (s : State) :
    runCommand w s = .next (s.raise .illegalCmd) := by
  simp only [runCommand, h]

/-- Settles O5: the step performs the action, which runs the word. -/
theorem stepRunsDecodedCommand : Obligations.StepRunsDecodedCommand := fun _ _ _ _ hp hw =>
  (step_of_pending hp).trans (runCommand_of_decode hw _)

/-- Settles O7: the step performs the register write. -/
theorem hostSetsArgumentRegisters : Obligations.HostSetsArgumentRegisters := fun _ _ _ _ =>
  ⟨step_of_pending, step_of_pending, step_of_pending⟩

/-! ### STATUS -/

theorem Result.code_lt (r : Result) : r.code.toNat < 3 := by cases r <;> decide

/-- The fields of `STATUS` as numbers (10_state R32). -/
theorem status_toNat (s : State) :
    s.status.toNat = s.result.code.toNat + 4 * s.bd.valid.toNat + 8 * s.fhrValid.toNat := by
  simp only [State.status, toNat_append_add, BitVec.toNat_ofBool, BitVec.ofNat_eq_ofNat, BitVec.toNat_ofNat]
  omega

/-- The three ends of an `FH.PARSE` that completes: an `Error` of the caller's contract, the commit of an accepted frame, a
`BrokenData` of a pass. -/
theorem exec_fhParse_next {s t : State} (he : exec .fhParse s = .next t) :
    (∃ c : Cause, c.result = .error ∧ t = s.failParse c) ∨ (∃ p, parseFrame s = .ok p ∧ t = p.commit) ∨
      ∃ c p, parseFrame s = .error (c, p) ∧ c.result = .brokenData ∧ t = p.failParse c := by
  rw [exec_fhParse] at he
  rcases execFhParse_cases s with ⟨-, e⟩ | ⟨-, -, e⟩ | ⟨-, -, -, e⟩ | ⟨-, p, hp, e⟩ | ⟨-, c, p, hp, e⟩ <;>
    simp only [e, Host.Outcome.next.injEq, reduceCtorEq] at he
  · exact .inl ⟨.nullBuffer, rfl, he.symm⟩
  · exact .inl ⟨.zeroSize, rfl, he.symm⟩
  · exact .inr (.inl ⟨p, hp, he.symm⟩)
  · exact .inr (.inr ⟨c, p, hp, (parseFrame_error_kept hp).2, he.symm⟩)

theorem commit_fhrValid_iff (s : State) : s.commit.fhrValid = true ↔ s.commit.result = .ok := by
  simp only [State.commit_fhrValid, State.commit_result]

/-- A failed `FH.PARSE` clears `fhr_valid`, and its result is not `Ok`. -/
theorem failParse_fhrValid_iff (c : Cause) (s : State) :
    (s.failParse c).fhrValid = true ↔ (s.failParse c).result = .ok := by
  cases hc : c.result with
  | ok => cases c <;> cases hc
  | brokenData => simp [failParse_brokenData_eq hc]
  | error => simp [failParse_error_eq hc]

/-- `FH.PARSE` sets `fhr_valid` exactly with `Ok`. -/
theorem exec_fhParse_fhrValid_iff {s t : State} (he : exec .fhParse s = .next t) :
    t.fhrValid = true ↔ t.result = .ok := by
  rcases exec_fhParse_next he with ⟨c, -, rfl⟩ | ⟨p, -, rfl⟩ | ⟨c, p, -, -, rfl⟩
  · exact failParse_fhrValid_iff c s
  · exact commit_fhrValid_iff p
  · exact failParse_fhrValid_iff c p

/-- Settles O55: the fields of the word, the frame of the BD commands, and the ends of `FH.PARSE`. -/
theorem statusFieldsFollowCommands : Obligations.StatusFieldsFollowCommands := by
  refine ⟨fun s => ⟨status_toNat s, ?_⟩, fun s t i he => ⟨fun hi => ?_, fun hi => ?_⟩⟩
  · have hcode := s.result.code_lt
    have hbd := Bool.toNat_le s.bd.valid
    have hfhr := Bool.toNat_le s.fhrValid
    rw [status_toNat]
    omega
  · rw [exec_bd_frame hi he]
  · subst hi
    exact exec_fhParse_fhrValid_iff he

/-! ### Widths of what a frame codes -/

section Gives

variable {α β : Type} {fb : Memory}

theorem Rd.Gives.pure {Q : α → Prop} {x : α} (h : Q x) : Rd.Gives Q (pure x : Rd α) := fun _ => h

/-- What `f` gives after a value of which `Q` holds. -/
theorem Rd.Gives.bind {Q : α → Prop} {R : β → Prop} {m : Rd α} {f : α → Rd β} (hm : m.Gives Q)
    (hf : ∀ a, Q a → (f a).Gives R) : (m >>= f).Gives R :=
  fun d => hf _ (hm d) _

/-- What `f` gives after any value. -/
theorem Rd.Gives.bind_any {R : β → Prop} {m : Rd α} {f : α → Rd β} (hf : ∀ a, (f a).Gives R) : (m >>= f).Gives R :=
  fun _ => hf _ _

theorem Rd.Gives.ite {Q : α → Prop} {b : Bool} {m m' : Rd α} (h : m.Gives Q) (h' : m'.Gives Q) :
    Rd.Gives Q (if b then m else m') := by cases b <;> assumption

theorem Rd.Gives.whenFlag {Q : α → Prop} {rd : Rd α} {absent : α} (h : rd.Gives Q) (ha : Q absent) :
    (whenFlag fb rd absent).Gives Q :=
  .bind_any fun _ => .ite h (.pure ha)

theorem Rd.Gives.whenSet {Q : α → Prop} {u : Bool} {rd : α → Rd α} (h : ∀ x, Q x → (rd x).Gives Q) {x : α} (hx : Q x) :
    (whenSet u rd x).Gives Q :=
  .ite (h x hx) (.pure hx)

theorem lit_gives_lt (n : Nat) : (lit fb n).Gives fun v => v < 2 ^ n := lit_lt fb n

/-- A signed literal of `w` magnitude bits fits a signed field of `w + 1` bits (40_bd_commands R117, log entry 22). -/
theorem signedLit_fits (w : Nat) : (signedLit fb w).Gives fun x => -(2 : Int) ^ w ≤ x ∧ x < 2 ^ w :=
  .bind (lit_gives_lt w) fun m hm => .bind_any fun s => .pure <| fits_of_natAbs_lt <| by
    cases s <;> simpa using hm

/-- A signed table stays within its width where each entry is replaced by a coded value or by one that fits. -/
theorem each_signed_heldTo {n : Nat} {w : Nat} {f : Int → Int} {v : Vector Int n}
    (h : ∀ i : Fin n, -(2 : Int) ^ w ≤ f v[i] ∧ f v[i] < 2 ^ w) :
    (each (fun old => whenFlag fb (signedLit fb w) (f old)) v).Gives (heldTo w) := by
  intro d i
  refine each_gives (Q := fun x => -(2 : Int) ^ w ≤ x ∧ x < 2 ^ w)
    (f := fun old => whenFlag fb (signedLit fb w) (f old)) (fun j => ?_) d i
  exact .whenFlag (signedLit_fits w) (h j)

end Gives

theorem zero_fits (w : Nat) : -(2 : Int) ^ w ≤ 0 ∧ (0 : Int) < 2 ^ w := fits_of_natAbs_lt (Nat.two_pow_pos w)

theorem heldTo_of_forall_eq_zero {n w : Nat} {v : Vector Int n} (h : ∀ i : Fin n, v[i] = 0) : heldTo w v := fun i => by
  rw [h i]; exact zero_fits w

theorem heldTo_four_zeros (w : Nat) : heldTo w #v[0, 0, 0, 0] := heldTo_of_forall_eq_zero (by decide)

theorem heldTo_five_zeros (w : Nat) : heldTo w #v[0, 0, 0, 0, 0] := heldTo_of_forall_eq_zero (by decide)

/-- An entry of an updated group whose own presence bit is 0 is 0 or the old one (41_frame_header R163). -/
theorem absentEntry_fits (c : Params) {w : Nat} {x : Int} (h : -(2 : Int) ^ w ≤ x ∧ x < 2 ^ w) :
    -(2 : Int) ^ w ≤ absentEntry c 0 x ∧ absentEntry c 0 x < 2 ^ w := by
  unfold absentEntry
  split
  · exact zero_fits w
  · exact h

section headers

variable (c : Params) (fb : Memory)

theorem segFeatureData_within {g : Seg} (h : g.Within c) : (segFeatureData c fb g).Gives (Seg.Within c) :=
  .bind_any fun _ =>
    .bind (each_signed_heldTo fun i => absentEntry_fits c (h.1 i)) fun _ hq =>
      .bind (each_signed_heldTo fun i => absentEntry_fits c (h.2 i)) fun _ hl => .pure ⟨hq, hl⟩

theorem segTreeProbs_within {g : Seg} (h : g.Within c) : (segTreeProbs c fb g).Gives (Seg.Within c) :=
  .bind_any fun _ => .pure h

/-- `S2` keeps the segmentation values within their widths (41_frame_header R161). -/
theorem segHeader_within {g : Seg} (h : g.Within c) : (segHeader c fb g).Gives fun r => r.1.Within c := by
  refine .bind_any fun enabled => .ite ?_ (.pure h)
  refine .bind_any fun updateMap => .bind_any fun updateData => ?_
  refine .bind (.whenSet (fun _ => segFeatureData_within c fb) h) fun _ hg => ?_
  exact .bind (.whenSet (fun _ => segTreeProbs_within c fb) hg) fun _ hg' => .pure hg'

theorem lfDeltas_within {f : LoopFilter} (h : f.Within c) : (lfDeltas c fb f).Gives (LoopFilter.Within c) := by
  obtain ⟨hlevel, href, hmode⟩ := h
  exact .bind (each_signed_heldTo href) fun _ hr => .bind (each_signed_heldTo hmode) fun _ hm => .pure ⟨hlevel, hr, hm⟩

/-- `S3` codes a level within its width and keeps the deltas within theirs (41_frame_header R164, R166). -/
theorem lfHeader_within {f : LoopFilter} (h : f.Within c) : (lfHeader c fb f).Gives fun r => r.1.Within c := by
  obtain ⟨-, href, hmode⟩ := h
  refine .bind_any fun type => .bind (lit_gives_lt _) fun level hlevel => ?_
  refine .bind_any fun sharpness => .bind_any fun adj => ?_
  refine .ite (.bind_any fun update => ?_) (.pure ⟨hlevel, href, hmode⟩)
  exact .bind (.whenSet (fun _ => lfDeltas_within c fb) ⟨hlevel, href, hmode⟩) fun _ hf => .pure hf

/-- `S4` codes quantiser deltas within their width (41_frame_header R168). -/
theorem quantHeader_within : (quantHeader c fb).Gives fun q => heldTo c.qdeltaBits q.delta :=
  .bind_any fun _ => .bind (each_signed_heldTo (heldTo_five_zeros c.qdeltaBits)) fun _ hd => .pure hd

/-- `S3P` codes a count of 1, 2, 4 or 8 (41_frame_header R167). -/
theorem partCount_mem (d : Bd) : BitVec.ofNat 4 (1 <<< (lit fb c.partCntBits d).1) ∈ ([1, 2, 4, 8] : List (BitVec 4)) := by
  have hbits : c.partCntBits.val ≤ 2 := Nat.le_of_lt_succ c.partCntBits.isLt
  have hv : (lit fb c.partCntBits d).1 < 4 :=
    Nat.lt_of_lt_of_le (lit_lt fb _ d) (Nat.pow_le_pow_right (by decide) hbits)
  generalize (lit fb c.partCntBits d).1 = v at hv ⊢
  interval_cases v <;> decide

end headers

/-! ### The reset values and the keyframe's -/

theorem Seg.within_of_zero {c : Params} {g : Seg} (hq : g.quant = #v[0, 0, 0, 0]) (hl : g.lf = #v[0, 0, 0, 0]) :
    g.Within c := by
  rw [Seg.Within, hq, hl]
  exact ⟨heldTo_four_zeros _, heldTo_four_zeros _⟩

theorem LoopFilter.within_of_zero {c : Params} {f : LoopFilter} (hl : f.level = 0) (hr : f.refDelta = #v[0, 0, 0, 0])
    (hm : f.modeDelta = #v[0, 0, 0, 0]) : f.Within c := by
  rw [LoopFilter.Within, hl, hr, hm]
  exact ⟨Nat.two_pow_pos _, heldTo_four_zeros _, heldTo_four_zeros _⟩

theorem Pcs.reset_within (c : Params) : Pcs.reset.Within c :=
  ⟨Seg.within_of_zero rfl rfl, LoopFilter.within_of_zero rfl rfl rfl⟩

theorem Fhr.reset_within (c : Params) : Fhr.reset.Within c :=
  ⟨Seg.within_of_zero rfl rfl, LoopFilter.within_of_zero rfl rfl rfl, heldTo_five_zeros _⟩

theorem defaultPcs_within (c : Params) : (defaultPcs c).Within c :=
  ⟨Seg.within_of_zero rfl rfl, LoopFilter.within_of_zero rfl rfl rfl⟩

/-- Settles O57: no decoder, no frame header, and zeros within every width. -/
theorem resetMeetsMachineInvariant : Obligations.ResetMeetsMachineInvariant :=
  ⟨by decide, rfl, fun h => absurd h (by decide), Pcs.reset_within _, Pcs.reset_within _, Fhr.reset_within _,
    fun h => absurd h (by decide)⟩

/-! ### The invariant and the ends of a command -/

/-- The invariant speaks of nothing that HOST's registers, a BD command's outputs or the list of actions
hold; of FB and of the decoder it asks what is said here. -/
theorem State.Inv.of_frame {s t : State} (h : s.Inv) (hfb : t.fb.wf) (hbd : t.bd.valid = true → t.bd.Ready)
    (e : t = { s with fb := t.fb, argBase := t.argBase, argLen := t.argLen, argNull := t.argNull, bd := t.bd
                      result := t.result, res := t.res, posByte := t.posByte, posBit := t.posBit, draws := t.draws
                      pending := t.pending }) : t.Inv := by
  obtain ⟨-, hphase, -, hrest⟩ := h
  rw [e]
  exact ⟨hfb, hphase, hbd, hrest⟩

/-- An illegal word, or a BD command that fails, changes the result alone. -/
theorem raise_inv (c : Cause) {s : State} (h : s.Inv) : (s.raise c).Inv := h

/-- With or without a decoder, every read keeps what the invariant says of one. -/
theorem decodeBool_ready_of_valid (fb : Memory) (p : Prob) :
    (decodeBool fb p).Keeps fun d => d.valid = true → d.Ready := fun d h hv => by
  obtain ⟨-, -, hvalid, -⟩ := decodeBool_slice fb p d
  exact decodeBool_ready fb p d (h (hvalid ▸ hv))

/-- Every BD command keeps the invariant. -/
theorem exec_bd_inv {s t : State} {i : Instr} (hi : i ≠ .fhParse) (h : s.Inv) (he : exec i s = .next t) : t.Inv := by
  have hframe := exec_bd_frame hi he
  have ⟨hwf, _, hbd, _⟩ := h
  have hfb : t.fb = s.fb := by rw [hframe]
  refine h.of_frame (hfb ▸ hwf) ?_ (by rw [hframe])
  by_cases hinit : i = .bdInit
  · subst hinit
    cases hn : s.argNull with
    | true =>
      have he' : execBdInit s = .next t := he
      rw [execBdInit, if_pos hn, Host.Outcome.next.injEq] at he'
      rw [← he']
      exact hbd
    | false =>
      obtain ⟨hfits, e⟩ := exec_bdInit_next hn he
      rw [e]
      exact fun _ => construct_ready s.fb ((bufferFits_iff s).1 hfits)
  · exact exec_bd_keeps (decodeBool_ready_of_valid s.fb) hinit hi hbd he

/-- PCS after `BrokenData` is the snapshot, or a free value held to its widths. -/
theorem pcsAfterFailure_within {s : State} (h : s.pcsSnap.Within s.cfg) : s.pcsAfterFailure.Within s.cfg := by
  unfold State.pcsAfterFailure
  split
  · exact h
  · exact Pcs.hold_within _ _

/-- An `FH.PARSE` that fails in the caller's contract touches neither PCS nor the decoder. -/
theorem failParse_error_inv {c : Cause} (hc : c.result = .error) {s : State} (h : s.Inv) : (s.failParse c).Inv := by
  obtain ⟨hfb, -, hbd, hpcs, hsnap, -, -⟩ := h
  rw [failParse_error_eq hc]
  exact ⟨hfb, rfl, hbd, hpcs, hsnap, Fhr.hold_within _ _, fun hv => absurd hv Bool.false_ne_true⟩

/-- An `FH.PARSE` that fails in a pass leaves PCS by its snapshot, and no decoder. -/
theorem failParse_brokenData_inv {c : Cause} (hc : c.result = .brokenData) {s : State} (hfb : s.fb.wf)
    (hsnap : s.pcsSnap.Within s.cfg) : (s.failParse c).Inv := by
  rw [failParse_brokenData_eq hc]
  exact ⟨hfb, rfl, fun hv => absurd hv Bool.false_ne_true, pcsAfterFailure_within hsnap, hsnap, Fhr.hold_within _ _,
    fun hv => absurd hv Bool.false_ne_true⟩

/-- What the commit asks of the frame it takes over. -/
theorem commit_inv {s : State} (hfb : s.fb.wf) (hpcs : s.pcs.Within s.cfg) (hsnap : s.pcsSnap.Within s.cfg)
    (hquant : heldTo s.cfg.qdeltaBits s.fhr.quant.delta) (hcount : s.pt.count = s.fhr.numOfDctPartitions)
    (hmem : s.fhr.numOfDctPartitions ∈ ([1, 2, 4, 8] : List (BitVec 4)))
    (hoff : s.fhr.firstPartOffset = if s.fhr.keyFrame then 10 else 3) : s.commit.Inv :=
  ⟨hfb, rfl, fun hv => absurd hv Bool.false_ne_true, hpcs, hsnap, ⟨hpcs.1, hpcs.2, hquant⟩,
    fun _ => ⟨hcount, hcount ▸ hmem, hoff⟩⟩

/-! ### FH.PARSE and the step -/

/-- The elements of a frame start from PCS within its widths. -/
theorem pcsIn_within {s : State} (h : s.pcs.Within s.cfg) : s.pcsIn.Within s.cfg := by
  unfold State.pcsIn
  split
  · exact defaultPcs_within _
  · exact h

/-- `S1` leaves the offset of the first partition that goes with the frame type (41_frame_header R154). -/
theorem prefixState_firstPartOffset (s : State) :
    (prefixState s).fhr.firstPartOffset = if (prefixState s).fhr.keyFrame then 10 else 3 := by
  by_cases hk : s.isKeyframe
  · have hkey : (!s.tag.getLsbD 0) = true := (keyFrame_iff s).2 hk
    rw [prefixState, if_pos hk]
    exact (if_pos hkey).symm
  · have hkey : ¬ (!s.tag.getLsbD 0) = true := fun h => hk ((keyFrame_iff s).1 h)
    rw [prefixState, if_neg hk]
    exact (if_neg hkey).symm

/-- The coded elements keep PCS within its widths, and the quantiser deltas and the partition count are what they code. -/
theorem parseElements_within {s v : State} (h : parseElements s = .ok v) (hpcs : s.pcs.Within s.cfg) :
    v.pcs.Within s.cfg ∧ heldTo s.cfg.qdeltaBits v.fhr.quant.delta ∧
      v.fhr.numOfDctPartitions ∈ ([1, 2, 4, 8] : List (BitVec 4)) := by
  obtain ⟨a, b, -, -, -, -, -, -, -, -, -, -, -, -, hseg, hlf, -, hcount, hquant, -⟩ := parseElements_values h
  refine ⟨⟨?_, ?_⟩, ?_, ?_⟩
  · rw [hseg]; exact segHeader_within s.cfg s.fb hpcs.1 _
  · rw [hlf]; exact lfHeader_within s.cfg s.fb hpcs.2 _
  · rw [hquant]; exact quantHeader_within s.cfg s.fb _
  · rw [hcount]; exact partCount_mem s.cfg s.fb _

/-- The commit of an accepted frame meets the invariant. -/
theorem parseFrame_commit_inv {s p : State} (h : s.Inv) (hp : parseFrame s = .ok p) : p.commit.Inv := by
  obtain ⟨hfb, -, -, hpcs, -⟩ := h
  have hk := parseFrame_ok_kept hp
  have hcfg : p.cfg = s.cfg := hk.cfg
  obtain ⟨v, entries, -, hv, -, e⟩ := parseFrame_ok hp
  have hopen := prefixState_opened s
  have htag := parseElements_sameTag hv
  have hpcsIn : (prefixState s.beginParse).pcs.Within (prefixState s.beginParse).cfg := by
    rw [hopen.pcs, hopen.cfg]; exact pcsIn_within hpcs
  obtain ⟨hvpcs, hvquant, hvcount⟩ := parseElements_within hv hpcsIn
  rw [hopen.cfg, ← hcfg] at hvpcs hvquant
  have hppcs : p.pcs = v.pcs := by rw [e]; simp
  have hpfhr : p.fhr = v.fhr := by rw [e]; simp
  have hppt : p.pt.count = v.fhr.numOfDctPartitions := by rw [e]; rfl
  refine commit_inv ?_ ?_ ?_ ?_ ?_ ?_ ?_
  · rw [hk.fb]; exact hfb
  · rw [hppcs]; exact hvpcs
  · rw [hk.pcsSnap, hcfg]; exact hpcs
  · rw [hpfhr]; exact hvquant
  · rw [hppt, hpfhr]
  · rw [hpfhr]; exact hvcount
  · rw [hpfhr, htag.firstPartOffset, htag.keyFrame]; exact prefixState_firstPartOffset s.beginParse

/-- `FH.PARSE` keeps the invariant, however it ends. -/
theorem exec_fhParse_inv {s t : State} (h : s.Inv) (he : exec .fhParse s = .next t) : t.Inv := by
  rcases exec_fhParse_next he with ⟨c, hc, rfl⟩ | ⟨p, hp, rfl⟩ | ⟨c, p, hp, hc, rfl⟩
  · exact failParse_error_inv hc h
  · exact parseFrame_commit_inv h hp
  · have ⟨hfb, _, _, hpcs, _⟩ := h
    have hk := (parseFrame_error_kept hp).1
    exact failParse_brokenData_inv hc (by rw [hk.fb]; exact hfb) (by rw [hk.pcsSnap, hk.cfg]; exact hpcs)

theorem exec_inv {s t : State} {i : Instr} (h : s.Inv) (he : exec i s = .next t) : t.Inv := by
  by_cases hi : i = .fhParse
  · subst hi; exact exec_fhParse_inv h he
  · exact exec_bd_inv hi h he

/-- HOST's write of a byte keeps FB canonical, and of a live decoder changes only what R26 does not speak of. -/
theorem hostWrite_inv (a : Addr) (b : Byte) {s : State} (h : s.Inv) : (s.hostWrite a b).Inv := by
  have ⟨hfb, _, hbd, _⟩ := h
  have hwrite := Memory.write_wf hfb a.isLt b
  unfold State.hostWrite
  split
  · exact h.of_frame hwrite hbd rfl
  · exact h.of_frame hwrite hbd rfl

/-- Every move of HOST keeps the invariant. -/
theorem perform_inv {a : HostAction} {s t : State} (h : s.Inv) (he : perform a s = .next t) : t.Inv := by
  cases a with
  | writeCmd w =>
    change runCommand w s = .next t at he
    cases hw : decode w with
    | ok i => exact exec_inv h (runCommand_of_decode hw s ▸ he)
    | error e =>
      rw [runCommand_of_illegal hw, Host.Outcome.next.injEq] at he
      exact he ▸ raise_inv _ h
  | setArgBase v => cases he; exact h
  | setArgLen v => cases he; exact h
  | setArgNull v => cases he; exact h
  | writeFb a b => cases he; exact hostWrite_inv a b h

/-- Settles O56: an idle step changes nothing, and every move of HOST keeps the invariant, which does not speak of the
actions to come. -/
theorem stepKeepsMachineInvariant : Obligations.StepKeepsMachineInvariant := by
  intro s t h he
  cases hp : s.pending with
  | nil =>
    simp only [step, hp, Host.Outcome.next.injEq] at he
    exact he ▸ h
  | cons a rest => exact perform_inv (s := { s with pending := rest }) h (step_of_pending hp ▸ he)

end Sys2Proof.Machine

/-! SUPPORT. FB under the commands and under HOST: what a write of HOST leaves alone, that no command writes, and that a
command sees no byte outside its window; with the statements about FB. -/

namespace Sys2Proof.Machine

/-! ### HOST's write of a byte -/

section hostWrite

variable (a : Addr) (b : Byte) (s : State)

@[simp] theorem State.hostWrite_fb : (s.hostWrite a b).fb = s.fb.write a.toNat b := by
  unfold State.hostWrite; split <;> rfl

/-- All that a write of HOST can touch. -/
theorem State.hostWrite_frame :
    s.hostWrite a b =
      { s with
        fb := (s.hostWrite a b).fb, bd := { s.bd with overlay := (s.hostWrite a b).bd.overlay }
        draws := (s.hostWrite a b).draws } := by
  unfold State.hostWrite; split <;> rfl

/-- What a decoder sees of any other byte stays. -/
theorem State.hostWrite_lookup_of_ne {x : Nat} (h : x ≠ a.toNat) :
    lookupCell (s.hostWrite a b).bd.overlay x = lookupCell s.bd.overlay x := by
  unfold State.hostWrite
  split
  · exact if_neg h.symm
  · rfl

/-- A byte that no decoder has still to fetch is no concern of the BD registers. -/
theorem State.hostWrite_bd_of_not_unread (h : s.bd.unread a.toNat = false) : (s.hostWrite a b).bd = s.bd := by
  simp [State.hostWrite, h]

end hostWrite

theorem Bd.unread_eq_false {d : Bd} {a : Nat}
    (h : d.valid = false ∨ a < d.base.toNat + d.cursor ∨ d.base.toNat + d.len.toNat ≤ a) : d.unread a = false := by
  rw [Bd.unread]
  rcases h with h | h | h
  · rw [h]; rfl
  · rw [decide_eq_false (Nat.not_le.2 h), Bool.and_false, Bool.false_and]
  · rw [decide_eq_false (Nat.not_lt.2 h), Bool.and_false]

/-- Settles O8: the step is the write, whose frame is known. -/
theorem hostWritesOneFbByte : Obligations.HostWritesOneFbByte := by
  intro s rest a b hwf hp
  let s₀ : State := { s with pending := rest }
  refine ⟨s₀.hostWrite a b, step_of_pending hp, fun x => ?_, s₀.hostWrite_frame a b,
    fun x hx => s₀.hostWrite_lookup_of_ne a b hx, fun h => s₀.hostWrite_bd_of_not_unread a b (Bd.unread_eq_false h)⟩
  rw [State.hostWrite_fb]
  exact Memory.read_write hwf a.toNat b x

/-! ### The commands never write -/

@[simp] theorem failParse_fb (c : Cause) (s : State) : (s.failParse c).fb = s.fb := by cases c <;> rfl

theorem exec_fb {i : Instr} {s t : State} (he : exec i s = .next t) : t.fb = s.fb := by
  by_cases hi : i = .fhParse
  · subst hi
    rcases exec_fhParse_next he with ⟨c, -, rfl⟩ | ⟨p, hp, rfl⟩ | ⟨c, p, hp, -, rfl⟩
    · exact failParse_fb c s
    · exact (parseFrame_ok_kept hp).fb
    · exact (failParse_fb c p).trans (parseFrame_error_kept hp).1.fb
  · rw [exec_bd_frame hi he]

/-- Settles O9: BD commands have no FB in their frame, and no pass or end of `FH.PARSE` writes it. -/
theorem commandsNeverWriteMemory : Obligations.CommandsNeverWriteMemory := fun i s t he => by
  have hfb : t.fb = s.fb := exec_fb he
  exact ⟨hfb, fun a => by rw [hfb]⟩

/-! ### A buffer beyond the address space -/

/-- Settles O11: such a buffer does not fit, and it is not empty, as every base lies inside FB. -/
theorem bufferBeyondAddressSpaceRefused : Obligations.BufferBeyondAddressSpaceRefused := by
  intro s hn hover
  have hfits : ¬ s.bufferFits = true := by rw [bufferFits_iff]; exact Nat.not_le.2 hover
  have hlen : s.argLen ≠ 0 := by
    intro h0
    have hbase : s.argBase.toNat < 2 ^ 32 := s.argBase.isLt
    rw [h0, show (0 : Addr).toNat = 0 from rfl] at hover
    omega
  refine ⟨?_, ?_⟩
  · simp only [exec, execBdInit, hn, hfits, Bool.false_eq_true, if_false]
  · simp only [exec, execFhParse, hn, hlen, hfits, Bool.false_eq_true, if_false]

end Sys2Proof.Machine

/-! SUPPORT. Noninterference: two decoders over the same slice bytes read alike, and so does a whole `FH.PARSE` over two
frame buffers with the same bytes in its window. -/

namespace Sys2Proof.Machine

/-! ### Composition of related reads -/

section Rel

variable {α β α' β' : Type} {R : Bd → Bd → Prop}

theorem Rd.Rel.pure {S : α → α' → Prop} {x : α} {x' : α'} (h : S x x') : Rd.Rel R S (pure x) (pure x') :=
  fun _ _ hd => ⟨h, hd⟩

/-- What `f` and `f'` read after related values. -/
theorem Rd.Rel.bind {S : α → α' → Prop} {T : β → β' → Prop} {m : Rd α} {m' : Rd α'} {f : α → Rd β} {f' : α' → Rd β'}
    (hm : m.Rel R S m') (hf : ∀ x x', S x x' → (f x).Rel R T (f' x')) : (m >>= f).Rel R T (m' >>= f') := fun d d' hd => by
  obtain ⟨hx, hd'⟩ := hm d d' hd
  exact hf _ _ hx _ _ hd'

/-- What `f` and `f'` read after the same value. -/
theorem Rd.Rel.bind_eq {T : β → β' → Prop} {m m' : Rd α} {f : α → Rd β} {f' : α → Rd β'} (hm : m.Rel R Eq m')
    (hf : ∀ x, (f x).Rel R T (f' x)) : (m >>= f).Rel R T (m' >>= f') :=
  hm.bind fun x _ e => e ▸ hf x

theorem Rd.Rel.ite {S : α → α' → Prop} {b : Bool} {m n : Rd α} {m' n' : Rd α'} (h : m.Rel R S m') (h' : n.Rel R S n') :
    Rd.Rel R S (if b then m else n) (if b then m' else n') := by cases b <;> assumption

theorem Rd.Rel.whenSet {u : Bool} {rd rd' : α → Rd α} (h : ∀ x, (rd x).Rel R Eq (rd' x)) (x : α) :
    (whenSet u rd x).Rel R Eq (whenSet u rd' x) :=
  .ite (h x) (.pure rfl)

theorem Rd.Rel.eachL {f f' : α → β → Rd β} (h : ∀ a b, (f a b).Rel R Eq (f' a b)) (l : List (α × β)) :
    (eachL f l).Rel R Eq (eachL f' l) := by
  induction l with
  | nil => exact .pure rfl
  | cons ab rest ih => exact (h ab.1 ab.2).bind_eq fun x => ih.bind_eq fun xs => .pure rfl

theorem Rd.Rel.eachV {n : Nat} {f f' : α → β → Rd β} (h : ∀ a b, (f a b).Rel R Eq (f' a b)) (ps : Vector α n)
    (old : Vector β n) : (eachV f ps old).Rel R Eq (eachV f' ps old) := fun d d' hd => by
  obtain ⟨hx, hd'⟩ := Rd.Rel.eachL h (ps.toList.zip old.toList) d d' hd
  exact ⟨Vector.toList_inj.1 hx, hd'⟩

theorem Rd.Rel.each {n : Nat} {f f' : β → Rd β} (h : ∀ b, (f b).Rel R Eq (f' b)) (old : Vector β n) :
    (each f old).Rel R Eq (each f' old) :=
  .eachV (fun _ b => h b) old old

end Rel

/-! ### The reads of a header, over any relation of decoders that `DecodeBool` keeps and answers alike -/

section headers

variable {α : Type} {R : Bd → Bd → Prop} {fb fb' : Memory} (h : ∀ p, (decodeBool fb p).Rel R Eq (decodeBool fb' p))
include h

theorem litFrom_rel (n v : Nat) : (litFrom fb n v).Rel R Eq (litFrom fb' n v) := by
  induction n generalizing v with
  | zero => exact .pure rfl
  | succ n ih => exact (h _).bind_eq fun b => ih _

theorem lit_rel (n : Nat) : (lit fb n).Rel R Eq (lit fb' n) := litFrom_rel h n 0

theorem litField_rel (w n : Nat) : (litField fb w n).Rel R Eq (litField fb' w n) :=
  (lit_rel h n).bind_eq fun _ => .pure rfl

theorem flag_rel : (flag fb).Rel R Eq (flag fb') := h _

theorem signedLit_rel (n : Nat) : (signedLit fb n).Rel R Eq (signedLit fb' n) :=
  (lit_rel h n).bind_eq fun _ => (h _).bind_eq fun _ => .pure rfl

theorem updateAt_rel (p : Prob) {rd rd' : Rd α} (hr : rd.Rel R Eq rd') (absent : α) :
    (updateAt fb p rd absent).Rel R Eq (updateAt fb' p rd' absent) :=
  (h p).bind_eq fun _ => .ite hr (.pure rfl)

theorem whenFlag_rel {rd rd' : Rd α} (hr : rd.Rel R Eq rd') (absent : α) :
    (whenFlag fb rd absent).Rel R Eq (whenFlag fb' rd' absent) :=
  updateAt_rel h _ hr absent

theorem colorHeader_rel : (colorHeader fb).Rel R Eq (colorHeader fb') :=
  (flag_rel h).bind_eq fun _ => (flag_rel h).bind_eq fun _ => .pure rfl

theorem segFeatureData_rel (c : Params) (g : Seg) : (segFeatureData c fb g).Rel R Eq (segFeatureData c fb' g) :=
  (flag_rel h).bind_eq fun _ =>
    (Rd.Rel.each (fun _ => whenFlag_rel h (signedLit_rel h _) _) _).bind_eq fun _ =>
      (Rd.Rel.each (fun _ => whenFlag_rel h (signedLit_rel h _) _) _).bind_eq fun _ => .pure rfl

theorem segTreeProbs_rel (c : Params) (g : Seg) : (segTreeProbs c fb g).Rel R Eq (segTreeProbs c fb' g) :=
  (Rd.Rel.each (fun _ => whenFlag_rel h (litField_rel h 8 8) _) _).bind_eq fun _ => .pure rfl

theorem segHeader_rel (c : Params) (g : Seg) : (segHeader c fb g).Rel R Eq (segHeader c fb' g) := by
  refine (flag_rel h).bind_eq fun enabled => .ite ?_ (.pure rfl)
  refine (flag_rel h).bind_eq fun updateMap => (flag_rel h).bind_eq fun updateData => ?_
  refine (Rd.Rel.whenSet (segFeatureData_rel h c) _).bind_eq fun g => ?_
  exact (Rd.Rel.whenSet (segTreeProbs_rel h c) _).bind_eq fun g => .pure rfl

theorem lfDeltas_rel (c : Params) (f : LoopFilter) : (lfDeltas c fb f).Rel R Eq (lfDeltas c fb' f) :=
  (Rd.Rel.each (fun _ => whenFlag_rel h (signedLit_rel h _) _) _).bind_eq fun _ =>
    (Rd.Rel.each (fun _ => whenFlag_rel h (signedLit_rel h _) _) _).bind_eq fun _ => .pure rfl

theorem lfHeader_rel (c : Params) (f : LoopFilter) : (lfHeader c fb f).Rel R Eq (lfHeader c fb' f) := by
  refine (flag_rel h).bind_eq fun type => (lit_rel h _).bind_eq fun level => ?_
  refine (litField_rel h 3 3).bind_eq fun sharpness => (flag_rel h).bind_eq fun adj => ?_
  refine .ite ((flag_rel h).bind_eq fun update => ?_) (.pure rfl)
  exact (Rd.Rel.whenSet (lfDeltas_rel h c) _).bind_eq fun f => .pure rfl

theorem quantHeader_rel (c : Params) : (quantHeader c fb).Rel R Eq (quantHeader c fb') :=
  (litField_rel h 7 7).bind_eq fun _ =>
    (Rd.Rel.each (fun _ => whenFlag_rel h (signedLit_rel h _) _) _).bind_eq fun _ => .pure rfl

theorem copyMode_rel (refreshed : Bool) : (copyMode fb refreshed).Rel R Eq (copyMode fb' refreshed) :=
  .ite (.pure rfl) (litField_rel h 2 2)

theorem refreshLast_rel (c : Params) (absent : Bool) : (refreshLast c fb absent).Rel R Eq (refreshLast c fb' absent) :=
  .ite (flag_rel h) (.pure rfl)

theorem interRefreshTail_rel (c : Params) (absent golden alternate : Bool) (toGolden toAlternate : BitVec 2) :
    (interRefreshTail c fb absent golden alternate toGolden toAlternate).Rel R Eq
      (interRefreshTail c fb' absent golden alternate toGolden toAlternate) :=
  (flag_rel h).bind_eq fun _ => (flag_rel h).bind_eq fun _ => (flag_rel h).bind_eq fun _ =>
    (refreshLast_rel h c absent).bind_eq fun _ => .pure rfl

theorem interRefresh_rel (c : Params) (absent : Bool) : (interRefresh c fb absent).Rel R Eq (interRefresh c fb' absent) := by
  refine (flag_rel h).bind_eq fun golden => (flag_rel h).bind_eq fun alternate => ?_
  refine (copyMode_rel h golden).bind_eq fun toGolden => .ite (.pure rfl) ?_
  refine (copyMode_rel h alternate).bind_eq fun toAlternate => .ite (.pure rfl) ?_
  exact (interRefreshTail_rel h c absent golden alternate toGolden toAlternate).bind_eq fun r => .pure rfl

theorem keyRefreshHeader_rel : (keyRefreshHeader fb).Rel R Eq (keyRefreshHeader fb') :=
  (flag_rel h).bind_eq fun _ => .pure rfl

theorem tokenProbs_rel (c : Params) (old : CoeffTable) : (tokenProbs c fb old).Rel R Eq (tokenProbs c fb' old) :=
  .eachV (.eachV (.eachV (.eachV fun p o => updateAt_rel h p (litField_rel h 8 8) o))) _ _

theorem skipHeader_rel : (skipHeader fb).Rel R Eq (skipHeader fb') :=
  (flag_rel h).bind_eq fun _ => .ite ((litField_rel h 8 8).bind_eq fun _ => .pure rfl) (.pure rfl)

theorem interProbs_rel : (interProbs fb).Rel R Eq (interProbs fb') :=
  (litField_rel h 8 8).bind_eq fun _ => (litField_rel h 8 8).bind_eq fun _ => (litField_rel h 8 8).bind_eq fun _ => .pure rfl

theorem modeProbs_rel {n : Nat} (c : Params) (old : Vector Prob n) :
    (modeProbs c fb old).Rel R Eq (modeProbs c fb' old) := by
  unfold modeProbs
  split
  · exact .each (fun o => updateAt_rel h _ (litField_rel h 8 8) o) old
  · exact whenFlag_rel h (.each (fun _ => litField_rel h 8 8) old) old

theorem intraProbs_rel (c : Params) (y : Vector Prob 4) (uv : Vector Prob 3) :
    (intraProbs c fb y uv).Rel R Eq (intraProbs c fb' y uv) :=
  (modeProbs_rel h c y).bind_eq fun _ => (modeProbs_rel h c uv).bind_eq fun _ => .pure rfl

theorem mvProb_rel (c : Params) : (mvProb c fb).Rel R Eq (mvProb c fb') := by
  unfold mvProb
  split
  · exact litField_rel h 8 8
  · exact (lit_rel h 7).bind_eq fun _ => .pure rfl

theorem mvProbs_rel (c : Params) (old : MvTable) : (mvProbs c fb old).Rel R Eq (mvProbs c fb' old) :=
  .eachV (.eachV fun p o => updateAt_rel h p (mvProb_rel h c) o) _ _

theorem boolWord_rel (p : Prob) : (boolWord fb p).Rel R Eq (boolWord fb' p) := (h p).bind_eq fun _ => .pure rfl

theorem litWord_rel (n : Nat) : (litWord fb n).Rel R Eq (litWord fb' n) := (lit_rel h n).bind_eq fun _ => .pure rfl

theorem signedWord_rel (n : Nat) : (signedWord fb n).Rel R Eq (signedWord fb' n) :=
  (signedLit_rel h n).bind_eq fun _ => .pure rfl

end headers

/-! ### Decoders over the same slice bytes -/

/-- `d` with its slice at `b` of `fb`, and `d'`, the same decoder but for its slice at `b'` of `fb'`, see the same bytes. -/
structure SameSlice (fb fb' : Memory) (b b' : Addr) (d d' : Bd) : Prop where
  base : d.base = b
  eq : d' = { d with base := b' }
  bytes : ∀ i, i < d.len.toNat → d.sliceByte fb i = d'.sliceByte fb' i

namespace SameSlice

variable {fb fb' : Memory} {b b' : Addr} {d d' : Bd}

theorem nextByte_fst (h : SameSlice fb fb' b b' d d') : (nextByte fb d).1 = (nextByte fb' d').1 := by
  obtain ⟨-, rfl, hbytes⟩ := h
  simp only [nextByte]
  split
  · rename_i hc; exact hbytes d.cursor hc
  · rfl

theorem shiftOnce (h : SameSlice fb fb' b b' d d') : SameSlice fb fb' b b' (shiftOnce fb d) (shiftOnce fb' d') := by
  have hbyte := h.nextByte_fst
  obtain ⟨hbase, rfl, hbytes⟩ := h
  rcases shiftOnce_cases fb d with ⟨hc, e⟩ | ⟨hc, e⟩ <;>
    rcases shiftOnce_cases fb' { d with base := b' } with ⟨hc', e'⟩ | ⟨hc', e'⟩ <;> rw [e, e']
  · exact ⟨hbase, rfl, hbytes⟩
  · exact absurd hc' hc
  · exact absurd hc hc'
  · exact ⟨hbase, by rw [hbyte], hbytes⟩

theorem renormLoop (k : Nat) (h : SameSlice fb fb' b b' d d') :
    SameSlice fb fb' b b' (renormLoop fb k d) (renormLoop fb' k d') := by
  induction k generalizing d d' with
  | zero => exact h
  | succ k ih =>
    have hrange : d'.range = d.range := by rw [h.eq]
    simp only [Machine.renormLoop, hrange]
    split
    · exact ih h.shiftOnce
    · exact h

end SameSlice

/-- Two decoders over the same slice bytes decode the same bit, and are two such decoders after it. -/
theorem decodeBool_sameSlice {fb fb' : Memory} {b b' : Addr} (p : Prob) :
    (decodeBool fb p).Rel (SameSlice fb fb' b b') Eq (decodeBool fb' p) := by
  rintro d _ ⟨hbase, rfl, hbytes⟩
  rcases decodeBool_cases fb p d with ⟨hv, e⟩ | ⟨hv, e⟩ <;>
    rcases decodeBool_cases fb' p { d with base := b' } with ⟨hv', e'⟩ | ⟨hv', e'⟩ <;> rw [e, e']
  · exact ⟨rfl, SameSlice.renormLoop 7 ⟨hbase, rfl, hbytes⟩⟩
  · exact absurd hv (Nat.not_le.2 hv')
  · exact absurd hv' (Nat.not_le.2 hv)
  · exact ⟨rfl, SameSlice.renormLoop 7 ⟨hbase, rfl, hbytes⟩⟩

/-- A decoder sees in its slice the same bytes of both frame buffers. -/
def Bd.SeesAlike (fb fb' : Memory) (d : Bd) : Prop := SameSlice fb fb' d.base d.base d d

theorem Bd.seesAlike_of_agreeOn {fb fb' : Memory} {d : Bd} (h : fb.agreeOn d.base.toNat d.len.toNat fb') :
    d.SeesAlike fb fb' :=
  ⟨rfl, rfl, fun i hi => by rw [Bd.sliceByte, Bd.sliceByte, h _ (by omega) (by omega)]⟩

/-- A read of one decoder over two frame buffers. -/
theorem Bd.SeesAlike.read {α : Type} {fb fb' : Memory} {d : Bd} {m m' : Rd α} (h : d.SeesAlike fb fb')
    (hm : m.Rel (SameSlice fb fb' d.base d.base) Eq m') : m' d = m d ∧ (m d).2.SeesAlike fb fb' := by
  obtain ⟨hvalue, hbase, hbd, hbytes⟩ := hm d d h
  have hbd' : (m' d).2 = (m d).2 := by rw [hbd, ← hbase]
  exact ⟨Prod.ext hvalue.symm hbd', rfl, rfl, fun i hi => hbd' ▸ hbytes i hi⟩

end Sys2Proof.Machine

/-! SUPPORT. The passes of `FH.PARSE` and the commands over two frame buffers with the same bytes in the command's window;
with the statement that no command sees another byte. -/

namespace Sys2Proof.Machine

/-! ### FB outside the decoder -/

theorem Memory.agreeOn.read_add {m m' : Memory} {base len : Nat} (h : m.agreeOn base len m') {i : Nat} (hi : i < len) :
    m'.read (base + i) = m.read (base + i) :=
  (h _ (by omega) (by omega)).symm

theorem Memory.agreeOn.read24_add {m m' : Memory} {base len : Nat} (h : m.agreeOn base len m') {i : Nat}
    (hi : i + 3 ≤ len) : m'.read24 (base + i) = m.read24 (base + i) := by
  simp only [Memory.read24, Nat.add_assoc, h.read_add (show i < len by omega), h.read_add (show i + 1 < len by omega),
    h.read_add (show i + 2 < len by omega)]

theorem Memory.agreeOn.read16_add {m m' : Memory} {base len : Nat} (h : m.agreeOn base len m') {i : Nat}
    (hi : i + 2 ≤ len) : m'.read16 (base + i) = m.read16 (base + i) := by
  simp only [Memory.read16, Nat.add_assoc, h.read_add (show i < len by omega), h.read_add (show i + 1 < len by omega)]

theorem Memory.agreeOn.mono {m m' : Memory} {base len b l : Nat} (h : m.agreeOn base len m') (hb : base ≤ b)
    (hl : b + l ≤ base + len) : m.agreeOn b l m' :=
  fun a ha ha' => h a (by omega) (by omega)

theorem construct_of_agreeOn {fb fb' : Memory} {base len : Addr} (h : fb.agreeOn base.toNat len.toNat fb') :
    Bd.construct fb' base len = Bd.construct fb base len := by
  have hbyte : ∀ i, sliceByteAt fb' base len i = sliceByteAt fb base len i := fun i => by
    unfold sliceByteAt
    split
    · rename_i hi; exact h.read_add hi
    · rfl
  simp only [construct_eq, hbyte]

theorem codedSizes_of_agreeOn {fb fb' : Memory} {base len : Nat} (h : fb.agreeOn base len fb') {t n : Nat}
    (hn : t + 3 * n ≤ len) : codedSizes fb' base t n = codedSizes fb base t n := by
  induction n generalizing t with
  | zero => rfl
  | succ n ih => rw [codedSizes, codedSizes, h.read24_add (by omega), ih (by omega)]

/-- The partition-size table is read only where it ends inside the frame. -/
theorem extractLayout_of_agreeOn {fb fb' : Memory} {base len : Nat} (h : fb.agreeOn base len fb') (zb : Bool) (t n : Nat) :
    extractLayout zb fb' base len t n = extractLayout zb fb base len t n := by
  unfold extractLayout
  split
  · rfl
  · rw [codedSizes_of_agreeOn h (by omega)]

/-! ### States that differ in FB alone, outside the window -/

/-- `s'` is `s` over the frame buffer `fb'`, which has the same bytes in the argument buffer; that lies inside FB. -/
structure SameFrame (fb' : Memory) (s s' : State) : Prop where
  eq : s' = { s with fb := fb' }
  frame : s.fb.agreeOn s.argBase.toNat s.argLen.toNat fb'
  fits : s.argBase.toNat + s.argLen.toNat ≤ addrSpace

/-- And the decoder sees the same bytes of both in its slice. -/
structure SameWindows (fb' : Memory) (s s' : State) : Prop extends SameFrame fb' s s' where
  slice : s.bd.SeesAlike s.fb fb'

/-- Two passes that end alike: with related states, or with one cause in states that differ in FB alone. -/
inductive Pass.Alike (fb' : Memory) (T : State → State → Prop) : Pass → Pass → Prop
  | ok {t t' : State} (h : T t t') : Pass.Alike fb' T (.ok t) (.ok t')
  | error (c : Cause) (t : State) : Pass.Alike fb' T (.error (c, t)) (.error (c, { t with fb := fb' }))

variable {fb' : Memory}

theorem Pass.Alike.bind {T U : State → State → Prop} {p p' : Pass} {f f' : State → Pass} (hp : Pass.Alike fb' T p p')
    (hf : ∀ t t', T t t' → Pass.Alike fb' U (f t) (f' t')) : Pass.Alike fb' U (p >>= f) (p' >>= f') := by
  cases hp with
  | ok h => exact hf _ _ h
  | error c t => exact .error c t

/-- An update that writes neither FB nor the argument registers nor the BD registers, and reads no FB. -/
theorem SameWindows.map {s s' : State} (h : SameWindows fb' s s') {f : State → State}
    (hover : ∀ t, f { t with fb := fb' } = { f t with fb := fb' } := by intro _; rfl)
    (hkeeps : ∀ t, f t = { f t with fb := t.fb, argBase := t.argBase, argLen := t.argLen, bd := t.bd } := by
      intro _; rfl) :
    SameWindows fb' (f s) (f s') := by
  obtain ⟨⟨rfl, hframe, hfits⟩, hslice⟩ := h
  refine ⟨⟨hover s, ?_, ?_⟩, ?_⟩ <;> rw [hkeeps s] <;> assumption

theorem SameWindows.ite {b : Bool} {s s' t t' : State} (h : SameWindows fb' s s') (h' : SameWindows fb' t t') :
    SameWindows fb' (if b then s else t) (if b then s' else t') := by cases b <;> assumption

section read

variable {α : Type} {s s' : State} {rd rd' : Rd α}

/-- A read gives the same value over both, and leaves decoders that still see the same. -/
theorem SameWindows.read (h : SameWindows fb' s s')
    (hrd : rd.Rel (SameSlice s.fb fb' s.bd.base s.bd.base) Eq rd') :
    (rd' s'.bd).1 = (rd s.bd).1 ∧ SameWindows fb' (s.setBd (rd s.bd).2) (s'.setBd (rd' s'.bd).2) := by
  obtain ⟨⟨rfl, hframe, hfits⟩, hslice⟩ := h
  obtain ⟨hread, hslice'⟩ := hslice.read hrd
  rw [hread]
  exact ⟨rfl, ⟨rfl, hframe, hfits⟩, hslice'⟩

theorem SameWindows.decoding (h : SameWindows fb' s s')
    (hrd : rd.Rel (SameSlice s.fb fb' s.bd.base s.bd.base) Eq rd') {store : α → State → State}
    (hover : ∀ x t, store x { t with fb := fb' } = { store x t with fb := fb' } := by intro _ _; rfl)
    (hkeeps : ∀ x t, store x t =
      { store x t with fb := t.fb, argBase := t.argBase, argLen := t.argLen, bd := t.bd } := by intro _ _; rfl) :
    SameWindows fb' (s.decoding rd store) (s'.decoding rd' store) := by
  obtain ⟨hvalue, hset⟩ := h.read hrd
  unfold State.decoding
  rw [hvalue]
  exact hset.map (hover _) (hkeeps _)

end read

/-! ### S1 -/

section frameStart

variable {s s' : State}

theorem SameFrame.error_alike (h : SameFrame fb' s s') (c : Cause) {T : State → State → Prop} :
    Pass.Alike fb' T (.error (c, s)) (.error (c, s')) := by
  rw [h.eq]; exact .error c s

theorem beginParse_sameFrame (h : SameFrame fb' s s') : SameFrame fb' s.beginParse s'.beginParse := by
  obtain ⟨rfl, hframe, hfits⟩ := h
  exact ⟨rfl, hframe, hfits⟩

theorem frameByte_of_sameFrame (h : SameFrame fb' s s') {i : Nat} (hi : i < s.argLen.toNat) :
    s'.frameByte i = s.frameByte i := by
  obtain rfl := h.eq
  exact h.frame.read_add hi

theorem tag_of_sameFrame (h : SameFrame fb' s s') (hlen : 3 ≤ s.argLen.toNat) : s'.tag = s.tag := by
  obtain rfl := h.eq
  exact h.frame.read24_add (i := 0) hlen

theorem setTag_sameFrame (h : SameFrame fb' s s') (hlen : 3 ≤ s.argLen.toNat) : SameFrame fb' s.setTag s'.setTag := by
  have htag := tag_of_sameFrame h hlen
  obtain ⟨rfl, hframe, hfits⟩ := h
  exact ⟨by simp only [State.setTag, htag], hframe, hfits⟩

theorem parseTag_alike (h : SameFrame fb' s s') : Pass.Alike fb' (SameFrame fb') (parseTag s) (parseTag s') := by
  have hargLen : s'.argLen = s.argLen := by rw [h.eq]
  have hcfg : s'.cfg = s.cfg := by rw [h.eq]
  unfold parseTag
  rw [hargLen, hcfg]
  split
  · exact h.error_alike _
  · rename_i hlen
    rw [tag_of_sameFrame h (Nat.not_lt.1 hlen)]
    split
    · exact h.error_alike _
    · exact .ok (setTag_sameFrame h (Nat.not_lt.1 hlen))

theorem startCodeOk_of_sameFrame (h : SameFrame fb' s s') (hlen : 10 ≤ s.argLen.toNat) :
    s'.startCodeOk = s.startCodeOk := by
  have hcfg : s'.cfg = s.cfg := by rw [h.eq]
  simp only [State.startCodeOk, hcfg, frameByte_of_sameFrame h (show 3 < s.argLen.toNat by omega),
    frameByte_of_sameFrame h (show 4 < s.argLen.toNat by omega),
    frameByte_of_sameFrame h (show 5 < s.argLen.toNat by omega)]

theorem keyExtension_sameFrame (h : SameFrame fb' s s') (hlen : 10 ≤ s.argLen.toNat) :
    SameFrame fb' s.keyExtension s'.keyExtension := by
  obtain rfl := h.eq
  have hw := h.frame.read16_add (i := 6) (by omega)
  have hh := h.frame.read16_add (i := 8) (by omega)
  refine ⟨?_, h.frame, h.fits⟩
  simp only [State.keyExtension, hw, hh]

theorem setFirstPartOffset_sameFrame (h : SameFrame fb' s s') :
    SameFrame fb' s.setFirstPartOffset s'.setFirstPartOffset := by
  obtain ⟨rfl, hframe, hfits⟩ := h
  exact ⟨rfl, hframe, hfits⟩

theorem parseKeyExtension_alike (h : SameFrame fb' s s') :
    Pass.Alike fb' (SameFrame fb') (parseKeyExtension s) (parseKeyExtension s') := by
  have hkey : s'.fhr.keyFrame = s.fhr.keyFrame := by rw [h.eq]
  have hargLen : s'.argLen = s.argLen := by rw [h.eq]
  unfold parseKeyExtension
  rw [hkey, hargLen]
  split
  · split
    · exact h.error_alike _
    · rename_i hlen
      rw [startCodeOk_of_sameFrame h (Nat.not_lt.1 hlen)]
      split
      · exact .ok (setFirstPartOffset_sameFrame (keyExtension_sameFrame h (Nat.not_lt.1 hlen)))
      · exact h.error_alike _
  · exact .ok (setFirstPartOffset_sameFrame h)

/-- The slice of the first partition lies inside the frame. -/
theorem firstPart_agreeOn (h : SameFrame fb' s s') (hend : s.fhr.firstPartEnd ≤ s.argLen.toNat) :
    s.fb.agreeOn s.openFirstPart.bd.base.toNat s.openFirstPart.bd.len.toNat fb' := by
  have hfits : s.argBase.toNat + s.argLen.toNat ≤ 2 ^ 32 := h.fits
  unfold Fhr.firstPartEnd at hend
  have hlen : s.openFirstPart.bd.len.toNat = s.fhr.firstPartSize.toNat :=
    BitVec.toNat_setWidth_of_le (by decide)
  rcases Nat.eq_zero_or_pos s.fhr.firstPartSize.toNat with hz | hpos
  · intro a ha ha'
    omega
  · have hbase : s.openFirstPart.bd.base.toNat = s.argBase.toNat + s.fhr.firstPartOffset := by
      show (s.argBase + BitVec.ofNat 32 s.fhr.firstPartOffset).toNat = _
      rw [BitVec.toNat_add, BitVec.toNat_ofNat, Nat.add_mod_mod]
      exact Nat.mod_eq_of_lt (show s.argBase.toNat + s.fhr.firstPartOffset < 2 ^ 32 by omega)
    rw [hlen, hbase]
    exact h.frame.mono (by omega) (by omega)

theorem openFirstPart_sameWindows (h : SameFrame fb' s s') (hend : s.fhr.firstPartEnd ≤ s.argLen.toNat) :
    SameWindows fb' s.openFirstPart s'.openFirstPart := by
  have hslice := firstPart_agreeOn h hend
  obtain ⟨rfl, hframe, hfits⟩ := h
  refine ⟨⟨?_, hframe, hfits⟩, Bd.seesAlike_of_agreeOn hslice⟩
  exact congrArg (fun d => { s.openFirstPart with fb := fb', bd := d }) (construct_of_agreeOn hslice)

theorem checkFirstPart_alike (h : SameFrame fb' s s') :
    Pass.Alike fb' (fun t t' => SameFrame fb' t t' ∧ t.fhr.firstPartEnd ≤ t.argLen.toNat) (checkFirstPart s)
      (checkFirstPart s') := by
  have hargLen : s'.argLen = s.argLen := by rw [h.eq]
  have hfhr : s'.fhr = s.fhr := by rw [h.eq]
  unfold checkFirstPart
  rw [hargLen, hfhr]
  split
  · exact h.error_alike _
  · rename_i hend
    exact .ok ⟨h, Nat.not_lt.1 hend⟩

theorem parsePrefix_alike (h : SameFrame fb' s s') :
    Pass.Alike fb' (SameWindows fb') (parsePrefix s) (parsePrefix s') :=
  (parseTag_alike h).bind fun _ _ ht => (parseKeyExtension_alike ht).bind fun _ _ hu =>
    (checkFirstPart_alike hu).bind fun _ _ hv => .ok (openFirstPart_sameWindows hv.1 hv.2)

end frameStart

/-! ### The coded elements -/

section elements

variable {s s' : State}

theorem parseColor_sameWindows (h : SameWindows fb' s s') : SameWindows fb' (parseColor s) (parseColor s') := by
  obtain rfl := h.eq
  exact .ite (h.decoding (colorHeader_rel decodeBool_sameSlice)) h

theorem enter_sameWindows (p : Phase) (h : SameWindows fb' s s') : SameWindows fb' (s.enter p) (s'.enter p) := h.map

theorem parseSegmentation_sameWindows (h : SameWindows fb' s s') :
    SameWindows fb' (parseSegmentation s) (parseSegmentation s') := by
  obtain rfl := h.eq
  exact (enter_sameWindows .s2 h).decoding (segHeader_rel decodeBool_sameSlice s.cfg s.pcs.seg)

theorem parseLoopFilter_sameWindows (h : SameWindows fb' s s') :
    SameWindows fb' (parseLoopFilter s) (parseLoopFilter s') := by
  obtain rfl := h.eq
  exact (enter_sameWindows .s3 h).decoding (lfHeader_rel decodeBool_sameSlice s.cfg s.pcs.lf)

theorem parsePartCount_sameWindows (h : SameWindows fb' s s') :
    SameWindows fb' (parsePartCount s) (parsePartCount s') := by
  obtain rfl := h.eq
  exact (enter_sameWindows .s3p h).decoding (lit_rel decodeBool_sameSlice s.cfg.partCntBits)

theorem parseQuant_sameWindows (h : SameWindows fb' s s') : SameWindows fb' (parseQuant s) (parseQuant s') := by
  obtain rfl := h.eq
  exact (enter_sameWindows .s4 h).decoding (quantHeader_rel decodeBool_sameSlice s.cfg)

theorem parseTokenProbs_sameWindows (h : SameWindows fb' s s') :
    SameWindows fb' (parseTokenProbs s) (parseTokenProbs s') := by
  obtain rfl := h.eq
  exact (enter_sameWindows .s6t h).decoding (tokenProbs_rel decodeBool_sameSlice s.cfg s.w.coeff)

theorem parseSkip_sameWindows (h : SameWindows fb' s s') : SameWindows fb' (parseSkip s) (parseSkip s') := by
  obtain rfl := h.eq
  exact (enter_sameWindows .s7 h).decoding (skipHeader_rel decodeBool_sameSlice)

theorem parseInterProbs_sameWindows (h : SameWindows fb' s s') :
    SameWindows fb' (parseInterProbs s) (parseInterProbs s') := by
  obtain rfl := h.eq
  exact .ite h (h.decoding (interProbs_rel decodeBool_sameSlice))

theorem parseIntraProbs_sameWindows (h : SameWindows fb' s s') :
    SameWindows fb' (parseIntraProbs s) (parseIntraProbs s') := by
  obtain rfl := h.eq
  exact .ite h ((enter_sameWindows .s6i h).decoding (intraProbs_rel decodeBool_sameSlice s.cfg s.w.ymode s.w.uvmode))

theorem parseMvProbs_sameWindows (h : SameWindows fb' s s') : SameWindows fb' (parseMvProbs s) (parseMvProbs s') := by
  obtain rfl := h.eq
  exact .ite h ((enter_sameWindows .s6m h).decoding (mvProbs_rel decodeBool_sameSlice s.cfg s.w.mv))

theorem parseFrontElements_sameWindows (h : SameWindows fb' s s') :
    SameWindows fb' (parseFrontElements s) (parseFrontElements s') :=
  parseQuant_sameWindows (parsePartCount_sameWindows (parseLoopFilter_sameWindows
    (parseSegmentation_sameWindows (parseColor_sameWindows h))))

theorem parseBackElements_sameWindows (h : SameWindows fb' s s') :
    SameWindows fb' (parseBackElements s) (parseBackElements s') :=
  parseMvProbs_sameWindows (parseIntraProbs_sameWindows (parseInterProbs_sameWindows
    (parseSkip_sameWindows (parseTokenProbs_sameWindows h))))

theorem parseInterRefresh_alike (h : SameWindows fb' s s') :
    Pass.Alike fb' (SameWindows fb') (parseInterRefresh s) (parseInterRefresh s') := by
  obtain rfl := h.eq
  obtain ⟨hvalue, hset⟩ := h.read (interRefresh_rel decodeBool_sameSlice s.cfg s.fhr.refreshLast)
  simp only [parseInterRefresh, hvalue]
  split
  · rw [hset.eq]; exact .error _ _
  · exact .ok hset.map

theorem parseRefresh_alike (h : SameWindows fb' s s') :
    Pass.Alike fb' (SameWindows fb') (parseRefresh s) (parseRefresh s') := by
  have henter := enter_sameWindows .s5 h
  have hkey : s'.fhr.keyFrame = s.fhr.keyFrame := by rw [h.eq]
  simp only [parseRefresh, hkey]
  split
  · obtain rfl := h.eq
    exact .ok (henter.decoding (keyRefreshHeader_rel decodeBool_sameSlice))
  · exact parseInterRefresh_alike henter

theorem parseElements_alike (h : SameWindows fb' s s') :
    Pass.Alike fb' (SameWindows fb') (parseElements s) (parseElements s') :=
  (parseRefresh_alike (parseFrontElements_sameWindows h)).bind fun _ _ ht => .ok (parseBackElements_sameWindows ht)

/-! ### The partition layout and the whole frame -/

theorem reportPos_over (t : State) : ({ t with fb := fb' } : State).reportPos = { t.reportPos with fb := fb' } := by
  simp only [State.reportPos]; split <;> rfl

theorem reportPos_sameWindows (h : SameWindows fb' s s') : SameWindows fb' s.reportPos s'.reportPos := by
  refine h.map (f := State.reportPos) reportPos_over fun t => ?_
  simp only [State.reportPos]; split <;> rfl

theorem parsePartitions_alike (h : SameWindows fb' s s') :
    Pass.Alike fb' (SameWindows fb') (parsePartitions s) (parsePartitions s') := by
  obtain rfl := h.eq
  have henter : SameWindows fb' s.enterPartitions _ := h.map
  simp only [parsePartitions, extractLayout_of_agreeOn h.frame]
  split
  · exact .error _ s.enterPartitions
  · exact .ok henter.map

theorem parseFrame_alike (h : SameFrame fb' s s') :
    Pass.Alike fb' (SameWindows fb') (parseFrame s) (parseFrame s') :=
  (parsePrefix_alike (beginParse_sameFrame h)).bind fun _ _ ht => (parseElements_alike ht).bind fun _ _ hu =>
    parsePartitions_alike (reportPos_sameWindows hu)

end elements

/-! ### The commands -/

theorem failParse_over (c : Cause) (t : State) :
    ({ t with fb := fb' } : State).failParse c = { t.failParse c with fb := fb' } := by cases c <;> rfl

/-- The end of a frame past the caller's contract. -/
theorem execFhParse_alike_of_good {s t s' : State} (h : SameFrame fb' s s') (hg : s.CallerGood)
    (he : execFhParse s = .next t) : execFhParse s' = .next { t with fb := fb' } := by
  have hg' : s'.CallerGood := by rw [h.eq]; exact hg
  have halike := parseFrame_alike h
  rw [execFhParse_of_good hg] at he
  rw [execFhParse_of_good hg']
  generalize parseFrame s = p at he halike
  generalize parseFrame s' = p' at halike
  cases halike with
  | ok h =>
    rw [Host.Outcome.next.injEq] at he
    rw [h.eq, ← he]
    rfl
  | error c u =>
    rw [Host.Outcome.next.injEq] at he
    rw [← he]
    exact congrArg _ (failParse_over c u)

theorem exec_fhParse_over {s t : State} (hagree : s.fb.agreeOn s.argBase.toNat s.argLen.toNat fb')
    (he : exec .fhParse s = .next t) : exec .fhParse { s with fb := fb' } = .next { t with fb := fb' } := by
  rw [exec_fhParse] at he ⊢
  by_cases hn : s.argNull = true
  · rw [execFhParse, if_pos hn, Host.Outcome.next.injEq] at he
    rw [execFhParse, if_pos hn, ← he, failParse_over]
  by_cases hz : s.argLen = 0
  · rw [execFhParse, if_neg hn, if_pos hz, Host.Outcome.next.injEq] at he
    rw [execFhParse, if_neg hn, if_pos hz, ← he, failParse_over]
  by_cases hb : s.bufferFits = true
  · exact execFhParse_alike_of_good ⟨rfl, hagree, (bufferFits_iff s).1 hb⟩ ⟨Bool.eq_false_iff.2 hn, hz, hb⟩ he
  · rw [execFhParse, if_neg hn, if_neg hz, if_neg hb] at he
    cases he

/-- `BD.INIT` loads two bytes of its buffer. -/
theorem exec_bdInit_over {s t : State} (hagree : s.fb.agreeOn s.argBase.toNat s.argLen.toNat fb')
    (he : exec .bdInit s = .next t) : exec .bdInit { s with fb := fb' } = .next { t with fb := fb' } := by
  simp only [exec] at he ⊢
  rcases Bool.eq_false_or_eq_true s.argNull with hn | hn
  · rw [execBdInit, if_pos hn, Host.Outcome.next.injEq] at he
    rw [execBdInit, if_pos hn, ← he]
    rfl
  · obtain ⟨hfits, -⟩ := exec_bdInit_next hn he
    rw [execBdInit_of_fits hn hfits, Host.Outcome.next.injEq] at he
    rw [execBdInit_of_fits (s := { s with fb := fb' }) hn hfits, ← he, construct_of_agreeOn hagree]

/-- `BD.POS` sees no byte at all. -/
theorem exec_bdPos_over {s t : State} (he : exec .bdPos s = .next t) :
    exec .bdPos { s with fb := fb' } = .next { t with fb := fb' } := by
  simp only [exec, execBdPos] at he ⊢
  split at he <;> rename_i hv <;> rw [Host.Outcome.next.injEq] at he <;> subst he
  · rw [if_pos hv, reportPos_over]; rfl
  · rw [if_neg hv]; rfl

/-- A read command. -/
theorem readToRes_over {rd : Memory → Rd (BitVec 32)} {s t : State}
    (hrd : (rd s.fb).Rel (SameSlice s.fb fb' s.bd.base s.bd.base) Eq (rd fb'))
    (hagree : s.fb.agreeOn s.bd.base.toNat s.bd.len.toNat fb') (he : readToRes rd s = .next t) :
    readToRes rd { s with fb := fb' } = .next { t with fb := fb' } := by
  obtain ⟨hread, -⟩ := (Bd.seesAlike_of_agreeOn hagree).read hrd
  cases hv : s.bd.valid with
  | true =>
    rw [readToRes_of_valid rd hv, Host.Outcome.next.injEq] at he
    rw [readToRes_of_valid rd (s := { s with fb := fb' }) hv, hread, ← he]
  | false =>
    rw [readToRes_of_not_valid rd hv, Host.Outcome.next.injEq] at he
    rw [readToRes_of_not_valid rd (s := { s with fb := fb' }) hv, ← he]

/-- The read of a read command gives the same over the same slice bytes. -/
theorem readOf_rel {i : Instr} {rd : Memory → Rd (BitVec 32)} (hi : readOf i = some rd) {fb : Memory} {b b' : Addr} :
    (rd fb).Rel (SameSlice fb fb' b b') Eq (rd fb') := by
  cases i with
  | bdInit => cases hi
  | bdPos => cases hi
  | fhParse => cases hi
  | bdRbool p => cases hi; exact boolWord_rel decodeBool_sameSlice p
  | bdRflag => cases hi; exact boolWord_rel decodeBool_sameSlice _
  | bdRlit n =>
    obtain ⟨-, e⟩ := Option.ite_none_right_eq_some.1 hi
    cases e; exact litWord_rel decodeBool_sameSlice _
  | bdRslit n =>
    obtain ⟨-, e⟩ := Option.ite_none_right_eq_some.1 hi
    cases e; exact signedWord_rel decodeBool_sameSlice _

/-- What is left is a literal that is too long. -/
theorem exec_of_no_read {i : Instr} (hinit : i ≠ .bdInit) (hpos : i ≠ .bdPos) (hparse : i ≠ .fhParse)
    (hi : readOf i = none) (s : State) : exec i s = .next (s.raise .illegalCmd) := by
  cases i with
  | bdInit => exact absurd rfl hinit
  | bdPos => exact absurd rfl hpos
  | fhParse => exact absurd rfl hparse
  | bdRbool p => cases hi
  | bdRflag => cases hi
  | bdRlit n =>
    have hn : ¬ n.toNat ≤ litMax := fun hn => by simp [readOf, hn] at hi
    simp only [exec, execBdRlit, if_neg hn]
  | bdRslit n =>
    have hn : ¬ n.toNat ≤ slitMax := fun hn => by simp [readOf, hn] at hi
    simp only [exec, execBdRslit, if_neg hn]

/-- A command that reads, or would be a read were its literal not too long. -/
theorem exec_read_over {i : Instr} (hinit : i ≠ .bdInit) (hpos : i ≠ .bdPos) (hparse : i ≠ .fhParse) {s t : State}
    (hagree : s.fb.agreeOn s.bd.base.toNat s.bd.len.toNat fb') (he : exec i s = .next t) :
    exec i { s with fb := fb' } = .next { t with fb := fb' } := by
  cases hi : readOf i with
  | some rd =>
    rw [exec_of_read hi] at he ⊢
    exact readToRes_over (readOf_rel hi) hagree he
  | none =>
    rw [exec_of_no_read hinit hpos hparse hi, Host.Outcome.next.injEq] at he ⊢
    rw [← he]; rfl

/-- Settles O31: `FH.PARSE` and `BD.INIT` see their buffer, a read its slice, and `BD.POS` nothing. -/
theorem readsStayInsideWindow : Obligations.ReadsStayInsideWindow := by
  intro s t fb' i hbuffer hslice he
  by_cases hinit : i = .bdInit
  · subst hinit; exact exec_bdInit_over (hbuffer (.inl rfl)) he
  by_cases hparse : i = .fhParse
  · subst hparse; exact exec_fhParse_over (hbuffer (.inr rfl)) he
  by_cases hpos : i = .bdPos
  · subst hpos; exact exec_bdPos_over he
  · exact exec_read_over hinit hpos hparse (hslice hinit hparse) he

end Sys2Proof.Machine

/-! SUPPORT. The command word: the encoder and the decoder are inverse on legal commands, and which words are legal by
their fields; with the statements about the encoding. -/

namespace Sys2Proof.Machine

/-! ### Words and their fields -/

/-- A word is known by its fields (30_encoding R80). -/
theorem wordOf_eq {w : CmdWord} {op : BitVec 4} {arg : Byte} (hop : (opField w).toNat = op.toNat)
    (hzero : (zeroField w).toNat = 0) (harg : (argField w).toNat = arg.toNat) : wordOf op arg = w := by
  rw [opField_toNat] at hop
  rw [zeroField_toNat] at hzero
  rw [argField_toNat] at harg
  apply BitVec.eq_of_toNat_eq
  rw [wordOf_toNat]
  omega

/-! ### The decoder undoes the encoder -/

theorem decode_wordOf (op : BitVec 4) (arg : Byte) : decode (wordOf op arg) = decodeOp op arg := by
  rw [decode, if_pos (zeroField_wordOf op arg), opField_wordOf, argField_wordOf]

theorem decodeOp_rlit {n : Byte} (hn : n.toNat ≤ litMax) : decodeOp 0x3 n = .ok (.bdRlit n) := if_pos hn

theorem decodeOp_rslit {n : Byte} (hn : n.toNat ≤ slitMax) : decodeOp 0x4 n = .ok (.bdRslit n) := if_pos hn

/-- Settles O2: the fields of the encoded word select the command's row of the opcode map, and a legal operand passes
its check. -/
theorem encodedCommandDecodesBack : Obligations.EncodedCommandDecodesBack := by
  intro i hwf
  cases i with
  | bdInit => exact decode_wordOf 0x1 0
  | bdRbool p => exact decode_wordOf 0x2 p
  | bdRlit n => exact (decode_wordOf 0x3 n).trans (decodeOp_rlit (of_decide_eq_true hwf))
  | bdRslit n => exact (decode_wordOf 0x4 n).trans (decodeOp_rslit (of_decide_eq_true hwf))
  | bdRflag => exact decode_wordOf 0x5 0
  | bdPos => exact decode_wordOf 0x6 0
  | fhParse => exact decode_wordOf 0x8 0

/-- Settles O1: the ten words are those of the legal commands. -/
theorem commandWordsDecodeAsTabled : Obligations.CommandWordsDecodeAsTabled :=
  have h := encodedCommandDecodesBack
  ⟨h .bdInit rfl, h (.bdRbool 0) rfl, h (.bdRbool 255) rfl, h (.bdRlit 0) rfl, h (.bdRlit 32) rfl, h (.bdRslit 0) rfl,
    h (.bdRslit 31) rfl, h .bdRflag rfl, h .bdPos rfl, h .fhParse rfl⟩

/-! ### The decoder takes encoded legal commands only -/

theorem encode_of_decodePlain {op : BitVec 4} {arg : Byte} {i j : Instr} (hword : encode i = wordOf op 0)
    (hwf : i.wf = true) (h : decodePlain arg i = .ok j) : encode j = wordOf op arg ∧ j.wf = true := by
  unfold decodePlain at h
  split_ifs at h with harg
  cases h
  exact ⟨harg ▸ hword, hwf⟩

/-- Row by row of the opcode map (30_encoding R82). -/
theorem encode_of_decodeOp {op : BitVec 4} {arg : Byte} {i : Instr} (h : decodeOp op arg = .ok i) :
    encode i = wordOf op arg ∧ i.wf = true := by
  unfold decodeOp at h
  split_ifs at h with hop hop hop harg hop harg hop hop hop <;> subst hop
  · exact encode_of_decodePlain rfl rfl h
  · cases h; exact ⟨rfl, rfl⟩
  · cases h; exact ⟨rfl, decide_eq_true harg⟩
  · cases h; exact ⟨rfl, decide_eq_true harg⟩
  · exact encode_of_decodePlain rfl rfl h
  · exact encode_of_decodePlain rfl rfl h
  · exact encode_of_decodePlain rfl rfl h

/-- Settles O3: the word is the one its fields build, and its row of the opcode map gives the command of that word. -/
theorem decodedWordEncodesBack : Obligations.DecodedWordEncodesBack := by
  intro w i h
  unfold decode at h
  split_ifs at h with hzero
  obtain ⟨hword, hwf⟩ := encode_of_decodeOp h
  exact ⟨hword.trans (wordOf_eq rfl (congrArg BitVec.toNat hzero) rfl), hwf⟩

/-! ### The legal words by their fields -/

/-- The fields of a word of the opcode map, as numbers (30_encoding R81, R82). -/
def LegalFields (op z arg : Nat) : Prop :=
  z = 0 ∧ (op = 0x2 ∨ (op = 0x3 ∧ arg ≤ 32) ∨ (op = 0x4 ∧ arg ≤ 31) ∨
    ((op = 0x1 ∨ op = 0x5 ∨ op = 0x6 ∨ op = 0x8) ∧ arg = 0))

theorem legalFields_encode {i : Instr} (h : i.wf = true) :
    LegalFields (opField (encode i)).toNat (zeroField (encode i)).toNat (argField (encode i)).toNat := by
  cases i with
  | bdInit => simp [encode, LegalFields]
  | bdRbool p => simp [encode, LegalFields]
  | bdRlit n => simpa [encode, LegalFields, Instr.wf] using h
  | bdRslit n => simpa [encode, LegalFields, Instr.wf] using h
  | bdRflag => simp [encode, LegalFields]
  | bdPos => simp [encode, LegalFields]
  | fhParse => simp [encode, LegalFields]

theorem exists_encode_of_legalFields {w : CmdWord}
    (h : LegalFields (opField w).toNat (zeroField w).toNat (argField w).toNat) :
    ∃ i : Instr, i.wf = true ∧ encode i = w := by
  obtain ⟨hz, hrow⟩ := h
  obtain hop | ⟨hop, harg⟩ | ⟨hop, harg⟩ | ⟨hop | hop | hop | hop, harg⟩ := hrow
  · exact ⟨.bdRbool (argField w), rfl, wordOf_eq hop hz rfl⟩
  · exact ⟨.bdRlit (argField w), decide_eq_true harg, wordOf_eq hop hz rfl⟩
  · exact ⟨.bdRslit (argField w), decide_eq_true harg, wordOf_eq hop hz rfl⟩
  · exact ⟨.bdInit, rfl, wordOf_eq hop hz harg⟩
  · exact ⟨.bdRflag, rfl, wordOf_eq hop hz harg⟩
  · exact ⟨.bdPos, rfl, wordOf_eq hop hz harg⟩
  · exact ⟨.fhParse, rfl, wordOf_eq hop hz harg⟩

/-- The decoder takes the words with legal fields, and no others. -/
theorem exists_decode_iff_legalFields {w : CmdWord} :
    (∃ i, decode w = .ok i) ↔ LegalFields (w.toNat / 4096) (w.toNat / 256 % 16) (w.toNat % 256) := by
  rw [← opField_toNat, ← zeroField_toNat, ← argField_toNat]
  constructor
  · rintro ⟨i, h⟩
    obtain ⟨rfl, hwf⟩ := decodedWordEncodesBack w i h
    exact legalFields_encode hwf
  · intro h
    obtain ⟨i, hwf, rfl⟩ := exists_encode_of_legalFields h
    exact ⟨i, encodedCommandDecodesBack i hwf⟩

theorem step_of_illegal {s : State} {w : CmdWord} {rest : List HostAction} (hp : s.pending = .writeCmd w :: rest)
    (hw : ¬ ∃ i, decode w = .ok i) : step s = .next { s with pending := rest, result := .error } := by
  cases hd : decode w with
  | ok i => exact absurd ⟨i, hd⟩ hw
  | error e => exact (step_of_pending hp).trans (runCommand_of_illegal hd _)

/-- Settles O4: the listed conditions are the complement of the legal fields, and an illegal word only raises. -/
theorem illegalCommandWordsFail : Obligations.IllegalCommandWordsFail := by
  rintro w _ _ _ rfl rfl rfl illegal
  have hiff : illegal ↔ ¬ ∃ i, decode w = .ok i := by
    rw [exists_decode_iff_legalFields, LegalFields]
    omega
  exact ⟨fun h s rest hp => step_of_illegal hp (hiff.1 h), fun h => not_not.1 (mt hiff.2 h)⟩

end Sys2Proof.Machine

/-! SUPPORT. The primitives of the boolean decoder one by one: the byte supply, the count of shifts of `Renormalise`, the
split, literals bit by bit, a zero value, and the shifter state in which a read returns the stream's own bit; with the
statements about them (40_bd_commands R111 to R125). -/

namespace Sys2Proof.Machine

variable {fb : Memory}

/-! ### NextByte -/

theorem nextByte_fst_of_lt {d : Bd} (h : d.cursor < d.len.toNat) : (nextByte fb d).1 = d.sliceByte fb d.cursor := if_pos h

theorem nextByte_fst_of_le {d : Bd} (h : d.len.toNat ≤ d.cursor) : (nextByte fb d).1 = 0 := if_neg (Nat.not_lt.2 h)

/-- A byte HOST has not changed is FB's. -/
theorem Bd.sliceByte_of_lookup_none {d : Bd} {i : Nat} (h : lookupCell d.overlay (d.base.toNat + i) = none) :
    d.sliceByte fb i = fb.read (d.base.toNat + i) := by
  rw [Bd.sliceByte, h, Option.getD_none]

/-- The byte a decoder gets next where HOST has changed none. -/
theorem nextByte_fst_of_overlay_nil {d : Bd} (h : d.overlay = []) :
    (nextByte fb d).1 = sliceByteAt fb d.base d.len d.cursor := by
  have hnone : lookupCell d.overlay (d.base.toNat + d.cursor) = none := by rw [h]; rfl
  by_cases hlt : d.cursor < d.len.toNat
  · rw [nextByte_fst_of_lt hlt, Bd.sliceByte_of_lookup_none hnone, sliceByteAt, if_pos hlt]
  · rw [nextByte_fst_of_le (Nat.not_lt.1 hlt), sliceByteAt, if_neg hlt]

/-- Settles O12: the two branches of `NextByte`. -/
theorem nextByteDeliversSliceThenZeros : Obligations.NextByteDeliversSliceThenZeros := fun fb d =>
  ⟨nextByte_snd fb d, fun h hnone => (nextByte_fst_of_lt h).trans (Bd.sliceByte_of_lookup_none hnone), nextByte_fst_of_le⟩

/-! ### Renormalise -/

theorem bitCount_succ_toNat {d : Bd} (h : d.bitCount ≠ 7) : (d.bitCount + 1).toNat = d.bitCount.toNat + 1 := by
  have hlt := d.bitCount.isLt
  have hne : d.bitCount.toNat ≠ 7 := fun h7 => h (BitVec.eq_of_toNat_eq h7)
  rw [BitVec.toNat_add]
  exact Nat.mod_eq_of_lt (show d.bitCount.toNat + 1 < 2 ^ 3 by omega)

/-- 10_state R27: a shift advances the position by 1. -/
theorem shiftOnce_pos (fb : Memory) {d : Bd} (h : 2 ≤ d.cursor) :
    2 ≤ (shiftOnce fb d).cursor ∧ (shiftOnce fb d).pos = d.pos + 1 := by
  rcases shiftOnce_cases fb d with ⟨hc, e⟩ | ⟨hc, e⟩ <;> rw [e]
  · refine ⟨h, ?_⟩
    show 8 * (d.cursor - 2) + (d.bitCount + 1).toNat = 8 * (d.cursor - 2) + d.bitCount.toNat + 1
    rw [bitCount_succ_toNat hc, Nat.add_assoc]
  · refine ⟨Nat.le_succ_of_le h, ?_⟩
    show 8 * (d.cursor + 1 - 2) + 0 = 8 * (d.cursor - 2) + d.bitCount.toNat + 1
    rw [bitCount_toNat_of_eq_seven hc]
    omega

theorem iterate_shiftOnce_pos (fb : Memory) (n : Nat) {d : Bd} (h : 2 ≤ d.cursor) :
    2 ≤ ((shiftOnce fb)^[n] d).cursor ∧ ((shiftOnce fb)^[n] d).pos = d.pos + n := by
  induction n generalizing d with
  | zero => exact ⟨h, rfl⟩
  | succ n ih =>
    obtain ⟨hcur, hpos⟩ := shiftOnce_pos fb h
    obtain ⟨hcur', hpos'⟩ := ih hcur
    rw [Function.iterate_succ_apply]
    exact ⟨hcur', by rw [hpos', hpos]; omega⟩

theorem log2_shiftOnce_range (fb : Memory) {d : Bd} (h1 : 1 ≤ d.range.toNat) (h : d.range.toNat < 128) :
    (shiftOnce fb d).range.toNat.log2 = d.range.toNat.log2 + 1 := by
  have hdouble : (shiftOnce fb d).range.toNat = 2 * d.range.toNat := by
    rw [shiftOnce_range, BitVec.toNat_shiftLeft, Nat.shiftLeft_eq]; omega
  rw [hdouble, Nat.log2_two_mul (by omega)]

/-- The loop shifts until the top bit of `range` is bit 7. -/
theorem renormLoop_eq_iterate (k : Nat) {d : Bd} (h1 : 1 ≤ d.range.toNat) (hk : 7 - d.range.toNat.log2 ≤ k) :
    renormLoop fb k d = (shiftOnce fb)^[7 - d.range.toNat.log2] d := by
  have hlt := d.range.isLt
  induction k generalizing d with
  | zero => rw [Nat.le_zero.1 hk]; rfl
  | succ k ih =>
    simp only [renormLoop]
    split
    · rename_i hr
      have hr' : d.range.toNat < 128 := hr
      have hlog : d.range.toNat.log2 < 7 := (Nat.log2_lt (by omega)).2 hr'
      have hnext := log2_shiftOnce_range fb h1 hr'
      have h1' : 1 ≤ (shiftOnce fb d).range.toNat := by
        rw [Nat.one_le_iff_ne_zero]
        intro h0
        rw [h0, Nat.log2_zero] at hnext
        omega
      rw [ih h1' (by omega) (BitVec.isLt _), hnext, ← Function.iterate_succ_apply]
      congr 1
      omega
    · rename_i hr
      have hlog : 7 ≤ d.range.toNat.log2 := (Nat.le_log2 (by omega)).2 (Nat.not_lt.1 hr)
      rw [Nat.sub_eq_zero_of_le hlog]; rfl

theorem renormalise_eq_iterate {d : Bd} (h1 : 1 ≤ d.range.toNat) :
    renormalise fb d = (shiftOnce fb)^[7 - d.range.toNat.log2] d :=
  renormLoop_eq_iterate 7 h1 (Nat.sub_le _ _)

theorem renormalise_pos {d : Bd} (h1 : 1 ≤ d.range.toNat) (hcur : 2 ≤ d.cursor) :
    2 ≤ (renormalise fb d).cursor ∧ (renormalise fb d).pos = d.pos + (7 - d.range.toNat.log2) := by
  rw [renormalise_eq_iterate h1]
  exact iterate_shiftOnce_pos fb _ hcur

/-- At most 7 shifts pass at most one multiple of 8. -/
theorem cursor_le_of_pos_le {d e : Bd} (hd : 2 ≤ d.cursor) (h : e.pos ≤ d.pos + 7) : e.cursor ≤ d.cursor + 1 := by
  have := d.bitCount.isLt
  simp only [Bd.pos] at h
  omega

/-- Settles O14: the two cases of a shift, and the loop as so many shifts. -/
theorem renormaliseShiftsUntilHalf : Obligations.RenormaliseShiftsUntilHalf := by
  intro fb d
  have hshift : (d.value <<< 1).toNat = 2 * d.value.toNat % 2 ^ 16 := by
    rw [BitVec.toNat_shiftLeft, Nat.shiftLeft_eq, Nat.pow_one, Nat.mul_comm]
  refine ⟨fun h => ?_, fun h => ?_, fun h hv => ?_, fun hbelow hr => ?_, fun h1 hcur => ?_⟩
  · exact ((shiftOnce_cases fb d).resolve_right fun h' => h h'.1).2
  · exact ((shiftOnce_cases fb d).resolve_left fun h' => h'.1 h).2
  · rw [((shiftOnce_cases fb d).resolve_left fun h' => h'.1 h).2, hshift]
    exact shiftLeft_or_byte_toNat hv _
  · have hlt : d.value.toNat < d.range.toNat * 256 := hbelow
    rw [hshift]; omega
  · obtain ⟨-, hpos⟩ := renormalise_pos (fb := fb) h1 hcur
    exact ⟨renormalise_eq_iterate h1, renormalise_range d h1, hpos, cursor_le_of_pos_le hcur (by omega)⟩

/-! ### DecodeBool -/

/-- Settles O13: the bounds of the split, and the two outcomes. -/
theorem decodeBoolFollowsSplit : Obligations.DecodeBoolFollowsSplit := by
  rintro fb p d _ hr rfl
  have hlt := splitOf_lt d.range p hr
  rw [← splitOf_eq]
  refine ⟨?_, splitOf_pos d.range p, by omega, fun q hq => ?_, fun h => ?_, fun h => ?_⟩
  · have hrange := d.range.isLt
    have hp := p.isLt
    calc (d.range.toNat - 1) * p.toNat ≤ 254 * 255 := Nat.mul_le_mul (by omega) (by omega)
      _ = 64770 := rfl
  · rw [splitOf_eq]
    exact Nat.add_le_add_left (Nat.div_le_div_right (Nat.mul_le_mul_left _ hq)) 1
  · exact ⟨_, rfl, range_sub_split_toNat d p, value_sub_split_toNat d p,
      ((decodeBool_cases fb p d).resolve_right fun h' => Nat.not_le.2 h'.1 h).2⟩
  · exact ⟨_, rfl, range_split_toNat d p, ((decodeBool_cases fb p d).resolve_left fun h' => Nat.not_le.2 h h'.1).2⟩

/-- Settles O15: both outcomes end in a `Renormalise` of a range of at least 1. -/
theorem decodeBoolAdvancesPosition : Obligations.DecodeBoolAdvancesPosition := by
  rintro fb p d ⟨hr, hcur, -, -⟩
  have hpos := splitOf_pos d.range p
  have hlt := splitOf_lt d.range p (by omega)
  have advance : ∀ e : Bd, 1 ≤ e.range.toNat → e.cursor = d.cursor → e.pos = d.pos →
      d.pos ≤ (renormalise fb e).pos ∧ (renormalise fb e).pos ≤ d.pos + 7 := fun e h1 hc hp => by
    obtain ⟨-, hadv⟩ := renormalise_pos (fb := fb) h1 (hc ▸ hcur)
    omega
  rcases decodeBool_cases fb p d with ⟨-, e⟩ | ⟨-, e⟩ <;> rw [e] <;> refine advance _ ?_ rfl rfl
  · show 1 ≤ (BitVec.ofNat 8 _).toNat
    rw [range_sub_split_toNat]; omega
  · show 1 ≤ (BitVec.ofNat 8 _).toNat
    rw [range_split_toNat]; exact hpos

/-- Settles O20: the relation of decoders over equal slices fixes every register but the base. -/
theorem equalSlicesDecodeEqually : Obligations.EqualSlicesDecodeEqually := by
  intro fb fb' d base' p n hover hbytes
  have hsame : SameSlice fb fb' d.base base' d { d with base := base' } := by
    refine ⟨rfl, rfl, fun i hi => ?_⟩
    rw [Bd.sliceByte_of_lookup_none (by rw [hover]; rfl), hbytes i hi]
    exact (Bd.sliceByte_of_lookup_none (d := { d with base := base' }) (by rw [hover]; rfl)).symm
  have read : ∀ {α : Type} {m m' : Rd α}, m.Rel (SameSlice fb fb' d.base base') Eq m' →
      m' { d with base := base' } = ((m d).1, { (m d).2 with base := base' }) := fun hm =>
    Prod.ext (hm _ _ hsame).1.symm (hm _ _ hsame).2.eq
  exact ⟨read (decodeBool_sameSlice p), read (lit_rel decodeBool_sameSlice n)⟩

/-! ### Literals -/

/-- What was read before stands above the `n` bits still to come. -/
theorem litFrom_eq (fb : Memory) (n v : Nat) (d : Bd) :
    litFrom fb n v d = (v * 2 ^ n + (lit fb n d).1, (lit fb n d).2) := by
  induction n generalizing v d with
  | zero => simp [lit, litFrom]
  | succ n ih =>
    simp only [lit, litFrom, Rd.bind_apply]
    rw [ih, ih]
    ring_nf

theorem lit_zero (fb : Memory) (d : Bd) : lit fb 0 d = (0, d) := rfl

/-- The first bit is the most significant. -/
theorem lit_succ (fb : Memory) (n : Nat) (d : Bd) :
    lit fb (n + 1) d = ((decodeBool fb 128 d).1.toNat * 2 ^ n + (lit fb n (decodeBool fb 128 d).2).1,
      (lit fb n (decodeBool fb 128 d).2).2) := by
  rw [← litFrom_eq]
  simp only [lit, litFrom, Rd.bind_apply, Nat.mul_zero, Nat.zero_add, Config.litProb]

theorem signedLit_apply (fb : Memory) (n : Nat) (d : Bd) :
    signedLit fb n d =
      ((if (decodeBool fb 128 (lit fb n d).2).1 then -((lit fb n d).1 : Int) else ((lit fb n d).1 : Int)),
        (decodeBool fb 128 (lit fb n d).2).2) := rfl

/-- Settles O19: a literal's recursion over its bits, and its bound. -/
theorem literalsAreMsbFirst : Obligations.LiteralsAreMsbFirst := fun fb n d =>
  ⟨lit_zero fb d, lit_succ fb n d, lit_lt fb n d, signedLit_apply fb n d⟩

/-! ### A zero value -/

theorem decodeBool_of_value_zero (fb : Memory) (p : Prob) {d : Bd} (h : d.value = 0) :
    decodeBool fb p d = (false, renormalise fb { d with range := BitVec.ofNat 8 (splitOf d.range p) }) := by
  refine ((decodeBool_cases fb p d).resolve_left fun h' => ?_).2
  have hpos := splitOf_pos d.range p
  have hv : d.value.toNat = 0 := by rw [h]; rfl
  have hle := h'.1
  omega

/-- Seven passes load at most one byte: with a zero next byte, or too few passes to load it, `value` stays 0. -/
theorem renormLoop_value_zero (k : Nat) {d : Bd} (hk : k ≤ 7) (hv : d.value = 0)
    (hbyte : (nextByte fb d).1 = 0 ∨ d.bitCount.toNat + k ≤ 7) : (renormLoop fb k d).value = 0 := by
  induction k generalizing d with
  | zero => exact hv
  | succ k ih =>
    simp only [renormLoop]
    split
    · rcases shiftOnce_cases fb d with ⟨hc, e⟩ | ⟨hc, e⟩ <;> rw [e] <;> refine ih (by omega) ?_ ?_
      · show d.value <<< 1 = 0
        rw [hv]; rfl
      · refine hbyte.imp id fun h => ?_
        show (d.bitCount + 1).toNat + k ≤ 7
        rw [bitCount_succ_toNat hc]; omega
      · have h0 : (nextByte fb d).1 = 0 := hbyte.resolve_right fun h => by
          rw [bitCount_toNat_of_eq_seven hc] at h; omega
        show d.value <<< 1 ||| (nextByte fb d).1.setWidth 16 = 0
        rw [hv, h0]; rfl
      · right
        show 0 + k ≤ 7
        omega
    · exact hv

/-- A zero value past the end of the slice. -/
def Bd.Drained (d : Bd) : Prop := d.value = 0 ∧ d.len.toNat ≤ d.cursor

theorem shiftOnce_drained {d : Bd} (h : d.Drained) : (shiftOnce fb d).Drained := by
  obtain ⟨hv, hcur⟩ := h
  rcases shiftOnce_cases fb d with ⟨-, e⟩ | ⟨-, e⟩ <;> rw [e]
  · exact ⟨by show d.value <<< 1 = 0; rw [hv]; rfl, hcur⟩
  · refine ⟨?_, Nat.le_succ_of_le hcur⟩
    show d.value <<< 1 ||| (nextByte fb d).1.setWidth 16 = 0
    rw [hv, nextByte_fst_of_le hcur]; rfl

theorem decodeBool_drained (fb : Memory) (p : Prob) : (decodeBool fb p).Keeps Bd.Drained := fun d h => by
  rw [decodeBool_of_value_zero fb p h.1]
  exact renormLoop_induct (fun e he _ => shiftOnce_drained he) 7 _ h

theorem lit_fst_of_drained (fb : Memory) (n : Nat) {d : Bd} (h : d.Drained) : (lit fb n d).1 = 0 := by
  induction n generalizing d with
  | zero => rfl
  | succ n ih =>
    rw [lit_succ, ih (decodeBool_drained fb 128 d h), decodeBool_of_value_zero fb 128 h.1]
    exact Nat.zero_mul _

/-- Settles O16: a zero value is below every split, stays 0 until a byte that is not 0 comes in, and none comes in past the
slice. -/
theorem zeroValueDecodesZeros : Obligations.ZeroValueDecodesZeros := by
  intro fb d hv
  refine ⟨fun p => ?_, fun hcur n => ?_⟩
  · rw [decodeBool_of_value_zero fb p hv]
    refine ⟨rfl, fun hne => ?_⟩
    by_contra hbyte
    refine hne (renormLoop_value_zero 7 (Nat.le_refl 7) hv (.inl ?_))
    show (nextByte fb d).1 = 0
    by_cases hlt : d.cursor < d.len.toNat
    · rw [nextByte_fst_of_lt hlt]
      exact not_not.1 fun h0 => hbyte ⟨hlt, h0⟩
    · exact nextByte_fst_of_le (Nat.not_lt.1 hlt)
  · have hlit := lit_fst_of_drained fb n ⟨hv, hcur⟩
    refine ⟨hlit, ?_, (Rd.Keeps.lit (decodeBool_drained fb) n d ⟨hv, hcur⟩).1⟩
    rw [signedLit_apply, hlit]
    simp

/-! ### The shifter state -/

/-- The shifter state of 40_bd_commands R122, with a cursor past construction. -/
def Bd.InShifter (d : Bd) : Prop := d.range = 128 ∧ d.value.toNat < 0x8000 ∧ 2 ≤ d.cursor

/-- In the shifter state the split is 64, so a read compares with `0x4000`, takes bit 14 off `value` and shifts once. -/
theorem decodeBool_of_inShifter (fb : Memory) {d : Bd} (h : d.InShifter) :
    decodeBool fb 128 d = (d.value.getLsbD 14, shiftOnce fb { d with range := 64, value := d.value &&& 0x3FFF }) := by
  obtain ⟨hr, hv, -⟩ := h
  have hsplit : splitOf d.range 128 = 64 := by rw [hr]; decide
  have hrange : d.range.toNat - 64 = 64 := by rw [hr]; rfl
  have hbit : d.value.getLsbD 14 = decide (d.value.toNat / 2 ^ 14 % 2 = 1) := Nat.testBit_eq_decide_div_mod_eq
  have hmask : (d.value &&& 0x3FFF).toNat = d.value.toNat % 2 ^ 14 := Nat.and_two_pow_sub_one_eq_mod _ 14
  have once : ∀ e : Bd, e.range = 64 → renormalise fb e = shiftOnce fb e := fun e he => by
    have h64 : e.range.toNat = 2 ^ 6 := by rw [he]; rfl
    rw [renormalise_eq_iterate (by omega), h64, Nat.log2_two_pow]; rfl
  rcases decodeBool_cases fb 128 d with ⟨hle, e⟩ | ⟨hlt, e⟩ <;> rw [hsplit] at e
  · have hvalue : BitVec.ofNat 16 (d.value.toNat - 64 * 256) = d.value &&& 0x3FFF := by
      apply BitVec.eq_of_toNat_eq
      rw [hmask, BitVec.toNat_ofNat]
      omega
    rw [e, hrange, hvalue, hbit, decide_eq_true (by omega), once _ rfl]; rfl
  · have hvalue : d.value = d.value &&& 0x3FFF := by
      apply BitVec.eq_of_toNat_eq
      rw [hmask]
      omega
    rw [e, once _ rfl, hbit, decide_eq_false (by omega), ← hvalue]; rfl

theorem shiftOnce_value_lt (fb : Memory) {d : Bd} (h : d.value.toNat < 0x4000) :
    (shiftOnce fb d).value.toNat < 0x8000 := by
  have hshift : (d.value <<< 1).toNat < 2 ^ 15 := by
    rw [BitVec.toNat_shiftLeft, Nat.shiftLeft_eq]; omega
  rcases shiftOnce_cases fb d with ⟨-, e⟩ | ⟨-, e⟩ <;> rw [e]
  · exact hshift
  · have hbyte : ((nextByte fb d).1.setWidth 16).toNat < 2 ^ 15 := by
      have := (nextByte fb d).1.isLt
      rw [BitVec.toNat_setWidth]; omega
    exact (BitVec.toNat_or ..).trans_lt (Nat.or_lt_two_pow hshift hbyte)

/-- A read keeps the shifter state and advances the position by 1. -/
theorem decodeBool_inShifter (fb : Memory) {d : Bd} (h : d.InShifter) :
    (decodeBool fb 128 d).2.InShifter ∧ (decodeBool fb 128 d).2.pos = d.pos + 1 := by
  rw [decodeBool_of_inShifter fb h]
  obtain ⟨-, -, hcur⟩ := h
  obtain ⟨hcur', hpos⟩ := shiftOnce_pos fb (d := { d with range := 64, value := d.value &&& 0x3FFF }) hcur
  refine ⟨⟨?_, shiftOnce_value_lt fb ?_, hcur'⟩, hpos⟩
  · rw [shiftOnce_range]; rfl
  · show (d.value &&& 0x3FFF).toNat < 0x4000
    rw [BitVec.toNat_and]
    exact Nat.lt_succ_of_le Nat.and_le_right

theorem lit_inShifter (fb : Memory) (n : Nat) {d : Bd} (h : d.InShifter) :
    (lit fb n d).2.InShifter ∧ (lit fb n d).2.pos = d.pos + n := by
  induction n generalizing d with
  | zero => exact ⟨h, rfl⟩
  | succ n ih =>
    obtain ⟨hnext, hpos⟩ := decodeBool_inShifter fb h
    obtain ⟨hlit, hpos'⟩ := ih hnext
    rw [lit_succ]
    exact ⟨hlit, by rw [hpos', hpos]; omega⟩

/-- Settles O17: one read of the shifter state, and a literal as so many. -/
theorem shifterStateReturnsTopBit : Obligations.ShifterStateReturnsTopBit := by
  rintro fb d ⟨-, hcur, -, -⟩ hr hv
  have h : d.InShifter := ⟨hr, hv, hcur⟩
  obtain ⟨⟨hr', hv', -⟩, hpos⟩ := decodeBool_inShifter fb h
  refine ⟨by rw [decodeBool_of_inShifter fb h], hpos, hr', hv', fun n => ?_⟩
  obtain ⟨⟨hrn, hvn, -⟩, hposn⟩ := lit_inShifter fb n h
  exact ⟨hposn, hrn, hvn⟩

/-! ### The bits of the stream -/

/-- The bits of a byte in the stream, most significant first. -/
theorem streamBit_of_byte (fb : Memory) (base len : Addr) (c : Nat) {i : Nat} (h : i < 8) :
    streamBit fb base len (8 * c + (7 - i)) = (sliceByteAt fb base len c).getLsbD i := by
  rw [streamBit, show (8 * c + (7 - i)) / 8 = c by omega, show 7 - (8 * c + (7 - i)) % 8 = i by omega]

/-- Below bit `n`, `value` holds the stream, its bit 14 the bit just after the position, as far as it is loaded, and zeros
below. -/
def Bd.HoldsStream (fb : Memory) (n : Nat) (d : Bd) : Prop :=
  d.overlay = [] ∧ ∀ i < n, d.value.getLsbD i =
    (decide (d.bitCount.toNat ≤ i) && streamBit fb d.base d.len (d.pos + 15 - i))

/-- A shift moves each bit up and the position on by 1; the eighth loads the next byte where the zeros were. -/
theorem shiftOnce_holdsStream (fb : Memory) {d : Bd} (hcur : 2 ≤ d.cursor) (h : d.HoldsStream fb 14) :
    (shiftOnce fb d).HoldsStream fb 15 := by
  obtain ⟨hover, hbits⟩ := h
  obtain ⟨-, hpos⟩ := shiftOnce_pos fb hcur
  refine ⟨by rw [shiftOnce_overlay, hover], fun i hi => ?_⟩
  rw [shiftOnce_base, shiftOnce_len, hpos]
  have up : 1 ≤ i → (d.value <<< 1).getLsbD i =
      (decide (d.bitCount.toNat ≤ i - 1) && streamBit fb d.base d.len (d.pos + 1 + 15 - i)) := fun h1 => by
    rw [BitVec.getLsbD_shiftLeft, hbits (i - 1) (by omega), show d.pos + 15 - (i - 1) = d.pos + 1 + 15 - i by omega]
    simp only [show i < 16 by omega, show ¬ i < 1 by omega, decide_true, decide_false, Bool.not_false, Bool.true_and]
  have bottom : (d.value <<< 1).getLsbD 0 = false := by simp
  rcases shiftOnce_cases fb d with ⟨hc, e⟩ | ⟨hc, e⟩ <;> rw [e]
  · show (d.value <<< 1).getLsbD i = (decide ((d.bitCount + 1).toNat ≤ i) && _)
    rw [bitCount_succ_toNat hc]
    cases i with
    | zero => rw [bottom, decide_eq_false (by omega), Bool.false_and]
    | succ i => rw [up (by omega)]; simp only [Nat.add_sub_cancel, Nat.add_le_add_iff_right]
  · have hc7 := bitCount_toNat_of_eq_seven hc
    show (d.value <<< 1 ||| (nextByte fb d).1.setWidth 16).getLsbD i = (decide (0 ≤ i) && _)
    rw [BitVec.getLsbD_or, BitVec.getLsbD_setWidth, nextByte_fst_of_overlay_nil hover]
    by_cases h8 : i < 8
    · have hzero : (d.value <<< 1).getLsbD i = false := by
        cases i with
        | zero => exact bottom
        | succ i => rw [up (by omega), decide_eq_false (by omega), Bool.false_and]
      have hindex : d.pos + 1 + 15 - i = 8 * d.cursor + (7 - i) := by
        rw [Bd.pos]; omega
      rw [hzero, hindex, streamBit_of_byte fb d.base d.len d.cursor h8, decide_eq_true (by omega),
        decide_eq_true (by omega), Bool.false_or]
    · rw [up (by omega), BitVec.getLsbD_of_ge _ i (by omega), Bool.and_false, Bool.or_false, decide_eq_true (by omega),
        decide_eq_true (by omega)]

/-- A read returns the stream bit just after the position, and leaves the next ones in place. -/
theorem decodeBool_holdsStream {d : Bd} (hs : d.InShifter) (h : d.HoldsStream fb 15) :
    (decodeBool fb 128 d).1 = streamBit fb d.base d.len (d.pos + 1) ∧ (decodeBool fb 128 d).2.HoldsStream fb 15 := by
  rw [decodeBool_of_inShifter fb hs]
  obtain ⟨-, -, hcur⟩ := hs
  obtain ⟨hover, hbits⟩ := h
  have hcount := d.bitCount.isLt
  refine ⟨?_, shiftOnce_holdsStream fb hcur ⟨hover, fun i hi => ?_⟩⟩
  · rw [hbits 14 (by omega), decide_eq_true (by omega), Bool.true_and, show d.pos + 15 - 14 = d.pos + 1 by omega]
  · show (d.value &&& 0x3FFF).getLsbD i = _
    have hmask : (0x3FFF : BitVec 16).getLsbD i = true := by
      show (2 ^ 14 - 1).testBit i = true
      rw [Nat.testBit_two_pow_sub_one, decide_eq_true hi]
    rw [BitVec.getLsbD_and, hmask, Bool.and_true, hbits i (by omega)]
    rfl

/-- A literal read so is the stream's own bits after the position, most significant first. -/
theorem lit_testBit_of_holdsStream (n : Nat) {d : Bd} (hs : d.InShifter) (h : d.HoldsStream fb 15)
    {k : Nat} (hk : k < n) : (lit fb n d).1.testBit (n - 1 - k) = streamBit fb d.base d.len (d.pos + 1 + k) := by
  induction n generalizing d k with
  | zero => omega
  | succ n ih =>
    obtain ⟨hbit, hnext⟩ := decodeBool_holdsStream hs h
    obtain ⟨hs', hpos⟩ := decodeBool_inShifter fb hs
    obtain ⟨hbase, hlen, -, -⟩ := decodeBool_slice fb 128 d
    rw [lit_succ, Nat.mul_comm, Nat.testBit_two_pow_mul_add _ (lit_lt ..)]
    cases k with
    | zero =>
      rw [if_neg (by omega), hbit, show n + 1 - 1 - 0 - n = 0 by omega]
      show (streamBit fb d.base d.len (d.pos + 1)).toNat.testBit 0 = _
      cases streamBit fb d.base d.len (d.pos + 1) <;> rfl
    | succ k =>
      rw [if_pos (by omega), show n + 1 - 1 - (k + 1) = n - 1 - k by omega, ih hs' hnext (by omega), hbase, hlen, hpos]
      congr 1
      omega

/-- Over a slice whose first bit is 0 the first read at probability 128 compares with `0x8000`, returns that 0 and shifts
nothing; the decoder is then in the shifter state. -/
theorem decodeBool_construct {base len : Addr} (h : streamBit fb base len 0 = false) :
    decodeBool fb 128 (Bd.construct fb base len) = (false, { Bd.construct fb base len with range := 128 }) ∧
      Bd.InShifter { Bd.construct fb base len with range := 128 } := by
  have htop : (sliceByteAt fb base len 0).toNat < 128 := by
    have hbit : (sliceByteAt fb base len 0).toNat.testBit 7 = false := h
    have hlt := (sliceByteAt fb base len 0).isLt
    rw [Nat.testBit_eq_decide_div_mod_eq] at hbit
    have := of_decide_eq_false hbit
    omega
  have hvalue : (Bd.construct fb base len).value.toNat < 0x8000 := by
    have := (sliceByteAt fb base len 1).isLt
    rw [construct_eq, toNat_append_add]
    omega
  have hsplit : splitOf (Bd.construct fb base len).range 128 = 128 :=
    show splitOf 255 128 = 128 by decide
  refine ⟨?_, rfl, hvalue, Nat.le_refl 2⟩
  rw [((decodeBool_cases fb 128 _).resolve_left fun h' => by rw [hsplit] at h'; omega).2, hsplit,
    renormalise_eq_iterate (show 1 ≤ (BitVec.ofNat 8 128).toNat by decide),
    show (BitVec.ofNat 8 128).toNat = 2 ^ 7 from rfl, Nat.log2_two_pow]
  rfl

/-- The two bytes of the construction are the stream's first 16 bits. -/
theorem construct_holdsStream (fb : Memory) (base len : Addr) :
    Bd.HoldsStream fb 15 { Bd.construct fb base len with range := 128 } := by
  refine ⟨rfl, fun i hi => ?_⟩
  show (sliceByteAt fb base len 0 ++ sliceByteAt fb base len 1).getLsbD i = streamBit fb base len (0 + 15 - i)
  rw [BitVec.getLsbD_append]
  by_cases h8 : i < 8
  · rw [if_pos h8, ← streamBit_of_byte fb base len 1 h8, show 8 * 1 + (7 - i) = 0 + 15 - i by omega]
  · rw [if_neg h8, ← streamBit_of_byte fb base len 0 (by omega), show 8 * 0 + (7 - (i - 8)) = 0 + 15 - i by omega]

/-- Settles O18: the first read returns the leading 0 and leaves the shifter state over the rest of the stream. -/
theorem literalReturnsStreamBits : Obligations.LiteralReturnsStreamBits := by
  intro fb base len m h0 hm
  obtain ⟨n, rfl⟩ : ∃ n, m = n + 1 := ⟨m - 1, by omega⟩
  obtain ⟨hfirst, hs⟩ := decodeBool_construct h0
  have hpos : Bd.pos { Bd.construct fb base len with range := 128 } = 0 := rfl
  rw [lit_succ, hfirst]
  refine ⟨fun k hk => ?_, ?_⟩
  · simp only [Bool.toNat_false, Nat.zero_mul, Nat.zero_add]
    cases k with
    | zero => rw [h0]; exact Nat.testBit_lt_two_pow (lit_lt fb n _)
    | succ k =>
      rw [show n + 1 - 1 - (k + 1) = n - 1 - k by omega,
        lit_testBit_of_holdsStream n hs (construct_holdsStream fb base len) (by omega), hpos, Nat.add_comm k 1]
      rfl
  · exact (lit_inShifter fb n hs).2.trans (by rw [hpos]; omega)

end Sys2Proof.Machine

/-! SUPPORT. The six BD commands one by one: what each answers from a state with a decoder and from one without, and their
common frame; with the statements about them (40_bd_commands R110 to R119). -/

namespace Sys2Proof.Machine

/-! ### Without a decoder -/

theorem exec_of_not_valid {s : State} {i : Instr} (hv : s.bd.valid = false) (hinit : i ≠ .bdInit)
    (hparse : i ≠ .fhParse) : exec i s = .next { s with result := .error } := by
  rcases exec_bd_cases s hparse with e | ⟨_, -, hv', -⟩ | ⟨h, -⟩ | ⟨h, -⟩ | ⟨-, hv', -⟩
  · exact e
  · exact absurd hv' (by simp [hv])
  · exact absurd h hinit
  · exact absurd h hinit
  · exact absurd hv' (by simp [hv])

/-- Settles O28: every end of a BD command but the error needs a decoder or is `BD.INIT`'s. -/
theorem readsNeedDecoder : Obligations.ReadsNeedDecoder := fun _ _ => exec_of_not_valid

/-! ### BD.INIT -/

/-- Settles O21: the null buffer raises, and else the construction has the two bytes in `value`. -/
theorem initConstructsDecoder : Obligations.InitConstructsDecoder := by
  refine fun s => ⟨fun hn => if_pos hn, fun hn hb => ⟨_, execBdInit_of_fits hn hb, rfl, ?_, rfl, rfl⟩⟩
  show (Bd.construct s.fb s.argBase s.argLen).value.toNat = _
  rw [construct_eq, toNat_append_add, Nat.mul_comm]; rfl

/-! ### The reads -/

/-- A read command with a decoder puts what its read gives into `RES`. -/
theorem exec_read_of_valid {s : State} {i : Instr} {rd : Memory → Rd (BitVec 32)} (hi : readOf i = some rd)
    (hv : s.bd.valid = true) :
    exec i s = .next { s with bd := (rd s.fb s.bd).2, res := (rd s.fb s.bd).1, result := .ok } :=
  (exec_of_read hi s).trans (readToRes_of_valid rd hv)

theorem exec_bdRbool_of_valid {s : State} (p : Byte) (hv : s.bd.valid = true) :
    exec (.bdRbool p) s = .next { s with
      bd := (decodeBool s.fb p s.bd).2, res := if (decodeBool s.fb p s.bd).1 then 1 else 0, result := .ok } := by
  rw [exec_read_of_valid rfl hv, boolWord_apply]

/-- Settles O22: the read is one decoded bit. -/
theorem rboolReturnsDecodedBit : Obligations.RboolReturnsDecodedBit := fun _ p =>
  ⟨fun hv => exec_of_not_valid hv nofun nofun, exec_bdRbool_of_valid p⟩

/-- Settles O23: a literal of at most 32 bits fits `RES`. -/
theorem rlitReturnsLiteral : Obligations.RlitReturnsLiteral := by
  refine fun s n hv => ⟨fun hn => ⟨_, exec_read_of_valid (if_pos hn) hv, ?_⟩, fun hn =>
    exec_of_no_read (i := .bdRlit n) nofun nofun nofun (if_neg (Nat.not_le.2 hn)) s⟩
  have hlt := lit_lt s.fb n.toNat s.bd
  have hres : (litWord s.fb n.toNat s.bd).1.toNat = (lit s.fb n.toNat s.bd).1 := by
    rw [litWord_apply, BitVec.toNat_ofNat]
    exact Nat.mod_eq_of_lt (hlt.trans_le (Nat.pow_le_pow_right (by decide) hn))
  exact ⟨by rw [litWord_apply], hres, hres.trans_lt hlt⟩

theorem signedLit_natAbs_le (fb : Memory) (n : Nat) (d : Bd) : (signedLit fb n d).1.natAbs ≤ 2 ^ n - 1 := by
  have hlt := lit_lt fb n d
  rw [signedLit_apply]
  cases (decodeBool fb 128 (lit fb n d).2).1 <;> simp <;> omega

/-- Settles O24: a signed literal of at most 31 magnitude bits fits `RES`. -/
theorem rslitReturnsSignedLiteral : Obligations.RslitReturnsSignedLiteral := by
  refine fun s n hv => ⟨fun hn => ⟨_, exec_read_of_valid (if_pos hn) hv, ?_⟩, fun hn =>
    exec_of_no_read (i := .bdRslit n) nofun nofun nofun (if_neg (Nat.not_le.2 hn)) s⟩
  have hle := signedLit_natAbs_le s.fb n.toNat s.bd
  have hpow : 2 ^ n.toNat ≤ 2 ^ 31 := Nat.pow_le_pow_right (by decide) hn
  have hres : (signedWord s.fb n.toNat s.bd).1.toInt = (signedLit s.fb n.toNat s.bd).1 := by
    rw [signedWord_apply]
    exact BitVec.toInt_ofInt_eq_self (by decide) (by omega) (by omega)
  exact ⟨by rw [signedWord_apply], hres, by rw [hres]; exact hle⟩

/-- One decoded bit is the literal of one bit. -/
theorem litWord_one (fb : Memory) : litWord fb 1 = boolWord fb 128 := funext fun d => by
  rw [litWord_apply, boolWord_apply, lit_succ, lit_zero]
  cases (decodeBool fb 128 d).1 <;> rfl

/-- Settles O25: the three commands have the same read. -/
theorem rflagIsOneBitLiteral : Obligations.RflagIsOneBitLiteral := by
  intro s
  have hlit : readOf (.bdRlit 1) = some fun fb => boolWord fb 128 := congrArg some (funext litWord_one)
  have hbool : exec .bdRflag s = exec (.bdRbool 128) s := rfl
  refine ⟨(exec_of_read rfl s).trans (exec_of_read hlit s).symm, hbool, fun hv => ?_, fun hv => ?_⟩
  · exact exec_of_not_valid hv nofun nofun
  · exact hbool.trans (exec_bdRbool_of_valid 128 hv)

/-! ### BD.POS -/

theorem Bd.pos_div (d : Bd) : d.pos / 8 = d.cursor - 2 := by
  have := d.bitCount.isLt
  rw [Bd.pos]; omega

theorem Bd.pos_mod (d : Bd) : d.pos % 8 = d.bitCount.toNat := by
  have := d.bitCount.isLt
  rw [Bd.pos]; omega

theorem reportPos_posBit_eq_bitCount (s : State) : s.reportPos.posBit = s.bd.bitCount := by
  rw [State.reportPos_posBit, Bd.pos_mod, BitVec.ofNat_toNat, BitVec.setWidth_eq]

/-- Settles O26: the position splits into the bytes and the bits counted, and the bytes fit. -/
theorem posReportsPosition : Obligations.PosReportsPosition := by
  rintro s _ rfl
  refine ⟨fun hv => exec_of_not_valid hv nofun nofun, fun hv hfits => ?_⟩
  have hfits' : s.bd.pos / 8 < addrSpace := hfits
  obtain ⟨hbyte, -⟩ := s.reportPos_fits hfits'
  have hbyteNat : s.reportPos.posByte.toNat = s.bd.pos / 8 := by
    rw [hbyte, BitVec.toNat_ofNat]; exact Nat.mod_eq_of_lt hfits'
  refine ⟨_, execBdPos_of_valid hv, ?_, hbyteNat, hbyteNat.trans s.bd.pos_div, ?_, reportPos_posBit_eq_bitCount s⟩
  · rw [State.reportPos, if_pos hfits']
  · show s.reportPos.posBit.toNat = s.bd.pos % 8
    rw [reportPos_posBit_eq_bitCount, Bd.pos_mod]

/-- Settles O27: the bytes do not fit, and the bits are reported all the same. -/
theorem positionBeyondAddressWidth : Obligations.PositionBeyondAddressWidth := by
  intro s hv hbig
  have hbig' : ¬ s.bd.pos / 8 < addrSpace := by rw [Bd.pos_div]; exact Nat.not_lt.2 hbig
  refine ⟨_, execBdPos_of_valid hv, ?_, reportPos_posBit_eq_bitCount s⟩
  rw [State.reportPos, if_neg hbig']

/-! ### The frame -/

/-- `e` has the slice, the flag and the changed bytes of `d`: what no read writes. -/
def Bd.SliceKept (d e : Bd) : Prop := e.base = d.base ∧ e.len = d.len ∧ e.valid = d.valid ∧ e.overlay = d.overlay

theorem Bd.SliceKept.eq {d e : Bd} (h : d.SliceKept e) :
    e = { d with range := e.range, value := e.value, bitCount := e.bitCount, cursor := e.cursor } := by
  obtain ⟨hbase, hlen, hvalid, hover⟩ := h
  rw [← hbase, ← hlen, ← hvalid, ← hover]

theorem decodeBool_sliceKept (fb : Memory) (p : Prob) (d : Bd) : (decodeBool fb p).Keeps d.SliceKept := fun e h => by
  obtain ⟨hbase, hlen, hvalid, hover⟩ := h
  obtain ⟨hbase', hlen', hvalid', hover'⟩ := decodeBool_slice fb p e
  exact ⟨hbase'.trans hbase, hlen'.trans hlen, hvalid'.trans hvalid, hover'.trans hover⟩

/-- Which BD command writes `RES`, which the position, and that an `Error` writes only the result. -/
theorem exec_bd_outputs {s t : State} {i : Instr} (hi : i ≠ .fhParse) (he : exec i s = .next t) :
    (i = .bdInit → t.res = s.res) ∧ (i = .bdPos → t.res = s.res ∧ t.bd = s.bd) ∧
      (i ≠ .bdPos → t.posByte = s.posByte ∧ t.posBit = s.posBit ∧ t.draws = s.draws) ∧
      (t.result = .error → t = { s with result := .error }) := by
  rcases exec_bd_cases s hi with e | ⟨rd, hrd, -, e⟩ | ⟨rfl, -, -, e⟩ | ⟨-, -, -, e⟩ | ⟨rfl, -, e⟩ <;>
    simp only [e, Host.Outcome.next.injEq, reduceCtorEq] at he <;> subst he
  · simp
  · have hinit : i ≠ .bdInit := by rintro rfl; cases hrd
    have hpos : i ≠ .bdPos := by rintro rfl; cases hrd
    simp [hinit, hpos]
  · simp
  · simp

/-- Settles O29: each output has its one writer, and of the BD registers a read writes four. -/
theorem bdCommandsFrame : Obligations.BdCommandsFrame := fun s _ _ hi he => by
  obtain ⟨hinit, hpos, hnpos, herror⟩ := exec_bd_outputs hi he
  exact ⟨exec_bd_frame hi he, fun a => by rw [exec_fb he], hinit,
    fun h => (exec_bd_keeps (fun p => decodeBool_sliceKept s.fb p s.bd) h hi ⟨rfl, rfl, rfl, rfl⟩ he).eq, hpos, hnpos,
    herror⟩

end Sys2Proof.Machine

/-! SUPPORT. `FH.PARSE` as a whole: the caller's contract, what S1 leaves and shows of the tag, how an accepted frame ends, and
the frame of the command; with the statements about them (41_frame_header R150 to R158, R187, R188). -/

namespace Sys2Proof.Machine

/-! ### The caller's contract -/

/-- A null buffer or a zero length raises an `Error` (41_frame_header R151). -/
theorem exec_fhParse_of_contract_broken {s : State} (h : s.argNull = true ∨ s.argLen = 0) :
    ∃ c : Cause, c.result = .error ∧ exec .fhParse s = .next (s.failParse c) := by
  rw [exec_fhParse]
  rcases execFhParse_cases s with ⟨-, e⟩ | ⟨-, -, e⟩ | ⟨hn, hz, -⟩ | ⟨⟨hn, hz, -⟩, -⟩ | ⟨⟨hn, hz, -⟩, -⟩
  · exact ⟨.nullBuffer, rfl, e⟩
  · exact ⟨.zeroSize, rfl, e⟩
  all_goals exact absurd h (not_or.2 ⟨by simp [hn], hz⟩)

/-- No pass raises an `Error` (60_exceptions R221). -/
theorem contract_broken_of_error {s t : State} (he : exec .fhParse s = .next t) (ht : t.result = .error) :
    s.argNull = true ∨ s.argLen = 0 := by
  rw [exec_fhParse] at he
  rcases execFhParse_cases s with ⟨hn, -⟩ | ⟨-, hz, -⟩ | ⟨-, -, -, e⟩ | ⟨-, p, -, e⟩ | ⟨-, c, p, hp, e⟩
  · exact .inl hn
  · exact .inr hz
  · simp [e] at he
  · rw [e, Host.Outcome.next.injEq] at he
    simp [← he] at ht
  · rw [e, Host.Outcome.next.injEq] at he
    simp [← he, failParse_brokenData_eq (parseFrame_error_kept hp).2] at ht

/-- Settles O32: the two causes of the contract, and no other `Error`. -/
theorem callerContractErrors : Obligations.CallerContractErrors := by
  refine fun s => ⟨fun h => ?_, fun t => contract_broken_of_error⟩
  obtain ⟨c, hc, e⟩ := exec_fhParse_of_contract_broken h
  refine ⟨_, e, ?_⟩
  rw [failParse_error_eq hc]
  exact ⟨rfl, rfl, rfl⟩

/-! ### S1 -/

theorem parsePrefix_ok_iff {s u : State} :
    parsePrefix s.beginParse = .ok u ↔ s.PrefixGood ∧ u = prefixState s.beginParse := by
  rcases parsePrefix_cases s.beginParse with ⟨hg, e⟩ | ⟨hg, c, t, e⟩ <;> rw [e]
  · rw [Except.ok.injEq]
    exact ⟨fun h => ⟨hg, h.symm⟩, fun h => h.2.symm⟩
  · exact ⟨nofun, fun h => absurd h.1 hg⟩

/-- Settles O33: `S1` accepts exactly the good prefixes, and any other is a failure of the frame. -/
theorem brokenPrefixIsBrokenData : Obligations.BrokenPrefixIsBrokenData := by
  refine fun s hg => ⟨fun hbad => ?_, fun hgood => ⟨_, parsePrefix_ok_iff.2 ⟨hgood, rfl⟩⟩⟩
  rcases parsePrefix_cases s.beginParse with ⟨hgood, -⟩ | ⟨-, c, u, e⟩
  · exact absurd hgood hbad
  · exact exec_fhParse_of_error hg (parseFrame_of_prefix_error e)

/-- Settles O38: PCS past `S1` is the one the elements start from. -/
theorem keyframeResetsPcs : Obligations.KeyframeResetsPcs := by
  intro s u hu
  obtain ⟨-, rfl⟩ := parsePrefix_ok_iff.1 hu
  have zeros : ∀ i : Fin 4, (#v[0, 0, 0, 0] : Vector Int 4)[i] = 0 := by decide
  rw [(prefixState_opened s).pcs]
  refine ⟨fun hk => if_neg hk, fun hk => ?_⟩
  rw [State.pcsIn, if_pos hk]
  exact ⟨rfl, rfl, fun i => ⟨zeros i, zeros i⟩, rfl, rfl, rfl, rfl, rfl, fun i => ⟨zeros i, zeros i⟩, rfl, rfl, rfl, rfl⟩

/-- The fields that `S1` takes from the tag and from a keyframe's extension (30_encoding R86, R88, 41_frame_header R154). -/
def Fhr.FollowsTag (s : State) (h : Fhr) : Prop :=
  (h.keyFrame = true ↔ s.isKeyframe) ∧
  h.version.toNat = s.tag.toNat / 2 % 4 ∧
  (h.showFrame = true ↔ s.tag.toNat / 16 % 2 = 1) ∧
  h.firstPartSize.toNat = s.tag.toNat / 32 ∧
  h.firstPartOffset = (if s.isKeyframe then 10 else 3) ∧
  (s.isKeyframe →
    h.width.toNat = ((s.frameByte 6).toNat + 256 * (s.frameByte 7).toNat) % 2 ^ 14 ∧
    h.horizontalScale.toNat = ((s.frameByte 6).toNat + 256 * (s.frameByte 7).toNat) / 2 ^ 14 ∧
    h.height.toNat = ((s.frameByte 8).toNat + 256 * (s.frameByte 9).toNat) % 2 ^ 14 ∧
    h.verticalScale.toNat = ((s.frameByte 8).toNat + 256 * (s.frameByte 9).toNat) / 2 ^ 14)

theorem Fhr.FollowsTag.of_sameTag {s : State} {g h : Fhr} (hg : g.FollowsTag s) (e : SameTag g h) : h.FollowsTag s := by
  unfold Fhr.FollowsTag
  rw [e.keyFrame, e.version, e.showFrame, e.firstPartSize, e.firstPartOffset, e.width, e.horizontalScale, e.height,
    e.verticalScale]
  exact hg

/-- A dimension word splits into 14 bits of size and 2 of scale (30_encoding R88). -/
theorem dimension_toNat (fb : Memory) (a : Nat) :
    ((fb.read16 a).extractLsb' 0 14).toNat = ((fb.read a).toNat + 256 * (fb.read (a + 1)).toNat) % 2 ^ 14 ∧
      ((fb.read16 a).extractLsb' 14 2).toNat = ((fb.read a).toNat + 256 * (fb.read (a + 1)).toNat) / 2 ^ 14 := by
  have h0 := (fb.read a).isLt
  have h1 := (fb.read (a + 1)).isLt
  simp only [BitVec.extractLsb'_toNat, Nat.shiftRight_eq_div_pow, Memory.read16, toNat_append_add]
  omega

theorem setTag_followsTag (s : State) :
    (s.setTag.fhr.keyFrame = true ↔ s.isKeyframe) ∧ s.setTag.fhr.version.toNat = s.tag.toNat / 2 % 4 ∧
      (s.setTag.fhr.showFrame = true ↔ s.tag.toNat / 16 % 2 = 1) ∧
      s.setTag.fhr.firstPartSize.toNat = s.tag.toNat / 32 := by
  have htag := s.tag.isLt
  have hshow : s.tag.getLsbD 4 = decide (s.tag.toNat / 2 ^ 4 % 2 = 1) := Nat.testBit_eq_decide_div_mod_eq
  simp only [State.setTag_fhr, BitVec.extractLsb'_toNat, Nat.shiftRight_eq_div_pow, hshow, decide_eq_true_eq]
  exact ⟨keyFrame_iff s, trivial, Iff.rfl, by omega⟩

theorem prefixState_followsTag (s : State) : (prefixState s.beginParse).fhr.FollowsTag s := by
  obtain ⟨hkey, hversion, hshow, hsize⟩ := setTag_followsTag s.beginParse
  by_cases hk : s.isKeyframe
  · have hb : s.beginParse.isKeyframe := hk
    rw [prefixState, if_pos hb]
    obtain ⟨hw, hws⟩ := dimension_toNat s.fb (s.argBase.toNat + 6)
    obtain ⟨hh, hhs⟩ := dimension_toNat s.fb (s.argBase.toNat + 8)
    exact ⟨hkey, hversion, hshow, hsize, (if_pos hk).symm, fun _ => ⟨hw, hws, hh, hhs⟩⟩
  · have hb : ¬ s.beginParse.isKeyframe := hk
    rw [prefixState, if_neg hb]
    exact ⟨hkey, hversion, hshow, hsize, (if_neg hk).symm, fun h => absurd h hk⟩

/-- Of an `Ok` frame `FHR` shows what `S1` took from the tag. -/
theorem exec_fhParse_followsTag {s t : State} (he : exec .fhParse s = .next t) (ht : t.result = .ok) :
    t.fhr.FollowsTag s := by
  obtain ⟨-, p, hp, rfl⟩ := exec_fhParse_ok he ht
  obtain ⟨v, entries, -, hv, -, rfl⟩ := parseFrame_ok hp
  have h := (prefixState_followsTag s).of_sameTag (parseElements_sameTag hv)
  rwa [State.commit_fhr, State.setPt_fhr, State.enterPartitions_fhr, State.reportPos_fhr]

/-- Settles O37: the tag's bytes, its fields, and what `S1` opens. -/
theorem prefixFieldsFollowTag : Obligations.PrefixFieldsFollowTag := by
  refine ⟨fun s u _ hu => ?_, fun s t => exec_fhParse_followsTag⟩
  obtain ⟨-, rfl⟩ := parsePrefix_ok_iff.1 hu
  obtain ⟨hkey, hversion, hshow, hsize, hoff, hdim⟩ := prefixState_followsTag s
  have hopen := prefixState_opened s
  refine ⟨tag_toNat s, hkey, hversion, hshow, hsize, hoff, hopen.pcs, prefixState_w _, (prefixState_kept _).pcsSnap, ?_,
    hdim⟩
  rw [hopen.bd, hoff]
  rfl

/-! ### The end of an accepted frame -/

/-- Where the position fits, it is reported. -/
theorem reportPos_posByte_toNat {s : State} (h : s.bd.pos / 8 < 2 ^ 32) : s.reportPos.posByte.toNat = s.bd.pos / 8 := by
  rw [(s.reportPos_fits h).1, BitVec.toNat_ofNat]
  exact Nat.mod_eq_of_lt h

theorem reportPos_posBit_toNat (s : State) : s.reportPos.posBit.toNat = s.bd.pos % 8 := by
  rw [State.reportPos_posBit, BitVec.toNat_ofNat]
  omega

/-- The state in which `FH.PARSE` completes with `Ok`, from the state after the last element and the layout: the position,
the partition table, the commit (41_frame_header R178, R180, R187). -/
def State.finish (v : State) (entries : List PtEntry) : State :=
  (v.reportPos.enterPartitions.setPt
    (ptOf v.fhr.numOfDctPartitions entries (Config.freePt v.reportPos.draws).entry)).commit

/-- The layout of the frame whose elements have left the state `v`. -/
def State.layoutOf (s v : State) : Except Cause (List PtEntry) :=
  extractLayout s.cfg.zeroSizePartBroken s.fb s.argBase.toNat s.argLen.toNat v.fhr.firstPartEnd
    v.fhr.numOfDctPartitions.toNat

section finish

variable (v : State) (entries : List PtEntry)

@[simp] theorem State.finish_fhr :
    (v.finish entries).fhr = { v.fhr with seg := v.pcs.seg, lf := v.pcs.lf, entropy := v.w } := by
  simp [State.finish]
@[simp] theorem State.finish_pcs : (v.finish entries).pcs =
    { v.pcs with entropy := if v.fhr.refreshEntropyProbs then v.w else v.pcs.entropy } := by
  simp [State.finish]
@[simp] theorem State.finish_posBit : (v.finish entries).posBit = v.reportPos.posBit := by simp [State.finish]
@[simp] theorem State.finish_posByte : (v.finish entries).posByte = v.reportPos.posByte := by simp [State.finish]
@[simp] theorem State.finish_pt_count : (v.finish entries).pt.count = v.fhr.numOfDctPartitions := rfl

/-- An entry of the table below the count is the layout's. -/
theorem State.finish_entry (i : Fin 8) (h : i.val < entries.length) :
    some (v.finish entries).pt.entry[i] = entries[i.val]? :=
  ptOf_entry v.fhr.numOfDctPartitions entries _ i h

/-- All that completing with `Ok` writes. -/
theorem State.finish_eq :
    v.finish entries =
      { v with
        result := .ok, fhrValid := true, bd := (v.finish entries).bd, pcs := (v.finish entries).pcs
        fhr := (v.finish entries).fhr, pt := (v.finish entries).pt, posByte := (v.finish entries).posByte
        posBit := (v.finish entries).posBit, fh := (v.finish entries).fh, draws := (v.finish entries).draws } := by
  simp only [State.finish, State.reportPos]
  split <;> rfl

end finish

/-- The elements of a frame leave the buffer and its registers as they are. -/
theorem parseElements_kept_of_prefix {s v : State} (hv : parseElements (prefixState s.beginParse) = .ok v) :
    Kept s.beginParse v :=
  (prefixState_kept _).trans (parseElements_rest hv).1

/-- Past the elements only the layout is left. -/
theorem parseFrame_of_elements {s v : State} (hp : s.PrefixGood)
    (hv : parseElements (prefixState s.beginParse) = .ok v) : parseFrame s = parsePartitions v.reportPos := by
  rw [parseFrame_of_prefix (parsePrefix_ok_iff.2 ⟨hp, rfl⟩), hv]
  rfl

theorem layoutOf_eq {s v : State} (h : Kept s v) :
    s.layoutOf v = extractLayout v.reportPos.cfg.zeroSizePartBroken v.reportPos.fb v.reportPos.argBase.toNat
      v.reportPos.argLen.toNat v.reportPos.fhr.firstPartEnd v.reportPos.fhr.numOfDctPartitions.toNat := by
  simp only [State.layoutOf, State.reportPos_cfg, State.reportPos_fb, State.reportPos_argBase, State.reportPos_argLen,
    State.reportPos_fhr, h.cfg, h.fb, h.argBase, h.argLen]

/-- Accepted elements and an accepted layout complete with `Ok`. -/
theorem exec_fhParse_of_accepted {s v : State} {entries : List PtEntry} (hg : s.CallerGood) (hp : s.PrefixGood)
    (hv : parseElements (prefixState s.beginParse) = .ok v) (hl : s.layoutOf v = .ok entries) :
    exec .fhParse s = .next (v.finish entries) := by
  have hl' : s.beginParse.layoutOf v = .ok entries := hl
  rw [layoutOf_eq (parseElements_kept_of_prefix hv)] at hl'
  rw [exec_fhParse, execFhParse_of_good hg, parseFrame_of_elements hp hv, parsePartitions, hl', State.reportPos_fhr]
  rfl

/-- A layout that is not accepted completes with `BrokenData`. -/
theorem exec_fhParse_of_layout_error {s v : State} {c : Cause} (hg : s.CallerGood) (hp : s.PrefixGood)
    (hv : parseElements (prefixState s.beginParse) = .ok v) (hl : s.layoutOf v = .error c) :
    ∃ t, exec .fhParse s = .next t ∧ t.result = .brokenData ∧ t.fhrValid = false := by
  have hl' : s.beginParse.layoutOf v = .error c := hl
  rw [layoutOf_eq (parseElements_kept_of_prefix hv)] at hl'
  refine exec_fhParse_of_error hg (c := c) (t := v.reportPos.enterPartitions) ?_
  rw [parseFrame_of_elements hp hv, parsePartitions, hl']

/-- Every `Ok` frame is such a frame. -/
theorem exec_fhParse_accepted {s t : State} (he : exec .fhParse s = .next t) (ht : t.result = .ok) :
    s.CallerGood ∧ s.PrefixGood ∧ ∃ v entries, parseElements (prefixState s.beginParse) = .ok v ∧
      s.layoutOf v = .ok entries ∧ t = v.finish entries := by
  obtain ⟨hg, p, hp, rfl⟩ := exec_fhParse_ok he ht
  obtain ⟨v, entries, hgood, hv, hl, rfl⟩ := parseFrame_ok hp
  refine ⟨hg, hgood, v, entries, hv, ?_, rfl⟩
  have hk := parseElements_kept_of_prefix hv
  rwa [hk.cfg, hk.fb, hk.argBase, hk.argLen] at hl

/-- Settles O39: the commit of accepted elements and an accepted layout. -/
theorem goodFrameCommits : Obligations.GoodFrameCommits := by
  intro s u v entries hg hu hv hl
  obtain ⟨hp, rfl⟩ := parsePrefix_ok_iff.1 hu
  have hk := parseElements_kept_of_prefix hv
  have hentropy : v.pcs.entropy = (prefixState s.beginParse).w :=
    (parseElements_rest hv).2.1.trans (prefixState_w _).symm
  refine ⟨_, exec_fhParse_of_accepted hg hp hv hl, rfl, rfl, rfl, ?_, ?_, ?_, ?_, ?_, rfl,
    State.finish_entry v entries, fun hpos => ?_, ?_, ?_⟩
  · show (0 : BitVec 12) ++ (BitVec.ofBool true ++ (BitVec.ofBool false ++ (0 : BitVec 2))) = 0x0008
    decide
  · rw [State.finish_pcs]
  · rw [State.finish_pcs]
  · rw [State.finish_pcs, hentropy]
  · exact State.finish_fhr v entries
  · rw [State.finish_posByte, reportPos_posByte_toNat hpos]
  · rw [State.finish_posBit, reportPos_posBit_toNat]
  · refine (State.finish_eq v entries).trans ?_
    simp only [hk.fb, hk.argBase, hk.argLen, hk.argNull, hk.res, hk.pcsSnap, hk.cfg, hk.pending]
    rfl

/-! ### The frame of the command -/

/-- Settles O52: each of the three ends keeps what no pass writes. -/
theorem parseFrameConditions : Obligations.ParseFrameConditions := by
  intro s t he
  have hvalid := exec_fhParse_fhrValid_iff he
  have hfb : t.fb = s.fb := exec_fb he
  rcases exec_fhParse_next he with ⟨c, hc, rfl⟩ | ⟨p, hp, rfl⟩ | ⟨c, p, hp, hc, rfl⟩
  · rw [failParse_error_eq hc] at hvalid hfb ⊢
    exact ⟨rfl, rfl, rfl, rfl, fun _ => rfl, rfl, rfl, rfl, fun h => absurd rfl h, fun _ => ⟨rfl, rfl⟩, hvalid⟩
  · have hk := parseFrame_ok_kept hp
    exact ⟨hk.res, hk.argBase, hk.argLen, hk.argNull, fun a => by rw [hfb], hk.cfg, hk.pending, rfl, fun _ => rfl, nofun,
      hvalid⟩
  · have hk := (parseFrame_error_kept hp).1
    rw [failParse_brokenData_eq hc] at hvalid hfb ⊢
    exact ⟨hk.res, hk.argBase, hk.argLen, hk.argNull, fun a => by rw [hfb], hk.cfg, hk.pending, rfl, fun _ => rfl, nofun,
      hvalid⟩

end Sys2Proof.Machine

/-! SUPPORT. The headers and tables of FH.PARSE read out bit by bit, in the order of 41_frame_header R160; with the statement
about the coefficient table. -/

namespace Sys2Proof.Machine

/-! ### Literals in fields -/

theorem litField_apply (fb : Memory) (w n : Nat) (d : Bd) :
    litField fb w n d = (BitVec.ofNat w (lit fb n d).1, (lit fb n d).2) := rfl

/-- A literal fits a field of at least its width. -/
theorem litField_toNat (fb : Memory) {w n : Nat} (h : n ≤ w) (d : Bd) :
    (litField fb w n d).1.toNat = (lit fb n d).1 := by
  rw [litField_apply, BitVec.toNat_ofNat]
  exact Nat.mod_eq_of_lt ((lit_lt fb n d).trans_le (Nat.pow_le_pow_right (by decide) h))

theorem litField_eq_readProb (fb : Memory) : litField fb 8 8 = readProb fb := funext (litField_prob fb)

theorem absentEntry_eq {α : Type} (c : Params) (resetTo old : α) :
    absentEntry c resetTo old = if c.segEntryAbsent = .keep then old else resetTo := by
  unfold absentEntry
  cases c.segEntryAbsent <;> rfl

/-- A table whose entries each keep their value where their presence bit is 0. -/
theorem each_whenFlag {α : Type} {n : Nat} (fb : Memory) (rd : Rd α) (v : Vector α n) (d : Bd) :
    (each (fun o => whenFlag fb rd o) v d).1.toList = (presenceWalk fb rd (v.toList.map fun o => (128, o)) d).1 ∧
      (each (fun o => whenFlag fb rd o) v d).2 = (presenceWalk fb rd (v.toList.map fun o => (128, o)) d).2 :=
  each_updateAt fb 128 rd id v d

/-! ### The segmentation header (R160 rows 3 to 9) -/

section segHeader

variable (c : Params) (fb : Memory) (g : Seg) (d : Bd)

/-- The values of a segment group, each behind its presence bit, with what stands for an absent one. -/
def absentEntries {α : Type} {n : Nat} (resetTo : α) (old : Vector α n) : List (Prob × α) :=
  old.toList.map fun o => (128, if c.segEntryAbsent = .keep then o else resetTo)

theorem each_absentEntry {α : Type} {n : Nat} (rd : Rd α) (resetTo : α) (old : Vector α n) :
    (each (fun o => whenFlag fb rd (absentEntry c resetTo o)) old d).1.toList =
        (presenceWalk fb rd (absentEntries c resetTo old) d).1 ∧
      (each (fun o => whenFlag fb rd (absentEntry c resetTo o)) old d).2 =
        (presenceWalk fb rd (absentEntries c resetTo old) d).2 := by
  simp only [absentEntry_eq]
  exact each_updateAt fb 128 rd _ old d

/-- All that rows 6 to 8 write. -/
theorem segFeatureData_frame :
    (segFeatureData c fb g).Gives fun x => x = { g with featureMode := x.featureMode, quant := x.quant, lf := x.lf } :=
  .bind_any fun _ => .bind_any fun _ => .bind_any fun _ => .pure rfl

/-- Rows 6 to 8. -/
theorem segFeatureData_apply :
    let mode := decodeBool fb 128 d
    let quant := presenceWalk fb (signedLit fb c.segQBits) (absentEntries c 0 g.quant) mode.2
    let lf := presenceWalk fb (signedLit fb c.segLfBits) (absentEntries c 0 g.lf) quant.2
    let r := segFeatureData c fb g d
    r.1.featureMode = mode.1 ∧ r.1.quant.toList = quant.1 ∧ r.1.lf.toList = lf.1 ∧ r.2 = lf.2 := by
  intro mode quant lf r
  obtain ⟨hq, hq'⟩ := each_absentEntry c fb mode.2 (signedLit fb c.segQBits) 0 g.quant
  obtain ⟨hl, hl'⟩ := each_absentEntry c fb
    (each (fun o => whenFlag fb (signedLit fb c.segQBits) (absentEntry c 0 o)) g.quant mode.2).2
    (signedLit fb c.segLfBits) 0 g.lf
  simp only [r, segFeatureData, Rd.bind_apply, Rd.pure_apply, flag, Config.litProb]
  exact ⟨rfl, hq, hl.trans (by rw [hq']), hl'.trans (by rw [hq'])⟩

/-- All that row 9 writes. -/
theorem segTreeProbs_frame : (segTreeProbs c fb g).Gives fun x => x = { g with prob := x.prob } :=
  .bind_any fun _ => .pure rfl

/-- Row 9. -/
theorem segTreeProbs_apply :
    let prob := presenceWalk fb (readProb fb) (absentEntries c 255 g.prob) d
    let r := segTreeProbs c fb g d
    r.1.prob.toList = prob.1 ∧ r.2 = prob.2 := by
  intro prob r
  obtain ⟨hp, hp'⟩ := each_absentEntry c fb d (litField fb 8 8) 255 g.prob
  exact ⟨hp.trans (by rw [litField_eq_readProb]), hp'.trans (by rw [litField_eq_readProb])⟩

theorem segHeader_disabled (h : (decodeBool fb 128 d).1 = false) :
    segHeader c fb g d = (({ g with enabled := false }, false, false), (decodeBool fb 128 d).2) := by
  simp only [segHeader, flag, Config.litProb, Rd.bind_apply, h, Bool.false_eq_true, if_false, Rd.pure_apply]

theorem segHeader_enabled (h : (decodeBool fb 128 d).1 = true) :
    let map := decodeBool fb 128 (decodeBool fb 128 d).2
    let data := decodeBool fb 128 map.2
    let f := whenSet data.1 (segFeatureData c fb) { g with enabled := true } data.2
    let p := whenSet map.1 (segTreeProbs c fb) f.1 f.2
    segHeader c fb g d = ((p.1, map.1, data.1), p.2) := by
  simp only [segHeader, flag, Config.litProb, Rd.bind_apply, h, if_true, Rd.pure_apply]

end segHeader

/-! ### The loop-filter header (R160 rows 10 to 16) -/

section lfHeader

variable (c : Params) (fb : Memory) (f : LoopFilter) (d : Bd)

/-- All that rows 15 and 16 write. -/
theorem lfDeltas_frame :
    (lfDeltas c fb f).Gives fun x => x = { f with refDelta := x.refDelta, modeDelta := x.modeDelta } :=
  .bind_any fun _ => .bind_any fun _ => .pure rfl

/-- Rows 15 and 16. -/
theorem lfDeltas_apply :
    let ref := presenceWalk fb (signedLit fb c.lfDeltaBits) (f.refDelta.toList.map fun o => ((128 : Prob), o)) d
    let mode := presenceWalk fb (signedLit fb c.lfDeltaBits) (f.modeDelta.toList.map fun o => ((128 : Prob), o)) ref.2
    let r := lfDeltas c fb f d
    r.1.refDelta.toList = ref.1 ∧ r.1.modeDelta.toList = mode.1 ∧ r.2 = mode.2 := by
  intro ref mode r
  obtain ⟨hr, hr'⟩ := each_whenFlag fb (signedLit fb c.lfDeltaBits) f.refDelta d
  obtain ⟨hm, hm'⟩ := each_whenFlag fb (signedLit fb c.lfDeltaBits) f.modeDelta
    (each (fun o => whenFlag fb (signedLit fb c.lfDeltaBits) o) f.refDelta d).2
  exact ⟨hr, hm.trans (by rw [hr']), hm'.trans (by rw [hr'])⟩

/-- Rows 10 to 13, then the deltas behind their two flags. -/
theorem lfHeader_apply :
    let type := decodeBool fb 128 d
    let level := lit fb c.lfLevelBits type.2
    let sharpness := litField fb 3 3 level.2
    let adj := decodeBool fb 128 sharpness.2
    let f' : LoopFilter :=
      { f with filterType := type.1, level := level.1, sharpness := sharpness.1, adjEnable := adj.1 }
    let update := decodeBool fb 128 adj.2
    let deltas := whenSet update.1 (lfDeltas c fb) f' update.2
    lfHeader c fb f d = if adj.1 then ((deltas.1, update.1), deltas.2) else ((f', false), adj.2) := by
  intro type level sharpness adj f' update deltas
  simp only [lfHeader, flag, Config.litProb, Rd.bind_apply]
  by_cases h : adj.1 = true
  · rw [if_pos h, if_pos h]
    rfl
  · rw [if_neg h, if_neg h]
    rfl

end lfHeader

/-! ### The quantiser header (R160 rows 18 and 19) -/

theorem quantHeader_apply (c : Params) (fb : Memory) (d : Bd) :
    let base := lit fb 7 d
    let delta := presenceWalk fb (signedLit fb c.qdeltaBits) (List.replicate 5 ((128 : Prob), 0)) base.2
    (quantHeader c fb d).1.base.toNat = base.1 ∧ (quantHeader c fb d).1.delta.toList = delta.1 ∧
      (quantHeader c fb d).2 = delta.2 := by
  intro base delta
  obtain ⟨hd, hd'⟩ := each_whenFlag fb (signedLit fb c.qdeltaBits) #v[0, 0, 0, 0, 0] base.2
  have hnum := litField_toNat fb (Nat.le_refl 7) d
  simp only [quantHeader, Rd.bind_apply, Rd.pure_apply, litField_apply] at hnum ⊢
  exact ⟨hnum, hd, hd'⟩

/-! ### The tables of probabilities (R160 rows 29 and 35 to 37) -/

/-- A coefficient table read out is its rows read out, level by level. -/
theorem coeffList_eq (t : CoeffTable) :
    coeffList t = ((t.toList.flatMap (·.toList)).flatMap (·.toList)).flatMap (·.toList) := by
  simp only [coeffList, List.flatMap_assoc]

theorem coeffList_length (t : CoeffTable) : (coeffList t).length = 1056 := by
  simp [coeffList, List.length_flatMap]

theorem mvList_length (t : MvTable) : (mvList t).length = 38 := by
  simp [mvList, List.length_flatMap]

/-- Settles O44: a table of tables is walked row by row, at each of its levels. -/
theorem tokenProbsInIndexOrder : Obligations.TokenProbsInIndexOrder := by
  intro c fb old d
  let step := fun p o => updateAt fb p (litField fb 8 8) o
  let ps := c.coeffUpdateProbs.toList
  let os := old.toList
  have h0 : ps.length = os.length := by simp [ps, os]
  obtain ⟨v1, d1⟩ := eachL_eachV (eachV (eachV step)) ps os d h0
  have h1 : (ps.flatMap (·.toList)).length = (os.flatMap (·.toList)).length := by simp [ps, os, List.length_flatMap]
  obtain ⟨v2, d2⟩ := eachL_eachV (eachV step) _ _ d h1
  have h2 : ((ps.flatMap (·.toList)).flatMap (·.toList)).length = ((os.flatMap (·.toList)).flatMap (·.toList)).length := by
    simp [ps, os, List.length_flatMap, List.flatMap_assoc]
  obtain ⟨v3, d3⟩ := eachL_eachV step _ _ d h2
  rw [coeffList_eq, coeffList_eq, coeffList_eq, ← v3, ← v2, ← v1, ← d3, ← d2, ← d1]
  exact ⟨rfl, rfl, by rw [← coeffList_eq, coeffList_length]⟩

/-- A replacement motion-vector probability, by its coding. -/
theorem mvProb_lit8 {c : Params} (h : c.mvProbCoding = .lit8) (fb : Memory) : mvProb c fb = litField fb 8 8 := by
  simp only [mvProb, h]

theorem mvProb_lit7Shift {c : Params} (h : c.mvProbCoding = .lit7Shift) (fb : Memory) (d : Bd) :
    (mvProb c fb d).1.toNat = (if (lit fb 7 d).1 = 0 then 1 else 2 * (lit fb 7 d).1) ∧
      (mvProb c fb d).2 = (lit fb 7 d).2 := by
  have hlt := lit_lt fb 7 d
  simp only [mvProb, h, Rd.bind_apply, Rd.pure_apply, and_true]
  split
  · rfl
  · rw [BitVec.toNat_ofNat, Nat.shiftLeft_eq]; omega

theorem mvProbs_apply (c : Params) (fb : Memory) (d : Bd) (old : MvTable) :
    let w := presenceWalk fb (mvProb c fb) ((mvList c.mvUpdateProbs).zip (mvList old)) d
    mvList (mvProbs c fb old d).1 = w.1 ∧ (mvProbs c fb old d).2 = w.2 := by
  intro w
  have hw : w = _ := (eachL_updateAt fb (mvProb c fb) ((mvList c.mvUpdateProbs).zip (mvList old)) d).symm
  rw [hw]
  exact eachL_eachV _ c.mvUpdateProbs.toList old.toList d (by simp)

theorem modeProbs_perEntry {c : Params} (h : c.intraGating = .perEntry) (fb : Memory) {n : Nat} (old : Vector Prob n)
    (d : Bd) :
    let w := presenceWalk fb (readProb fb) (old.toList.map fun o => (c.intraUpdateProb, o)) d
    (modeProbs c fb old d).1.toList = w.1 ∧ (modeProbs c fb old d).2 = w.2 := by
  simp only [modeProbs, h, litField_eq_readProb]
  exact each_updateAt fb c.intraUpdateProb (readProb fb) id old d

theorem modeProbs_perGroup {c : Params} (h : c.intraGating = .perGroup) (fb : Memory) {n : Nat} (old : Vector Prob n)
    (d : Bd) :
    modeProbs c fb old d =
      if (decodeBool fb 128 d).1 then each (fun _ => litField fb 8 8) old (decodeBool fb 128 d).2
      else (old, (decodeBool fb 128 d).2) := by
  simp only [modeProbs, h, whenFlag, updateAt_apply, Config.litProb]

theorem each_litField_apply (fb : Memory) {n : Nat} (old : Vector Prob n) (d : Bd) :
    (each (fun _ => litField fb 8 8) old d).1.toList = (probWalk fb n d).1 ∧
      (each (fun _ => litField fb 8 8) old d).2 = (probWalk fb n d).2 := by
  have h := eachL_litField fb (old.toList.zip old.toList) d
  rw [List.length_zip, Nat.min_self, Vector.length_toList] at h
  rw [← h]
  exact ⟨rfl, rfl⟩

end Sys2Proof.Machine

/-! SUPPORT. An accepted frame shows what the elements of its header read, in the order of 41_frame_header R160; with the
statements about the headers and tables of such a frame. -/

namespace Sys2Proof.Machine

/-! ### What the passes after the front leave -/

theorem parseBackElements_fhr (s : State) :
    (parseBackElements s).fhr =
      { s.fhr with
        mbNoSkipCoeff := (parseBackElements s).fhr.mbNoSkipCoeff
        probSkipFalse := (parseBackElements s).fhr.probSkipFalse
        probIntra := (parseBackElements s).fhr.probIntra, probLast := (parseBackElements s).fhr.probLast
        probGf := (parseBackElements s).fhr.probGf } := by
  simp only [parseBackElements, parseMvProbs_fhr, parseIntraProbs_fhr]
  rw [parseInterProbs_fhr]
  simp only [parseSkip_fhr, parseTokenProbs_fhr]

@[simp] theorem parseBackElements_pcs (s : State) : (parseBackElements s).pcs = s.pcs := by simp [parseBackElements]

/-- The fields of `FHR` that rows 1 to 19 write and no later row does. -/
structure SameFront (g h : Fhr) : Prop where
  colorSpace : h.colorSpace = g.colorSpace
  clampingType : h.clampingType = g.clampingType
  updateMbSegmentationMap : h.updateMbSegmentationMap = g.updateMbSegmentationMap
  updateSegmentFeatureData : h.updateSegmentFeatureData = g.updateSegmentFeatureData
  lfDeltaUpdate : h.lfDeltaUpdate = g.lfDeltaUpdate
  numOfDctPartitions : h.numOfDctPartitions = g.numOfDctPartitions
  quant : h.quant = g.quant

theorem parseBackElements_sameFront {s d : State} (h : parseRefresh s = .ok d) :
    SameFront s.fhr (parseBackElements d).fhr := by
  rw [parseBackElements_fhr]
  generalize (parseBackElements d).fhr = b
  rw [parseRefresh_fhr h]
  constructor <;> rfl

/-- The partition count is a power of 2 that fits its field (41_frame_header R167). -/
theorem partCount_toNat (c : Params) (fb : Memory) (d : Bd) :
    (BitVec.ofNat 4 (1 <<< (lit fb c.partCntBits d).1)).toNat = 2 ^ (lit fb c.partCntBits d).1 := by
  have hlt : (lit fb c.partCntBits d).1 < 4 :=
    (lit_lt fb _ d).trans_le (Nat.pow_le_pow_right (by decide) (Nat.le_of_lt_succ c.partCntBits.isLt))
  rw [BitVec.toNat_ofNat, Nat.shiftLeft_eq, Nat.one_mul]
  exact Nat.mod_eq_of_lt (Nat.pow_lt_pow_right (by decide) hlt)

/-! ### The table order -/

/-- Of an `Ok` frame `FHR` and PCS hold the same segmentation and loop filter, and W is shown. -/
theorem exec_fhParse_groups {s t : State} (he : exec .fhParse s = .next t) (ht : t.result = .ok) :
    t.fhr.seg = t.pcs.seg ∧ t.fhr.lf = t.pcs.lf := by
  obtain ⟨-, -, v, entries, -, -, rfl⟩ := exec_fhParse_accepted he ht
  rw [State.finish_fhr, State.finish_pcs]
  exact ⟨rfl, rfl⟩

/-- Rows 1 to 19 of an `Ok` frame. -/
theorem exec_fhParse_front {s t : State} (he : exec .fhParse s = .next t) (ht : t.result = .ok) :
    (s.isKeyframe → s.cfg.gkRows = true →
      t.fhr.colorSpace = s.readSpace.1 ∧ t.fhr.clampingType = s.readClamping.1) ∧
    t.fhr.seg = s.readSegmentation.1.1 ∧ t.fhr.updateMbSegmentationMap = s.readSegmentation.1.2.1 ∧
    t.fhr.updateSegmentFeatureData = s.readSegmentation.1.2.2 ∧
    t.fhr.lf = s.readLoopFilter.1.1 ∧ t.fhr.lfDeltaUpdate = s.readLoopFilter.1.2 ∧
    t.fhr.numOfDctPartitions.toNat = 2 ^ s.readPartCount.1 ∧ t.fhr.quant = s.readQuant.1 := by
  obtain ⟨u, d, hopen, hd, -, -, hfhr, -⟩ := exec_fhParse_opened he ht
  obtain ⟨hcolor, hseg, hmap, hdata, hlf, hdelta, hcount, hquant⟩ := hopen.front_values
  have hf := parseBackElements_sameFront hd
  have hpcs : (parseBackElements d).pcs = (parseFrontElements u).pcs :=
    (parseBackElements_pcs d).trans (parseRefresh_rest hd).1
  rw [hfhr]
  dsimp only
  refine ⟨fun hk hg => ?_, ?_, hf.updateMbSegmentationMap.trans hmap, hf.updateSegmentFeatureData.trans hdata, ?_,
    hf.lfDeltaUpdate.trans hdelta, ?_, hf.quant.trans hquant⟩
  · obtain ⟨hspace, hclamp⟩ := hcolor hk hg
    exact ⟨hf.colorSpace.trans hspace, hf.clampingType.trans hclamp⟩
  · rw [hpcs, hseg]
  · rw [hpcs, hlf]
  · rw [hf.numOfDctPartitions, hcount]
    exact partCount_toNat s.cfg s.fb _

/-- Settles O59: rows 1 to 19 of an `Ok` frame, and the quantiser header as a walk. -/
theorem frontElementsInTableOrder : Obligations.FrontElementsInTableOrder :=
  ⟨fun _ _ => exec_fhParse_front, quantHeader_apply⟩

/-- Settles O60: rows 20 to 37 of an `Ok` frame, and the position they leave. -/
theorem backElementsInTableOrder : Obligations.BackElementsInTableOrder := by
  intro s t he ht
  obtain ⟨u, d, hopen, hd, -, -, hfhr, hbyte, hbit⟩ := exec_fhParse_opened he ht
  obtain ⟨-, -, -, -, -, hgold, halt, htoGold, htoAlt, hbiasGold, hbiasAlt, hentropy, hlast⟩ := hopen.refresh hd
  obtain ⟨hbd, hcoeff, hskip, hprobSkip, hinter, hymode, huvmode, hmv⟩ := hopen.back hd
  have hrefresh : (parseBackElements d).fhr.refresh = d.fhr.refresh := by
    rw [parseBackElements_fhr]
  have hrefreshEntropy : (parseBackElements d).fhr.refreshEntropyProbs = d.fhr.refreshEntropyProbs := by
    rw [parseBackElements_fhr]
  have hrefreshLast : (parseBackElements d).fhr.refreshLast = d.fhr.refreshLast := by
    rw [parseBackElements_fhr]
  rw [hfhr, hbyte, hbit, ← hbd]
  simp only [hrefresh, hrefreshEntropy, hrefreshLast]
  exact ⟨hgold, halt, htoGold, htoAlt, hbiasGold, hbiasAlt, hentropy, hlast, hcoeff, hskip, hprobSkip, hinter, hymode,
    huvmode, hmv, reportPos_posByte_toNat, reportPos_posBit_toNat _⟩

/-! ### The tables of an accepted frame -/

/-- Settles O45: a keyframe reads none of these tables; what each table codes. -/
theorem modeAndMotionVectorTables : Obligations.ModeAndMotionVectorTables := by
  refine ⟨fun s t hk he ht => ?_, fun c fb d => ⟨fun h => ?_, fun h => mvProb_lit7Shift h fb d⟩,
    fun c fb d n old h => modeProbs_perEntry h fb old d, fun c fb d n old h => ?_,
    fun c fb d old => ⟨(mvProbs_apply c fb d old).1, (mvProbs_apply c fb d old).2, mvList_length old⟩⟩
  · obtain ⟨-, -, -, -, -, -, -, -, -, -, -, -, hy, huv, hmv, -⟩ := backElementsInTableOrder s t he ht
    have hn : ¬ ¬ s.isKeyframe := not_not_intro hk
    rw [hy, huv, hmv, State.readYmode, State.readUvmode, State.readMv, readIf_neg hn, readIf_neg hn, readIf_neg hn,
      State.pcsIn, if_pos hk]
    exact ⟨rfl, rfl, rfl⟩
  · rw [mvProb_lit8 h]
    exact ⟨litField_toNat fb (Nat.le_refl 8) d, by rw [litField_apply]⟩
  · rw [modeProbs_perGroup h]
    refine ⟨fun hf => if_neg (by rw [hf]; decide), fun ht => ?_⟩
    rw [if_pos ht]
    exact each_litField_apply fb old _

/-- Settles O46: the commit takes W over or leaves the tables the elements started from. -/
theorem entropyCommitFollowsRefresh : Obligations.EntropyCommitFollowsRefresh := by
  intro s t he ht
  obtain ⟨-, -, v, entries, hv, -, rfl⟩ := exec_fhParse_accepted he ht
  have hbase : v.pcs.entropy = s.pcsIn.entropy := by
    rw [(parseElements_rest hv).2.1, (prefixState_opened s).pcs]
  rw [State.finish_fhr, State.finish_pcs]
  refine ⟨fun h => if_pos h, fun h hk => ?_, fun h hk => ?_⟩
  · exact (if_neg (by simp_all)).trans (hbase.trans (congrArg Pcs.entropy (if_pos hk)))
  · exact (if_neg (by simp_all)).trans (hbase.trans (congrArg Pcs.entropy (if_neg hk)))

/-! ### Segmentation -/

section segmentation

variable (c : Params) (fb : Memory) (g : Seg) (d : Bd)

theorem whenSet_segFeatureData (u : Bool) :
    (whenSet u (segFeatureData c fb) g d).1 =
      { g with
        featureMode := (whenSet u (segFeatureData c fb) g d).1.featureMode
        quant := (whenSet u (segFeatureData c fb) g d).1.quant, lf := (whenSet u (segFeatureData c fb) g d).1.lf } := by
  cases u with
  | false => rfl
  | true => rw [whenSet_true]; exact segFeatureData_frame c fb g d

theorem whenSet_segTreeProbs (u : Bool) :
    (whenSet u (segTreeProbs c fb) g d).1 = { g with prob := (whenSet u (segTreeProbs c fb) g d).1.prob } := by
  cases u with
  | false => rfl
  | true => rw [whenSet_true]; exact segTreeProbs_frame c fb g d

/-- A group whose update flag is 0 stays, and disabled segmentation codes no flag. -/
theorem segHeader_keeps : (segHeader c fb g).Gives fun r =>
    (r.2.2 = false → r.1.featureMode = g.featureMode ∧ r.1.quant = g.quant ∧ r.1.lf = g.lf) ∧
      (r.2.1 = false → r.1.prob = g.prob) ∧ (r.1.enabled = false → r.2.2 = false ∧ r.2.1 = false) := by
  refine .bind_any fun enabled => ?_
  cases enabled with
  | false => exact .pure ⟨fun _ => ⟨rfl, rfl, rfl⟩, fun _ => rfl, fun _ => ⟨rfl, rfl⟩⟩
  | true =>
    refine .bind_any fun map => .bind_any fun data => fun d => ?_
    simp only [Rd.bind_apply, Rd.pure_apply]
    rw [whenSet_segTreeProbs, whenSet_segFeatureData]
    refine ⟨fun h => ?_, fun h => ?_, nofun⟩
    · rw [h, whenSet_false]
      exact ⟨rfl, rfl, rfl⟩
    · rw [h, whenSet_false, Rd.pure_apply]

end segmentation

/-- Settles O47: the header read out, and what an interframe's leaves of PCS. -/
theorem segmentationPersists : Obligations.SegmentationPersists := by
  refine ⟨fun s t he ht hk => ?_, fun c fb g d => ?_⟩
  · obtain ⟨-, hseg, hmap, hdata, -⟩ := exec_fhParse_front he ht
    have hgroups := (exec_fhParse_groups he ht).1
    have hpcs : s.pcsIn = s.pcs := if_neg hk
    rw [hmap, hdata, ← hgroups, hseg, State.readSegmentation, hpcs]
    exact ⟨rfl, segHeader_keeps s.cfg s.fb s.pcs.seg _⟩
  · intro keep enabled map data mode quant lf afterData prob r
    cases he : enabled.1 with
    | false =>
      have hr : r = _ := segHeader_disabled c fb g d he
      rw [hr]
      exact ⟨rfl, fun _ => ⟨rfl, rfl⟩, nofun⟩
    | true =>
      let f := whenSet data.1 (segFeatureData c fb) { g with enabled := true } data.2
      let p := whenSet map.1 (segTreeProbs c fb) f.1 f.2
      have hr : r = ((p.1, map.1, data.1), p.2) := segHeader_enabled c fb g d he
      have hf : f.1 = _ := whenSet_segFeatureData c fb { g with enabled := true } data.2 data.1
      have hp : p.1 = _ := whenSet_segTreeProbs c fb f.1 f.2 map.1
      have hdata : data.1 = true →
          f.1.featureMode = mode.1 ∧ f.1.quant.toList = quant.1 ∧ f.1.lf.toList = lf.1 ∧ f.2 = lf.2 := fun h => by
        rw [show f = segFeatureData c fb { g with enabled := true } data.2 by simp only [f, h, whenSet_true]]
        exact segFeatureData_apply c fb { g with enabled := true } data.2
      have hkeep : data.1 = false → f = ({ g with enabled := true }, data.2) := fun h => by
        simp only [f, h, whenSet_false, Rd.pure_apply]
      have hafter : f.2 = afterData := by
        by_cases h : data.1 = true
        · exact (hdata h).2.2.2.trans (if_pos h).symm
        · exact (congrArg Prod.snd (hkeep (Bool.eq_false_iff.2 h))).trans (if_neg h).symm
      have hwalk : presenceWalk fb (readProb fb) (absentEntries c 255 f.1.prob) f.2 = prob := by
        rw [hafter, hf]; rfl
      rw [hr]
      refine ⟨by rw [hp, hf], nofun, fun _ => ⟨rfl, fun h => ?_, fun h => ?_, fun h => ?_, fun h => ?_⟩⟩
      · obtain ⟨h1, h2, h3, -⟩ := hdata h
        rw [hp]
        exact ⟨h1, h2, h3⟩
      · rw [hp, hkeep h]
        exact ⟨rfl, rfl, rfl⟩
      · rw [show p = segTreeProbs c fb f.1 f.2 by simp only [p, h, whenSet_true], ← hwalk]
        dsimp only
        exact segTreeProbs_apply c fb f.1 f.2
      · rw [show p = (f.1, f.2) by simp only [p, h, whenSet_false, Rd.pure_apply], hf]
        exact ⟨rfl, hafter⟩

/-! ### The loop filter -/

section loopFilter

variable (c : Params) (fb : Memory) (f : LoopFilter) (d : Bd)

theorem whenSet_lfDeltas (u : Bool) :
    (whenSet u (lfDeltas c fb) f d).1 =
      { f with
        refDelta := (whenSet u (lfDeltas c fb) f d).1.refDelta
        modeDelta := (whenSet u (lfDeltas c fb) f d).1.modeDelta } := by
  cases u with
  | false => rfl
  | true => rw [whenSet_true]; exact lfDeltas_frame c fb f d

/-- Deltas that are not updated stay, and without `adj_enable` none is. -/
theorem lfHeader_keeps : (lfHeader c fb f).Gives fun r =>
    (r.2 = false → r.1.refDelta = f.refDelta ∧ r.1.modeDelta = f.modeDelta) ∧ (r.1.adjEnable = false → r.2 = false) := by
  refine .bind_any fun type => .bind_any fun level => .bind_any fun sharpness => .bind_any fun adj => ?_
  cases adj with
  | false => exact .pure ⟨fun _ => ⟨rfl, rfl⟩, fun _ => rfl⟩
  | true =>
    refine .bind_any fun update => fun d => ?_
    simp only [Rd.bind_apply, Rd.pure_apply]
    rw [whenSet_lfDeltas]
    refine ⟨fun h => ?_, nofun⟩
    rw [h, whenSet_false]
    exact ⟨rfl, rfl⟩

end loopFilter

/-- Settles O48: the header read out, and what an interframe's leaves of PCS. -/
theorem loopFilterDeltasPersist : Obligations.LoopFilterDeltasPersist := by
  refine ⟨fun s t he ht hk => ?_, fun c fb f d => ?_⟩
  · obtain ⟨-, -, -, -, hlf, hdelta, -⟩ := exec_fhParse_front he ht
    have hgroups := (exec_fhParse_groups he ht).2
    have hpcs : s.pcsIn = s.pcs := if_neg hk
    rw [hdelta, ← hgroups, hlf, State.readLoopFilter, hpcs]
    exact ⟨rfl, lfHeader_keeps s.cfg s.fb s.pcs.lf _⟩
  · intro type level sharpness adj update ref mode r
    have hsharp : litField fb 3 3 level.2 = (BitVec.ofNat 3 sharpness.1, sharpness.2) := litField_apply fb 3 3 level.2
    have hnum : (BitVec.ofNat 3 sharpness.1).toNat = sharpness.1 := by
      have h := litField_toNat fb (Nat.le_refl 3) level.2
      rwa [hsharp] at h
    let f' : LoopFilter :=
      { f with filterType := type.1, level := level.1, sharpness := BitVec.ofNat 3 sharpness.1, adjEnable := adj.1 }
    let deltas := whenSet update.1 (lfDeltas c fb) f' update.2
    have hr : r = if adj.1 then ((deltas.1, update.1), deltas.2) else ((f', false), adj.2) := by
      show lfHeader c fb f d = _
      rw [lfHeader_apply, hsharp]
    have hdeltas : deltas.1 = _ := whenSet_lfDeltas c fb f' update.2 update.1
    cases hadj : adj.1 with
    | false =>
      have hr' : r = ((f', false), adj.2) := hr.trans (if_neg (by rw [hadj]; decide))
      rw [hr']
      exact ⟨rfl, rfl, hnum, hadj, rfl, nofun, fun _ => ⟨rfl, rfl, rfl⟩⟩
    | true =>
      have hr' : r = ((deltas.1, update.1), deltas.2) := hr.trans (if_pos hadj)
      rw [hr']
      refine ⟨by rw [hdeltas], by rw [hdeltas], by rw [hdeltas]; exact hnum, by rw [hdeltas]; exact hadj, rfl, fun h => ?_,
        fun h => ?_⟩
      · rw [show deltas = lfDeltas c fb f' update.2 by simp only [deltas, show update.1 = true from h, whenSet_true]]
        dsimp only
        exact lfDeltas_apply c fb f' update.2
      · rw [show deltas = (f', update.2) by
          simp only [deltas, show update.1 = false from h, whenSet_false, Rd.pure_apply]]
        exact ⟨rfl, rfl, rfl⟩

/-! ### Bounds -/

/-- `S4` codes quantiser deltas of at most 7 magnitude bits (41_frame_header R168). -/
theorem quantHeader_natAbs_le (c : Params) (fb : Memory) :
    (quantHeader c fb).Gives fun q => ∀ i : Fin 5, (q.delta[i]).natAbs ≤ 127 := by
  have hcoded : (signedLit fb c.qdeltaBits).Gives fun x => x.natAbs ≤ 127 := fun d => by
    have hle := signedLit_natAbs_le fb c.qdeltaBits d
    have hpow : 2 ^ c.qdeltaBits.val ≤ 2 ^ 7 := Nat.pow_le_pow_right (by decide) (Nat.le_of_lt_succ c.qdeltaBits.isLt)
    omega
  have habsent : ∀ i : Fin 5, ((#v[0, 0, 0, 0, 0] : Vector Int 5)[i]).natAbs ≤ 127 := by decide
  refine .bind_any fun _ => .bind (Q := fun v : Vector Int 5 => ∀ i : Fin 5, (v[i]).natAbs ≤ 127) ?_ fun _ h => .pure h
  exact fun d => each_gives (Q := fun x : Int => x.natAbs ≤ 127) (fun i => .whenFlag hcoded (habsent i)) d

/-- Settles O49: the widths of the two literals. -/
theorem codedMagnitudesBounded : Obligations.CodedMagnitudesBounded := by
  intro s t he ht
  obtain ⟨-, -, -, -, hlf, -, -, hquant⟩ := exec_fhParse_front he ht
  rw [hlf, hquant, State.readLoopFilter, State.readQuant]
  obtain ⟨-, hlevel, -⟩ := loopFilterDeltasPersist.2 s.cfg s.fb s.pcsIn.lf s.readSegmentation.2
  rw [hlevel]
  exact ⟨quantHeader_natAbs_le s.cfg s.fb s.readPartCount.2, lit_lt s.fb _ _⟩

end Sys2Proof.Machine

/-! SUPPORT. Where the coded elements raise, and the partition layout; with the statements about them (41_frame_header R169 to
R171, R180 to R185). -/

namespace Sys2Proof.Machine

/-! ### The copy modes -/

theorem Pass.ok_raises_not (s : State) : ¬ ∃ c t, (.ok s : Pass) = .error (c, t) := by
  simp only [reduceCtorEq, exists_false, not_false_eq_true]

theorem parseFrontElements_keyFrame (s : State) : (parseFrontElements s).fhr.keyFrame = s.fhr.keyFrame := by
  simp only [parseFrontElements, parseQuant_fhr, parsePartCount_fhr, parseLoopFilter_fhr, parseSegmentation_fhr]
  rw [parseColor_fhr]

/-- The elements raise exactly where `S5` does. -/
theorem parseElements_raises_iff (s : State) :
    (∃ c t, parseElements s = .error (c, t)) ↔ ∃ c t, parseRefresh (parseFrontElements s) = .error (c, t) := by
  rcases parseElements_cases s with ⟨e, h, h'⟩ | ⟨t, h, h'⟩ <;> rw [h, h']
  exact iff_of_false (Pass.ok_raises_not _) (Pass.ok_raises_not _)

/-- The cause the pass raises is that of its read. -/
theorem parseInterRefresh_error_iff (s : State) (c : Cause) :
    (∃ t, parseInterRefresh s = .error (c, t)) ↔
      (interRefresh s.cfg s.fb s.fhr.refreshLast s.bd).1 = .error c := by
  unfold parseInterRefresh
  generalize interRefresh s.cfg s.fb s.fhr.refreshLast s.bd = r
  obtain ⟨e | v, d⟩ := r
  · simp only [Except.error.injEq, Prod.mk.injEq, exists_and_left, exists_eq', and_true]
  · simp only [reduceCtorEq, exists_false]

/-- A copy mode of 3 has been coded. -/
theorem copyMode_eq_three_iff (fb : Memory) (b : Bool) (d : Bd) :
    BitVec.ofNat 2 (readIf (b = false) 0 (lit fb 2) d).1 = 3 ↔
      b = false ∧ (readIf (b = false) 0 (lit fb 2) d).1 = 3 := by
  have hlt : (readIf (b = false) 0 (lit fb 2) d).1 < 4 := readIf_lit_lt fb 2 d
  have hnum : BitVec.ofNat 2 (readIf (b = false) 0 (lit fb 2) d).1 = 3 ↔
      (readIf (b = false) 0 (lit fb 2) d).1 = 3 := by
    rw [← BitVec.toNat_inj, BitVec.toNat_ofNat, Nat.mod_eq_of_lt hlt]
    rfl
  rw [hnum]
  refine ⟨fun h => ⟨?_, h⟩, fun h => h.2⟩
  by_contra hb
  rw [readIf_neg hb] at h
  exact absurd (show (0 : Nat) = 3 from h) (by decide)

/-- A buffer that is not refreshed is an interframe's. -/
theorem not_isKeyframe_of_not_refreshed {s : State} (h : s.readGolden.1 = false ∨ s.readAlternate.1 = false) :
    ¬ s.isKeyframe := by
  intro hk
  rw [State.readGolden, State.readAlternate, readIf_neg (not_not_intro hk), readIf_neg (not_not_intro hk)] at h
  exact h.elim Bool.noConfusion Bool.noConfusion

/-- Past `S1` the elements raise exactly where a copy mode that is coded is 3 and `COPYMODE3_BROKEN` is set. -/
theorem Opened.elements_raise_iff {s u : State} (h : Opened s u) :
    (∃ c t, parseElements u = .error (c, t)) ↔
      s.cfg.copymode3Broken = true ∧ ¬ s.isKeyframe ∧
        ((s.readGolden.1 = false ∧ s.readCopyGolden.1 = 3) ∨ (s.readAlternate.1 = false ∧ s.readCopyAlternate.1 = 3)) := by
  obtain ⟨hfb, hcfg, hkey, -, hbd⟩ := h.front
  rw [parseElements_raises_iff]
  by_cases hk : s.isKeyframe
  · rcases parseRefresh_cases (parseFrontElements u) with ⟨-, e⟩ | ⟨hf, -⟩
    · rw [e]
      exact iff_of_false (Pass.ok_raises_not _) fun h => h.2.1 hk
    · exact absurd (hkey.symm.trans hf) (by rw [h.key.2 hk]; decide)
  · rcases parseRefresh_cases (parseFrontElements u) with ⟨hf, -⟩ | ⟨-, e⟩
    · exact absurd (h.key.1 (hkey.symm.trans hf)) hk
    · rw [e]
      simp only [parseInterRefresh_error_iff]
      refine interRefresh_raises.trans ?_
      rw [State.enter_cfg, State.enter_fb, State.enter_bd, hcfg, hfb, hbd, copyMode_eq_three_iff, copyMode_eq_three_iff]
      simp only [State.readCopyAlternate, State.readCopyGolden, State.readAlternate, State.readGolden, readIf_pos hk]
      simp only [hk, not_false_eq_true, true_and]

/-- The elements raise one cause, under `COPYMODE3_BROKEN`, of an interframe. -/
theorem parseElements_error {s t : State} {c : Cause} (h : parseElements s = .error (c, t)) :
    c = .badEnum ∧ s.cfg.copymode3Broken = true ∧ s.fhr.keyFrame = false := by
  have hr : parseRefresh (parseFrontElements s) = .error (c, t) := by
    rcases parseElements_cases s with ⟨e, h1, h2⟩ | ⟨_, -, h2⟩ <;> rw [h2] at h
    · rw [h1, h]
    · simp only [reduceCtorEq] at h
  rcases parseRefresh_cases (parseFrontElements s) with ⟨-, e⟩ | ⟨hkey, e⟩ <;> rw [e] at hr
  · simp only [reduceCtorEq] at hr
  · obtain ⟨hc, hbroken⟩ := interRefresh_error ((parseInterRefresh_error_iff _ c).1 ⟨t, hr⟩)
    rw [State.enter_cfg, (parseFrontElements_kept s).cfg] at hbroken
    exact ⟨hc, hbroken, (parseFrontElements_keyFrame s).symm.trans hkey⟩

/-- Settles O35: the one cause, its place, and the end of such a frame. -/
theorem onlyCopyModeBreaksElements : Obligations.OnlyCopyModeBreaksElements := by
  refine ⟨fun s t c => parseElements_error, fun s u hu => ?_, fun s hg hp hc hmode => ?_⟩
  · obtain ⟨-, rfl⟩ := parsePrefix_ok_iff.1 hu
    exact (prefixState_opened s).elements_raise_iff
  · have hk : ¬ s.isKeyframe := not_isKeyframe_of_not_refreshed (hmode.imp And.left And.left)
    obtain ⟨c, t, he⟩ := (prefixState_opened s).elements_raise_iff.2 ⟨hc, hk, hmode⟩
    refine exec_fhParse_of_error hg (c := c) (t := t) ?_
    rw [parseFrame_of_prefix (parsePrefix_ok_iff.2 ⟨hp, rfl⟩), he]
    rfl

theorem readCopyGolden_of_refreshed {s : State} (h : s.readGolden.1 = true) : s.readCopyGolden.1 = 0 := by
  rw [State.readCopyGolden, readIf_neg (by rw [h]; decide)]

theorem readCopyAlternate_of_refreshed {s : State} (h : s.readAlternate.1 = true) : s.readCopyAlternate.1 = 0 := by
  rw [State.readCopyAlternate, readIf_neg (by rw [h]; decide)]

/-- Of an accepted frame no element raised. -/
theorem exec_fhParse_no_copy_three {s t : State} (he : exec .fhParse s = .next t) (ht : t.result = .ok)
    (hc : s.cfg.copymode3Broken = true) (hk : ¬ s.isKeyframe) :
    s.readCopyGolden.1 ≠ 3 ∧ s.readCopyAlternate.1 ≠ 3 := by
  obtain ⟨-, -, v, entries, hv, -, -⟩ := exec_fhParse_accepted he ht
  have hno := mt (prefixState_opened s).elements_raise_iff.2 (by rw [hv]; exact Pass.ok_raises_not v)
  refine ⟨fun h3 => hno ⟨hc, hk, .inl ⟨?_, h3⟩⟩, fun h3 => hno ⟨hc, hk, .inr ⟨?_, h3⟩⟩⟩
  · refine Bool.eq_false_iff.2 fun h => ?_
    rw [readCopyGolden_of_refreshed h] at h3
    cases h3
  · refine Bool.eq_false_iff.2 fun h => ?_
    rw [readCopyAlternate_of_refreshed h] at h3
    cases h3

/-- Settles O50: the forced values, and the copy modes as coded. -/
theorem refreshFieldsOfGoodFrame : Obligations.RefreshFieldsOfGoodFrame := by
  intro s t he ht
  obtain ⟨hgold, halt, htoGold, htoAlt, hbiasGold, hbiasAlt, -, hlast, -, hskip, hprobSkip, -⟩ :=
    backElementsInTableOrder s t he ht
  have hgoldZero : t.fhr.refresh.golden = true → t.fhr.refresh.copyToGolden = 0 := fun h =>
    BitVec.eq_of_toNat_eq (htoGold.trans (readCopyGolden_of_refreshed (hgold.symm.trans h)))
  have haltZero : t.fhr.refresh.alternate = true → t.fhr.refresh.copyToAlternate = 0 := fun h =>
    BitVec.eq_of_toNat_eq (htoAlt.trans (readCopyAlternate_of_refreshed (halt.symm.trans h)))
  refine ⟨fun hk => ?_, fun hk => ⟨hgoldZero, haltZero, fun hc => ?_⟩, fun h => ?_⟩
  · have hn : ¬ ¬ s.isKeyframe := not_not_intro hk
    have hg : t.fhr.refresh.golden = true := by rw [hgold, State.readGolden, readIf_neg hn]
    have ha : t.fhr.refresh.alternate = true := by rw [halt, State.readAlternate, readIf_neg hn]
    refine ⟨hg, ha, hgoldZero hg, haltZero ha, ?_, ?_, ?_⟩
    · rw [hbiasGold, State.readBiasGolden, readIf_neg hn]
    · rw [hbiasAlt, State.readBiasAlternate, readIf_neg hn]
    · rw [hlast (.inr hk), State.readRefreshLast, readIf_neg fun h => hn h.1]
  · obtain ⟨hg, ha⟩ := exec_fhParse_no_copy_three he ht hc hk
    exact ⟨fun h => hg (htoGold.symm.trans (congrArg BitVec.toNat h)),
      fun h => ha (htoAlt.symm.trans (congrArg BitVec.toNat h))⟩
  · rw [hprobSkip, State.readProbSkip, readIf_neg (by rw [← hskip, h]; decide)]

/-! ### The partition layout -/

theorem read24_toNat (fb : Memory) (a : Nat) :
    (fb.read24 a).toNat = (fb.read a).toNat + 256 * (fb.read (a + 1)).toNat + 65536 * (fb.read (a + 2)).toNat := by
  simp only [Memory.read24, toNat_append_add]; omega

/-- The table's fields as numbers (30_encoding R92). -/
theorem codedSizes_eq (fb : Memory) (base t n : Nat) :
    codedSizes fb base t n = (List.range n).map (codedSize fb (base + t)) := by
  induction n generalizing t with
  | zero => rfl
  | succ n ih =>
    rw [codedSizes, ih, List.range_succ_eq_map, List.map_cons, List.map_map, read24_toNat]
    congr 1
    refine List.map_congr_left fun i _ => ?_
    simp only [Function.comp, codedSize]
    rw [show base + t + 3 * i.succ = base + (t + 3) + 3 * i by omega]

theorem sizesBefore_eq (fb : Memory) (a n : Nat) : sizesBefore fb a n = ((List.range n).map (codedSize fb a)).sum := by
  induction n with
  | zero => rfl
  | succ n ih => rw [sizesBefore, ih, List.sum_range_succ]

theorem layout_cons_ok_iff (zb : Bool) (len d0 rel x : Nat) (xs : List Nat) :
    (∃ l, layout zb len d0 rel (x :: xs) = .ok l) ↔
      (zb = true → x ≠ 0) ∧ d0 + rel + x ≤ len ∧ ∃ l, layout zb len d0 (rel + x) xs = .ok l := by
  have hzero : (zb && x == 0) = true ↔ ¬ (zb = true → x ≠ 0) := by
    rw [Bool.and_eq_true, beq_iff_eq, Classical.not_imp, not_not]
  by_cases h0 : (zb && x == 0) = true
  · rw [layout, if_pos h0]
    exact iff_of_false (by simp) fun h => hzero.1 h0 h.1
  · rw [layout, if_neg h0]
    by_cases hlen : len < d0 + rel + x
    · rw [if_pos hlen]
      exact iff_of_false (by simp) fun h => Nat.not_le.2 hlen h.2.1
    · rw [if_neg hlen]
      have hx : zb = true → x ≠ 0 := not_not.1 (mt hzero.2 h0)
      cases layout zb len d0 (rel + x) xs with
      | error c => exact iff_of_false (by simp) (by simp)
      | ok l => exact iff_of_true ⟨_, rfl⟩ ⟨hx, Nat.not_lt.1 hlen, l, rfl⟩

/-- When the coded partitions are accepted. -/
theorem layout_ok_iff (zb : Bool) (len d0 rel : Nat) (sizes : List Nat) :
    (∃ l, layout zb len d0 rel sizes = .ok l) ↔
      ∀ i (h : i < sizes.length), (zb = true → sizes[i] ≠ 0) ∧ d0 + (rel + (sizes.take (i + 1)).sum) ≤ len := by
  induction sizes generalizing rel with
  | nil => exact ⟨fun _ i h => absurd h (Nat.not_lt_zero i), fun _ => ⟨_, rfl⟩⟩
  | cons x xs ih =>
    rw [layout_cons_ok_iff, ih]
    constructor
    · rintro ⟨h0, hlen, hrest⟩ (_ | i) hi
      · simpa using ⟨h0, by omega⟩
      · have := hrest i (by simpa using hi)
        simpa [Nat.add_assoc] using this
    · intro h
      have h0 := h 0 (by simp)
      refine ⟨by simpa using h0.1, by simpa [Nat.add_assoc] using h0.2, fun i hi => ?_⟩
      have := h (i + 1) (by simpa using hi)
      simpa [Nat.add_assoc] using this

/-- The frame of `len` bytes holds the table at `t` and every coded partition, non-empty under `zb`. -/
def LayoutFits (zb : Bool) (fb : Memory) (base len t n : Nat) : Prop :=
  t + 3 * (n - 1) ≤ len ∧
    ∀ i, i < n - 1 → (zb = true → codedSize fb (base + t) i ≠ 0) ∧
      t + 3 * (n - 1) + sizesBefore fb (base + t) (i + 1) ≤ len

theorem extractLayout_ok_iff (zb : Bool) (fb : Memory) (base len t n : Nat) :
    (∃ l, extractLayout zb fb base len t n = .ok l) ↔ LayoutFits zb fb base len t n := by
  unfold extractLayout LayoutFits
  split
  · rename_i h
    simp only [reduceCtorEq, exists_false, Nat.not_le.2 h, false_and]
  · rename_i h
    rw [layout_ok_iff, codedSizes_eq]
    simp only [Nat.not_lt.1 h, true_and, List.length_map, List.length_range, List.getElem_map, List.getElem_range,
      sizesBefore_eq, ← List.map_take, List.take_range, Nat.zero_add]
    refine forall_congr' fun i => forall_congr' fun hi => ?_
    rw [Nat.min_eq_left (by omega)]

/-- The first partition ends where the tag says, and the frame has as many partitions as it codes. -/
theorem elements_layout {s v : State} (hv : parseElements (prefixState s.beginParse) = .ok v) :
    v.fhr.firstPartEnd = s.declaredEnd ∧ v.fhr.numOfDctPartitions.toNat = 2 ^ s.readPartCount.1 ∧
      v.fhr.numOfDctPartitions.toNat ∈ [1, 2, 4, 8] := by
  obtain ⟨-, -, -, hsize, hoff, -⟩ := (prefixState_followsTag s).of_sameTag (parseElements_sameTag hv)
  refine ⟨by rw [Fhr.firstPartEnd, hsize, hoff], ?_⟩
  have hopen := prefixState_opened s
  obtain ⟨-, -, -, -, -, -, hcount, -⟩ := hopen.front_values
  rcases parseElements_cases (prefixState s.beginParse) with ⟨e, -, h⟩ | ⟨d, hd, h⟩ <;> rw [h] at hv
  · simp only [reduceCtorEq] at hv
  · rw [Except.ok.injEq] at hv
    subst hv
    rw [(parseBackElements_sameFront hd).numOfDctPartitions, hcount]
    refine ⟨partCount_toNat s.cfg s.fb _, ?_⟩
    exact List.mem_map_of_mem (f := BitVec.toNat) (partCount_mem s.cfg s.fb s.readLoopFilter.2)

theorem layoutOf_eq_extractLayout {s v : State} (hv : parseElements (prefixState s.beginParse) = .ok v) :
    s.layoutOf v = extractLayout s.cfg.zeroSizePartBroken s.fb s.argBase.toNat s.argLen.toNat s.declaredEnd
      v.fhr.numOfDctPartitions.toNat := by
  rw [State.layoutOf, (elements_layout hv).1]

/-- Settles O36: the layout of the table's own sizes, and the two ends past accepted elements. -/
theorem layoutAcceptedExactly : Obligations.LayoutAcceptedExactly := by
  refine ⟨extractLayout_ok_iff, fun s u v n d0 table hg hu hv hn hd0 htable => ?_⟩
  intro fits
  obtain ⟨hp, rfl⟩ := parsePrefix_ok_iff.1 hu
  have hfits : (∃ l, s.layoutOf v = .ok l) ↔ fits := by
    rw [layoutOf_eq_extractLayout hv, (elements_layout hv).2.1, ← hn, extractLayout_ok_iff, LayoutFits, ← hd0, ← htable]
  rw [← hfits]
  rcases hl : s.layoutOf v with c | entries
  · obtain ⟨t, he, hr, hvalid⟩ := exec_fhParse_of_layout_error hg hp hv hl
    exact ⟨t, he, by simp [hr], by simp [hr], by simp [hvalid]⟩
  · refine ⟨_, exec_fhParse_of_accepted hg hp hv hl, ?_⟩
    simp [State.finish]

/-! ### The partition table of an accepted frame -/

/-- The three numbers of an entry that ends inside FB. -/
theorem ptEntry_toNat {d0 rel size : Nat} (h : d0 + rel + size < 2 ^ 32) :
    (ptEntry d0 rel size).offsetAbs.toNat = d0 + rel ∧ (ptEntry d0 rel size).offsetRel.toNat = rel ∧
      (ptEntry d0 rel size).size.toNat = size := by
  simp only [ptEntry, BitVec.toNat_ofNat, addrWidth]
  exact ⟨Nat.mod_eq_of_lt (by omega), Nat.mod_eq_of_lt (by omega), Nat.mod_eq_of_lt (by omega)⟩

/-- Entry `i` of an accepted layout, by the sizes of the table. -/
theorem extractLayout_entry {zb : Bool} {fb : Memory} {base len t n : Nat} {l : List PtEntry}
    (h : extractLayout zb fb base len t n = .ok l) {i : Nat} (hi : i ≤ n - 1) :
    l.length = n - 1 + 1 ∧ l[i]? = some (ptEntry (t + 3 * (n - 1)) (sizesBefore fb (base + t) i)
      (if i < n - 1 then codedSize fb (base + t) i
        else len - (t + 3 * (n - 1) + sizesBefore fb (base + t) (n - 1)))) := by
  unfold extractLayout at h
  split at h
  · simp only [reduceCtorEq] at h
  · rw [codedSizes_eq] at h
    have hlen := layout_length h
    have hentry := layout_entry h i (by simpa using hi)
    simp only [List.length_map, List.length_range, ← List.map_take, List.take_range, Nat.min_eq_left hi, Nat.zero_add,
      ← sizesBefore_eq, Nat.add_zero] at hlen hentry
    refine ⟨hlen, hentry.trans ?_⟩
    split
    · rename_i h'
      simp [h']
    · rfl

/-- Entry `i` of the partition table of accepted elements: where it begins and how long it is. -/
theorem finish_entry_toNat {s v : State} {entries : List PtEntry} {n d0 table : Nat}
    (hv : parseElements (prefixState s.beginParse) = .ok v) (hl : s.layoutOf v = .ok entries)
    (hn : n = v.fhr.numOfDctPartitions.toNat) (hd0 : d0 = s.declaredEnd + 3 * (n - 1))
    (htable : table = s.argBase.toNat + s.declaredEnd) (i : Fin 8) (hi : i.val < n) :
    ∃ size, size = (if i.val < n - 1 then codedSize s.fb table i
        else s.argLen.toNat - (d0 + sizesBefore s.fb table (n - 1))) ∧
      d0 + sizesBefore s.fb table i + size ≤ s.argLen.toNat ∧
      ((v.finish entries).pt.entry[i]).offsetAbs.toNat = d0 + sizesBefore s.fb table i ∧
      ((v.finish entries).pt.entry[i]).offsetRel.toNat = sizesBefore s.fb table i ∧
      ((v.finish entries).pt.entry[i]).size.toNat = size := by
  rw [layoutOf_eq_extractLayout hv, ← hn] at hl
  obtain ⟨hd0len, hsizes⟩ := (extractLayout_ok_iff ..).1 ⟨_, hl⟩
  obtain ⟨hlength, hentry⟩ := extractLayout_entry hl (i := i) (by omega)
  rw [← hd0, ← htable] at hsizes hentry
  rw [← hd0] at hd0len
  have hfinish := State.finish_entry v entries i (by omega)
  rw [hentry, Option.some.injEq] at hfinish
  have hlen : s.argLen.toNat < 2 ^ 32 := s.argLen.isLt
  have hend : ∀ j, j ≤ n - 1 → d0 + sizesBefore s.fb table j ≤ s.argLen.toNat := fun j hj => by
    cases j with
    | zero => exact hd0len
    | succ j => exact (hsizes j (by omega)).2
  refine ⟨_, rfl, ?_⟩
  rw [hfinish]
  have hsize : d0 + sizesBefore s.fb table i + (if i.val < n - 1 then codedSize s.fb table i
      else s.argLen.toNat - (d0 + sizesBefore s.fb table (n - 1))) ≤ s.argLen.toNat := by
    split
    · rename_i h
      have := hend (i + 1) h
      rw [sizesBefore] at this
      omega
    · have := hend (n - 1) (Nat.le_refl _)
      rw [show i.val = n - 1 by omega]
      omega
  exact ⟨hsize, ptEntry_toNat (by omega)⟩

/-- Settles O43: the entries by the running sum of the coded sizes. -/
theorem partitionsTileFrame : Obligations.PartitionsTileFrame := by
  intro s t n d0 he ht hn hd0
  obtain ⟨-, -, v, entries, hv, hl, rfl⟩ := exec_fhParse_accepted he ht
  obtain ⟨-, -, hmem⟩ := elements_layout hv
  rw [State.finish_pt_count] at hn
  rw [← hn] at hmem
  have hn1 : 1 ≤ n := by
    simp only [List.mem_cons, List.not_mem_nil, or_false] at hmem
    omega
  have hentry := finish_entry_toNat hv hl hn hd0 rfl
  refine ⟨hmem, by rw [State.finish_fhr, State.finish_pt_count], ?_, fun i hi => ?_, fun i j hj hjn => ?_, fun i hi => ?_⟩
  · obtain ⟨-, -, -, -, hrel, -⟩ := hentry 0 hn1
    exact BitVec.eq_of_toNat_eq hrel
  · obtain ⟨size, -, hend, habs, hrel, hsize⟩ := hentry i hi
    rw [habs, hrel, hsize]
    exact ⟨rfl, hend⟩
  · obtain ⟨-, -, -, -, hrelj, -⟩ := hentry j hjn
    obtain ⟨size, hcoded, -, -, hrel, hsize⟩ := hentry i (by omega)
    rw [if_pos (by omega)] at hcoded
    rw [hrelj, hrel, hsize, hcoded, hj]
    refine ⟨rfl, rfl, fun hz => ?_⟩
    rw [layoutOf_eq_extractLayout hv, ← hn] at hl
    have hne := (((extractLayout_ok_iff ..).1 ⟨_, hl⟩).2 i (by omega)).1 hz
    rw [sizesBefore]
    omega
  · obtain ⟨size, hcoded, hend, habs, -, hsize⟩ := hentry i (by omega)
    rw [if_neg (by omega), show n - 1 = i.val by omega] at hcoded
    rw [habs, hsize]
    omega

end Sys2Proof.Machine

/-! SUPPORT. A decoder past its slice with a zero value reads every element as 0; with the statement about a frame whose first
partition is empty (40_bd_commands R121, 41_frame_header R156). -/

namespace Sys2Proof.Machine

variable {α β : Type} {fb : Memory}

/-! ### Reads of a drained decoder -/

/-- From a drained decoder the read gives `x` and leaves a drained decoder. -/
def Rd.DrainsTo (x : α) (m : Rd α) : Prop := ∀ d, d.Drained → (m d).1 = x ∧ (m d).2.Drained

theorem Rd.DrainsTo.pure (x : α) : Rd.DrainsTo x (pure x : Rd α) := fun _ h => ⟨rfl, h⟩

theorem Rd.DrainsTo.bind {x : α} {y : β} {m : Rd α} {f : α → Rd β} (hm : m.DrainsTo x) (hf : (f x).DrainsTo y) :
    (m >>= f).DrainsTo y := fun d h => by
  obtain ⟨hx, hd⟩ := hm d h
  rw [Rd.bind_apply, hx]
  exact hf _ hd

theorem decodeBool_drainsTo (p : Prob) : (decodeBool fb p).DrainsTo false := fun d h =>
  ⟨by rw [decodeBool_of_value_zero fb p h.1], decodeBool_drained fb p d h⟩

theorem lit_drainsTo (n : Nat) : (lit fb n).DrainsTo 0 := fun d h =>
  ⟨lit_fst_of_drained fb n h, Rd.Keeps.lit (decodeBool_drained fb) n d h⟩

theorem litField_drainsTo (w n : Nat) : (litField fb w n).DrainsTo 0 := (lit_drainsTo n).bind (.pure _)

theorem readProb_drainsTo : Rd.DrainsTo (0 : Prob) (readProb fb) := by
  rw [← litField_eq_readProb]
  exact litField_drainsTo 8 8

theorem Rd.DrainsTo.readIf {x : α} {rd : Rd α} (h : rd.DrainsTo x) (c : Prop) [Decidable c] (absent : α) :
    Rd.DrainsTo (if c then x else absent) (readIf c absent rd) := by
  by_cases hc : c
  · rw [if_pos hc]
    exact fun d hd => by rw [readIf_pos hc]; exact h d hd
  · rw [if_neg hc]
    exact fun d hd => by rw [readIf_neg hc]; exact ⟨rfl, hd⟩

/-- A presence bit is 0, so the entry keeps its value. -/
theorem updateAt_drainsTo (p : Prob) (rd : Rd α) (absent : α) : (updateAt fb p rd absent).DrainsTo absent :=
  (decodeBool_drainsTo p).bind (.pure absent)

theorem eachL_drainsTo {f : α → β → Rd β} (h : ∀ a b, (f a b).DrainsTo b) (l : List (α × β)) :
    (eachL f l).DrainsTo (l.map Prod.snd) := by
  induction l with
  | nil => exact .pure []
  | cons ab rest ih => exact (h ab.1 ab.2).bind (ih.bind (.pure _))

/-- A table whose entries each keep their value keeps all. -/
theorem eachV_drainsTo {n : Nat} {f : α → β → Rd β} (h : ∀ a b, (f a b).DrainsTo b) (ps : Vector α n)
    (old : Vector β n) : (eachV f ps old).DrainsTo old := fun d hd => by
  obtain ⟨hx, hd'⟩ := eachL_drainsTo h (ps.toList.zip old.toList) d hd
  rw [List.map_snd_zip (by simp)] at hx
  exact ⟨Vector.toList_inj.1 hx, hd'⟩

theorem each_drainsTo {n : Nat} {f : β → Rd β} (h : ∀ b, (f b).DrainsTo b) (old : Vector β n) :
    (each f old).DrainsTo old :=
  eachV_drainsTo (fun _ b => h b) old old

/-! ### The elements -/

variable (c : Params)

theorem segHeader_drainsTo (g : Seg) : (segHeader c fb g).DrainsTo ({ g with enabled := false }, false, false) :=
  (decodeBool_drainsTo _).bind (.pure _)

theorem lfHeader_drainsTo (f : LoopFilter) :
    (lfHeader c fb f).DrainsTo
      ({ f with filterType := false, level := 0, sharpness := 0, adjEnable := false }, false) :=
  (decodeBool_drainsTo _).bind <| (lit_drainsTo _).bind <| (litField_drainsTo 3 3).bind <|
    (decodeBool_drainsTo _).bind (.pure _)

theorem quantHeader_drainsTo : (quantHeader c fb).DrainsTo { base := 0, delta := #v[0, 0, 0, 0, 0] } :=
  (litField_drainsTo 7 7).bind ((each_drainsTo (fun _ => updateAt_drainsTo _ _ _) _).bind (.pure _))

theorem tokenProbs_drainsTo (old : CoeffTable) : (tokenProbs c fb old).DrainsTo old :=
  eachV_drainsTo (eachV_drainsTo (eachV_drainsTo (eachV_drainsTo fun p => updateAt_drainsTo p _))) _ _

theorem modeProbs_drainsTo {n : Nat} (old : Vector Prob n) : (modeProbs c fb old).DrainsTo old := by
  unfold modeProbs
  split
  · exact each_drainsTo (fun _ => updateAt_drainsTo _ _ _) old
  · exact updateAt_drainsTo _ _ old

theorem mvProbs_drainsTo (old : MvTable) : (mvProbs c fb old).DrainsTo old :=
  eachV_drainsTo (eachV_drainsTo fun p => updateAt_drainsTo p _) _ _

/-! ### An empty first partition -/

section empty

variable {s : State} (h0 : s.tag.toNat / 32 = 0)
include h0

theorem headerBd_drained : s.headerBd.Drained := by
  have hbyte : ∀ base i, sliceByteAt s.fb base (BitVec.ofNat addrWidth (s.tag.toNat / 32)) i = 0 := fun base i => by
    rw [h0]
    exact if_neg (Nat.not_lt_zero i)
  refine ⟨?_, ?_⟩
  · rw [State.headerBd, construct_eq, hbyte, hbyte]
    rfl
  · rw [State.headerBd, construct_eq, h0]
    exact Nat.zero_le _

/-- Rows 1 to 19 of such a frame. -/
theorem front_of_empty :
    s.readSpace.1 = false ∧ s.readClamping.1 = false ∧
      s.readSegmentation.1 = ({ s.pcsIn.seg with enabled := false }, false, false) ∧
      s.readLoopFilter.1 =
        ({ s.pcsIn.lf with filterType := false, level := 0, sharpness := 0, adjEnable := false }, false) ∧
      s.readPartCount.1 = 0 ∧ s.readQuant.1 = { base := 0, delta := #v[0, 0, 0, 0, 0] } ∧ s.readQuant.2.Drained := by
  obtain ⟨hspace, d⟩ := (decodeBool_drainsTo (fb := s.fb) 128).readIf (s.isKeyframe ∧ s.cfg.gkRows = true) false _
    (headerBd_drained h0)
  obtain ⟨hclamp, d⟩ := (decodeBool_drainsTo (fb := s.fb) 128).readIf (s.isKeyframe ∧ s.cfg.gkRows = true) false _ d
  obtain ⟨hseg, d⟩ := segHeader_drainsTo (fb := s.fb) s.cfg s.pcsIn.seg _ d
  obtain ⟨hlf, d⟩ := lfHeader_drainsTo (fb := s.fb) s.cfg s.pcsIn.lf _ d
  obtain ⟨hcount, d⟩ := lit_drainsTo (fb := s.fb) s.cfg.partCntBits _ d
  obtain ⟨hquant, d⟩ := quantHeader_drainsTo (fb := s.fb) s.cfg _ d
  exact ⟨hspace.trans (ite_self _), hclamp.trans (ite_self _), hseg, hlf, hcount, hquant, d⟩

/-- Rows 20 to 37 of such a frame. -/
theorem back_of_empty :
    s.readGolden.1 = (if ¬ s.isKeyframe then false else true) ∧
      s.readAlternate.1 = (if ¬ s.isKeyframe then false else true) ∧ s.readCopyGolden.1 = 0 ∧
      s.readCopyAlternate.1 = 0 ∧ s.readBiasGolden.1 = false ∧ s.readBiasAlternate.1 = false ∧
      s.readRefreshEntropy.1 = false ∧
      s.readRefreshLast.1 = (if ¬ s.isKeyframe ∧ s.cfg.gkRows = true then false else true) ∧
      s.readTokenProbs.1 = s.pcsIn.entropy.coeff ∧ s.readNoSkip.1 = false ∧ s.readProbSkip.1 = 0 ∧
      s.readProbIntra.1 = 0 ∧ s.readProbLast.1 = 0 ∧ s.readProbGf.1 = 0 ∧
      s.readYmode.1 = s.pcsIn.entropy.ymode ∧ s.readUvmode.1 = s.pcsIn.entropy.uvmode ∧
      s.readMv.1 = s.pcsIn.entropy.mv := by
  obtain ⟨-, -, -, -, -, -, d⟩ := front_of_empty h0
  have bit : ∀ (c : Prop) [Decidable c] (absent : Bool),
      Rd.DrainsTo (if c then false else absent) (readIf c absent (decodeBool s.fb 128)) :=
    (decodeBool_drainsTo 128).readIf
  have mode : ∀ (c : Prop) [Decidable c], Rd.DrainsTo (if c then 0 else 0) (readIf c 0 (lit s.fb 2)) :=
    fun c => (lit_drainsTo 2).readIf c 0
  have prob : ∀ (c : Prop) [Decidable c], Rd.DrainsTo (if c then 0 else 0) (readIf c 0 (readProb s.fb)) :=
    fun c => readProb_drainsTo.readIf c 0
  obtain ⟨hgold, d⟩ := bit (¬ s.isKeyframe) true _ d
  obtain ⟨halt, d⟩ := bit (¬ s.isKeyframe) true _ d
  obtain ⟨htoGold, d⟩ := mode (s.readGolden.1 = false) _ d
  obtain ⟨htoAlt, d⟩ := mode (s.readAlternate.1 = false) _ d
  obtain ⟨hbiasGold, d⟩ := bit (¬ s.isKeyframe) false _ d
  obtain ⟨hbiasAlt, d⟩ := bit (¬ s.isKeyframe) false _ d
  obtain ⟨hentropy, d⟩ := decodeBool_drainsTo (fb := s.fb) 128 _ d
  obtain ⟨hlast, d⟩ := bit (¬ s.isKeyframe ∧ s.cfg.gkRows = true) true _ d
  obtain ⟨hcoeff, d⟩ := tokenProbs_drainsTo (fb := s.fb) s.cfg s.pcsIn.entropy.coeff _ d
  obtain ⟨hskip, d⟩ := decodeBool_drainsTo (fb := s.fb) 128 _ d
  obtain ⟨hprobSkip, d⟩ := prob (s.readNoSkip.1 = true) _ d
  obtain ⟨hintra, d⟩ := prob (¬ s.isKeyframe) _ d
  obtain ⟨hprobLast, d⟩ := prob (¬ s.isKeyframe) _ d
  obtain ⟨hgf, d⟩ := prob (¬ s.isKeyframe) _ d
  obtain ⟨hymode, d⟩ := (modeProbs_drainsTo (fb := s.fb) s.cfg s.pcsIn.entropy.ymode).readIf (¬ s.isKeyframe)
    s.pcsIn.entropy.ymode _ d
  obtain ⟨huvmode, d⟩ := (modeProbs_drainsTo (fb := s.fb) s.cfg s.pcsIn.entropy.uvmode).readIf (¬ s.isKeyframe)
    s.pcsIn.entropy.uvmode _ d
  obtain ⟨hmv, -⟩ := (mvProbs_drainsTo (fb := s.fb) s.cfg s.pcsIn.entropy.mv).readIf (¬ s.isKeyframe)
    s.pcsIn.entropy.mv _ d
  exact ⟨hgold, halt, htoGold.trans (ite_self _), htoAlt.trans (ite_self _), hbiasGold.trans (ite_self _),
    hbiasAlt.trans (ite_self _), hentropy, hlast, hcoeff, hskip, hprobSkip.trans (ite_self _), hintra.trans (ite_self _),
    hprobLast.trans (ite_self _), hgf.trans (ite_self _), hymode.trans (ite_self _), huvmode.trans (ite_self _),
    hmv.trans (ite_self _)⟩

/-- No copy mode is 3 and one partition needs no table: such a frame is accepted. -/
theorem exec_fhParse_of_empty (hg : s.CallerGood) (hp : s.PrefixGood) :
    ∃ t, exec .fhParse s = .next t ∧ t.result = .ok ∧ t.pt.count = 1 := by
  obtain ⟨-, -, -, -, hcount, -⟩ := front_of_empty h0
  obtain ⟨-, -, htoGold, htoAlt, -⟩ := back_of_empty h0
  rcases hv : parseElements (prefixState s.beginParse) with ⟨c, t⟩ | v
  · obtain ⟨-, -, ⟨-, h⟩ | ⟨-, h⟩⟩ := (prefixState_opened s).elements_raise_iff.1 ⟨c, t, hv⟩
    · exact absurd (htoGold.symm.trans h) (by decide)
    · exact absurd (htoAlt.symm.trans h) (by decide)
  · have hone : v.fhr.numOfDctPartitions.toNat = 1 := by rw [(elements_layout hv).2.1, hcount]; rfl
    obtain ⟨entries, hl⟩ : ∃ l, s.layoutOf v = .ok l := by
      rw [layoutOf_eq_extractLayout hv, hone, extractLayout_ok_iff]
      exact ⟨hp.2.2.2, fun i hi => absurd hi (Nat.not_lt_zero i)⟩
    exact ⟨_, exec_fhParse_of_accepted hg hp hv hl, rfl, BitVec.eq_of_toNat_eq hone⟩

end empty

theorem Entropy.eq_of_tables {a b : Entropy} (hcoeff : a.coeff = b.coeff) (hymode : a.ymode = b.ymode)
    (huvmode : a.uvmode = b.uvmode) (hmv : a.mv = b.mv) : a = b := by
  cases a; cases b; cases hcoeff; cases hymode; cases huvmode; cases hmv; rfl

theorem Pcs.eq_of_parts {a b : Pcs} (hseg : a.seg = b.seg) (hlf : a.lf = b.lf) (hentropy : a.entropy = b.entropy) :
    a = b := by
  cases a; cases b; cases hseg; cases hlf; cases hentropy; rfl

/-- Settles O40: every element reads 0, so nothing of PCS is updated and the one partition is the rest of the frame. -/
theorem emptyFirstPartitionParses : Obligations.EmptyFirstPartitionParses := by
  intro s hg hp h0
  obtain ⟨t, he, ht, hpt⟩ := exec_fhParse_of_empty h0 hg hp
  obtain ⟨hspace, hclamp, hseg, hlf, -, hquant, -⟩ := front_of_empty h0
  obtain ⟨hgold, halt, htoGold, htoAlt, hbiasGold, hbiasAlt, hentropy, hlast, hcoeff, hskip, hprobSkip, hintra, hprobLast,
    hgf, hymode, huvmode, hmv⟩ := back_of_empty h0
  obtain ⟨ecolor, eseg, emap, edata, elf, edelta, -, equant⟩ := exec_fhParse_front he ht
  obtain ⟨egold, ealt, etoGold, etoAlt, ebiasGold, ebiasAlt, eentropy, elast, ecoeff, eskip, eprobSkip, einter, eymode,
    euvmode, emv, -⟩ := backElementsInTableOrder s t he ht
  obtain ⟨esegPcs, elfPcs⟩ := exec_fhParse_groups he ht
  obtain ⟨-, ecount, erel, eabs, -, eend⟩ := partitionsTileFrame s t 1 s.declaredEnd he ht (by rw [hpt]; rfl) rfl
  obtain ⟨-, hbaseKey, hbaseInter⟩ := entropyCommitFollowsRefresh s t he ht
  have hrefresh : t.fhr.refreshEntropyProbs = false := eentropy.trans hentropy
  have habs : (t.pt.entry[0]).offsetAbs.toNat = s.declaredEnd := by
    refine (eabs 0 (by decide)).1.trans ?_
    rw [show (t.pt.entry[(0 : Fin 8)]).offsetRel = 0 from erel]
    rfl
  have hsize : (t.pt.entry[0]).size.toNat = s.argLen.toNat - s.declaredEnd := by
    have h : (t.pt.entry[0]).offsetAbs.toNat + (t.pt.entry[0]).size.toNat = s.argLen.toNat := eend 0 rfl
    omega
  have hfhr : t.fhr.entropy = s.pcsIn.entropy :=
    Entropy.eq_of_tables (ecoeff.trans hcoeff) (eymode.trans hymode) (euvmode.trans huvmode) (emv.trans hmv)
  have hpcs : t.pcs.entropy = s.pcsIn.entropy := by
    by_cases hk : s.isKeyframe
    · rw [hbaseKey hrefresh hk, State.pcsIn, if_pos hk]
    · rw [hbaseInter hrefresh hk, State.pcsIn, if_neg hk]
  refine ⟨t, he, ht, hpt, ecount.trans hpt, habs, erel, hsize, equant.trans hquant, hrefresh, ?_, ?_, ?_, eskip.trans hskip,
    eprobSkip.trans hprobSkip, fun hk hgk => ?_, fun hk => ?_, ?_, esegPcs, elfPcs, hfhr⟩
  · rw [emap, hseg]
  · rw [edata, hseg]
  · rw [edelta, hlf]
  · obtain ⟨e1, e2⟩ := ecolor hk hgk
    exact ⟨e1.trans hspace, e2.trans hclamp⟩
  · obtain ⟨e1, e2, e3⟩ := einter hk
    rw [if_pos hk] at hgold halt
    exact ⟨egold.trans hgold, ealt.trans halt, BitVec.eq_of_toNat_eq (etoGold.trans htoGold),
      BitVec.eq_of_toNat_eq (etoAlt.trans htoAlt), ebiasGold.trans hbiasGold, ebiasAlt.trans hbiasAlt,
      fun hgk => (elast (.inl hgk)).trans (hlast.trans (if_pos ⟨hk, hgk⟩)), e1.trans hintra, e2.trans hprobLast,
      e3.trans hgf⟩
  · exact Pcs.eq_of_parts (esegPcs.symm.trans (eseg.trans (congrArg Prod.fst hseg)))
      (elfPcs.symm.trans (elf.trans (congrArg Prod.fst hlf))) hpcs

end Sys2Proof.Machine

/-! SUPPORT. The first elements of a header as the bits of the first partition, where its first bit is 0; with the statements
about the places of those elements (41_frame_header R160, 40_bd_commands R122). -/

namespace Sys2Proof.Machine

variable {s : State}

/-- The next bit a decoder over the frame's first partition reads at probability 128 is bit `k`. -/
structure State.AtBit (s : State) (k : Nat) (d : Bd) : Prop where
  shifter : d.InShifter
  stream : d.HoldsStream s.fb 15
  base : d.base = s.headerBd.base
  len : d.len = s.headerBd.len
  pos : d.pos + 1 = k

theorem State.AtBit.bit {k : Nat} {d : Bd} (h : s.AtBit k d) :
    (decodeBool s.fb 128 d).1 = s.headerBit k ∧ s.AtBit (k + 1) (decodeBool s.fb 128 d).2 := by
  obtain ⟨hbit, hstream⟩ := decodeBool_holdsStream h.shifter h.stream
  obtain ⟨hshifter, hpos⟩ := decodeBool_inShifter s.fb h.shifter
  obtain ⟨hbase, hlen, -, -⟩ := decodeBool_slice s.fb 128 d
  refine ⟨?_, hshifter, hstream, hbase.trans h.base, hlen.trans h.len, by rw [hpos, h.pos]⟩
  rw [hbit, h.base, h.len, h.pos]
  rfl

/-- A number read off the stream, by its first bit. -/
theorem State.headerNum_succ (s : State) (k n : Nat) :
    s.headerNum k (n + 1) = (s.headerBit k).toNat * 2 ^ n + s.headerNum (k + 1) n := by
  induction n with
  | zero => simp [State.headerNum]
  | succ n ih =>
    rw [State.headerNum, ih, State.headerNum, show k + (n + 1) = k + 1 + n by omega, Nat.pow_succ]
    ring

theorem State.AtBit.lit {k : Nat} {d : Bd} (h : s.AtBit k d) (n : Nat) :
    (lit s.fb n d).1 = s.headerNum k n ∧ s.AtBit (k + n) (lit s.fb n d).2 := by
  induction n generalizing k d with
  | zero => exact ⟨rfl, h⟩
  | succ n ih =>
    obtain ⟨hbit, hnext⟩ := h.bit
    obtain ⟨hrest, hlast⟩ := ih hnext
    rw [lit_succ, hbit, hrest, State.headerNum_succ]
    exact ⟨rfl, by rwa [show k + (n + 1) = k + 1 + n by omega]⟩

/-- Entries whose presence bits are all 0 keep their values. -/
theorem State.AtBit.presenceWalk_absent {α : Type} {k : Nat} {d : Bd} (h : s.AtBit k d) (rd : Bd → α × Bd)
    (l : List α) (hbits : ∀ i, i < l.length → s.headerBit (k + i) = false) :
    (presenceWalk s.fb rd (l.map fun o => (128, o)) d).1 = l ∧
      s.AtBit (k + l.length) (presenceWalk s.fb rd (l.map fun o => (128, o)) d).2 := by
  induction l generalizing k d with
  | nil => exact ⟨rfl, h⟩
  | cons o l ih =>
    obtain ⟨hbit, hnext⟩ := h.bit
    have hzero : (decodeBool s.fb 128 d).1 = false := hbit.trans (hbits 0 (Nat.succ_pos _))
    obtain ⟨hrest, hlast⟩ := ih hnext fun i hi => by
      rw [show k + 1 + i = k + (i + 1) by omega]
      exact hbits (i + 1) (Nat.succ_lt_succ hi)
    simp only [List.map_cons, presenceWalk, hzero, Bool.false_eq_true, if_false, hrest, List.length_cons, true_and]
    rwa [show k + (l.length + 1) = k + 1 + l.length by omega]

/-- The first read of a first partition whose first bit is 0. -/
theorem headerBd_first (h : s.headerBit 0 = false) :
    (decodeBool s.fb 128 s.headerBd).1 = false ∧ s.AtBit 1 (decodeBool s.fb 128 s.headerBd).2 := by
  obtain ⟨hfirst, hshifter⟩ := decodeBool_construct h
  rw [State.headerBd, hfirst]
  exact ⟨rfl, hshifter, construct_holdsStream _ _ _, rfl, rfl, rfl⟩

/-- The loop-filter header from bit `m` on, without loop-filter adjustment. -/
theorem State.AtBit.lfHeader {m l : Nat} {d : Bd} (hm : s.AtBit m d) (f : LoopFilter)
    (hl : l = m + 1 + s.cfg.lfLevelBits) (hadj : s.headerBit (l + 3) = false) {r : (LoopFilter × Bool) × Bd}
    (hr : r = Machine.lfHeader s.cfg s.fb f d) :
    r.1.1.filterType = s.headerBit m ∧ r.1.1.level = s.headerNum (m + 1) s.cfg.lfLevelBits ∧
      r.1.1.sharpness.toNat = s.headerNum l 3 ∧ r.1.1.adjEnable = false ∧ s.AtBit (l + 4) r.2 := by
  rw [hr]
  obtain ⟨htype, dtype⟩ := hm.bit
  obtain ⟨hlevel, dlevel⟩ := dtype.lit s.cfg.lfLevelBits
  rw [← hl] at dlevel
  obtain ⟨hsharp, dsharp⟩ := dlevel.lit 3
  obtain ⟨hzero, dadj⟩ := dsharp.bit
  rw [hadj] at hzero
  obtain ⟨etype, elevel, esharp, eadj, edelta, -, ekeep⟩ := loopFilterDeltasPersist.2 s.cfg s.fb f d
  rw [hzero, Bool.false_and] at edelta
  refine ⟨etype.trans htype, elevel.trans hlevel, esharp.trans hsharp, eadj.trans hzero, ?_⟩
  rw [(ekeep edelta).2.2, if_neg (by rw [hzero]; decide)]
  exact dadj

/-- The quantiser header from bit `q` on. -/
theorem State.AtBit.quantHeader {q : Nat} {d : Bd} (hq : s.AtBit q d) {r : Quant × Bd}
    (hr : r = Machine.quantHeader s.cfg s.fb d) :
    r.1.base.toNat = s.headerNum q 7 ∧
      ((∀ i : Fin 5, s.headerBit (q + 7 + i.val) = false) → r.1.delta = #v[0, 0, 0, 0, 0] ∧ s.AtBit (q + 12) r.2) := by
  rw [hr]
  obtain ⟨hbase, dbase⟩ := hq.lit 7
  obtain ⟨ebase, ewalk, equant⟩ := quantHeader_apply s.cfg s.fb d
  refine ⟨ebase.trans hbase, fun hbits => ?_⟩
  obtain ⟨hwalk, dwalk⟩ := dbase.presenceWalk_absent (signedLit s.fb s.cfg.qdeltaBits) (List.replicate 5 0)
    fun i hi => hbits ⟨i, by simpa using hi⟩
  rw [List.map_replicate] at hwalk dwalk
  rw [equant]
  exact ⟨Vector.toList_inj.1 (ewalk.trans hwalk), dwalk⟩

/-- Rows 10 to 19 from bit `m` on, for a frame without loop-filter adjustment. -/
theorem front_bits {m l q : Nat} (hm : s.AtBit m s.readSegmentation.2) (hl : l = m + 1 + s.cfg.lfLevelBits)
    (hq : q = l + 4 + s.cfg.partCntBits) (hadj : s.headerBit (l + 3) = false) :
    s.readLoopFilter.1.1.filterType = s.headerBit m ∧
      s.readLoopFilter.1.1.level = s.headerNum (m + 1) s.cfg.lfLevelBits ∧
      s.readLoopFilter.1.1.sharpness.toNat = s.headerNum l 3 ∧ s.readLoopFilter.1.1.adjEnable = false ∧
      s.readPartCount.1 = s.headerNum (l + 4) s.cfg.partCntBits ∧
      s.readQuant.1.base.toNat = s.headerNum q 7 ∧
      ((∀ i : Fin 5, s.headerBit (q + 7 + i.val) = false) →
        s.readQuant.1.delta = #v[0, 0, 0, 0, 0] ∧ s.AtBit (q + 12) s.readQuant.2) := by
  obtain ⟨htype, hlevel, hsharp, hadjust, dlf⟩ := hm.lfHeader s.pcsIn.lf hl hadj (r := s.readLoopFilter) rfl
  obtain ⟨hcount, dcount⟩ := dlf.lit s.cfg.partCntBits
  rw [← hq] at dcount
  exact ⟨htype, hlevel, hsharp, hadjust, hcount, dcount.quantHeader (r := s.readQuant) rfl⟩

/-- Rows 3 to 9 of a frame without segmentation. -/
theorem segmentation_bit {k : Nat} (h : s.AtBit (k + 1) (decodeBool s.fb 128 s.readClamping.2).2)
    (hoff : (decodeBool s.fb 128 s.readClamping.2).1 = false) :
    s.readSegmentation.1.1.enabled = false ∧ s.AtBit (k + 1) s.readSegmentation.2 := by
  rw [State.readSegmentation, segHeader_disabled s.cfg s.fb s.pcsIn.seg s.readClamping.2 hoff]
  exact ⟨rfl, h⟩

/-- Nothing is read between the quantiser and `refresh_entropy_probs` of a keyframe. -/
theorem readBiasAlternate_of_keyframe (hk : s.isKeyframe) : s.readBiasAlternate.2 = s.readQuant.2 := by
  have hn : ¬ ¬ s.isKeyframe := not_not_intro hk
  simp only [State.readBiasAlternate, State.readBiasGolden, State.readCopyAlternate, State.readCopyGolden,
    State.readAlternate, State.readGolden, readIf_neg hn, readIf_neg Bool.true_eq_false_eq_False]

/-- Settles O41: bit 0 is the first read's, and each element begins where the one before ends. -/
theorem keyframeFieldsAreStreamBits : Obligations.KeyframeFieldsAreStreamBits := by
  intro s t l q hk he ht hgk hl hq h0 h2 hadj
  have hcolor : s.isKeyframe ∧ s.cfg.gkRows = true := ⟨hk, hgk⟩
  have espace : s.readSpace = decodeBool s.fb 128 s.headerBd := readIf_pos hcolor _ _ _
  have eclamp : s.readClamping = decodeBool s.fb 128 s.readSpace.2 := readIf_pos hcolor _ _ _
  obtain ⟨hspace, dspace⟩ := headerBd_first h0
  rw [← espace] at hspace dspace
  obtain ⟨hclamp, dclamp⟩ := dspace.bit
  rw [← eclamp] at hclamp dclamp
  obtain ⟨hoff, doff⟩ := dclamp.bit
  obtain ⟨hseg, dseg⟩ := segmentation_bit (k := 2) doff (hoff.trans h2)
  obtain ⟨htype, hlevel, hsharp, hadjust, hcount, hbase, hrest⟩ := front_bits dseg (by omega) hq hadj
  obtain ⟨ecolor, eseg, -, -, elf, -, ecount, equant⟩ := exec_fhParse_front he ht
  obtain ⟨fspace, fclamp⟩ := ecolor hk hgk
  rw [eseg, elf, ecount, equant, fspace, fclamp]
  refine ⟨hspace, hclamp, hseg, htype, hlevel, hsharp, hadjust, by rw [hcount], hbase, fun hbits => ?_⟩
  obtain ⟨hdelta, dquant⟩ := hrest hbits
  obtain ⟨-, -, -, -, -, -, eentropy, -⟩ := backElementsInTableOrder s t he ht
  refine ⟨hdelta, ?_⟩
  rw [eentropy, State.readRefreshEntropy, readBiasAlternate_of_keyframe hk]
  exact dquant.bit.1

/-- A copy mode from bit `k` on: two bits where the buffer is not refreshed. -/
theorem State.AtBit.copyMode {k : Nat} {d : Bd} (h : s.AtBit k d) (refreshed : Bool) :
    (refreshed = false → (readIf (refreshed = false) 0 (Machine.lit s.fb 2) d).1 = s.headerNum k 2) ∧
      s.AtBit (k + if refreshed then 0 else 2) (readIf (refreshed = false) 0 (Machine.lit s.fb 2) d).2 := by
  cases refreshed with
  | true => rw [readIf_neg Bool.true_eq_false_eq_False]; exact ⟨nofun, h⟩
  | false => rw [readIf_pos rfl]; exact ⟨fun _ => (h.lit 2).1, (h.lit 2).2⟩

/-- Settles O42: the first read finds no segmentation, and each element begins where the one before ends. -/
theorem interframeFieldsAreStreamBits : Obligations.InterframeFieldsAreStreamBits := by
  intro s t l q r b hk he ht hl hq hr hb h0 hadj hbits
  have hcolor : ¬ (s.isKeyframe ∧ s.cfg.gkRows = true) := fun h => hk h.1
  have eclamp : s.readClamping.2 = s.headerBd := by
    rw [State.readClamping, readIf_neg hcolor, State.readSpace, readIf_neg hcolor]
  obtain ⟨hoff, doff⟩ := headerBd_first h0
  rw [← eclamp] at hoff doff
  obtain ⟨hseg, dseg⟩ := segmentation_bit (k := 0) doff hoff
  obtain ⟨htype, hlevel, hsharp, hadjust, hcount, hbase, hrest⟩ := front_bits dseg (by omega) hq hadj
  obtain ⟨hdelta, dquant⟩ := hrest hbits
  have egold : s.readGolden = decodeBool s.fb 128 s.readQuant.2 := readIf_pos hk _ _ _
  have ealt : s.readAlternate = decodeBool s.fb 128 s.readGolden.2 := readIf_pos hk _ _ _
  obtain ⟨hgold, dgold⟩ := dquant.bit
  rw [← egold] at hgold dgold
  obtain ⟨halt, dalt⟩ := dgold.bit
  rw [← ealt] at halt dalt
  obtain ⟨htoGold, dtoGold⟩ : (s.readGolden.1 = false → s.readCopyGolden.1 = s.headerNum (q + 14) 2) ∧
      s.AtBit r s.readCopyGolden.2 := by
    rw [hr, ← hgold]
    exact dalt.copyMode s.readGolden.1
  obtain ⟨htoAlt, dtoAlt⟩ : (s.readAlternate.1 = false → s.readCopyAlternate.1 = s.headerNum r 2) ∧
      s.AtBit b s.readCopyAlternate.2 := by
    rw [hb, ← halt]
    exact dtoGold.copyMode s.readAlternate.1
  have ebiasGold : s.readBiasGolden = decodeBool s.fb 128 s.readCopyAlternate.2 := readIf_pos hk _ _ _
  have ebiasAlt : s.readBiasAlternate = decodeBool s.fb 128 s.readBiasGolden.2 := readIf_pos hk _ _ _
  obtain ⟨hbiasGold, dbiasGold⟩ := dtoAlt.bit
  rw [← ebiasGold] at hbiasGold dbiasGold
  obtain ⟨hbiasAlt, dbiasAlt⟩ := dbiasGold.bit
  rw [← ebiasAlt] at hbiasAlt dbiasAlt
  obtain ⟨hentropy, dentropy⟩ := dbiasAlt.bit
  obtain ⟨-, eseg, -, -, elf, -, ecount, equant⟩ := exec_fhParse_front he ht
  obtain ⟨fgold, falt, ftoGold, ftoAlt, fbiasGold, fbiasAlt, fentropy, flast, -⟩ := backElementsInTableOrder s t he ht
  rw [eseg, elf, ecount, equant, fgold, falt, ftoGold, ftoAlt, fbiasGold, fbiasAlt, fentropy]
  refine ⟨hseg, htype, hlevel, hsharp, hadjust, by rw [hcount], hbase, hdelta, hgold, halt,
    fun h => htoGold (hgold.trans h), fun h => htoAlt (halt.trans h), hbiasGold, hbiasAlt, hentropy, fun hgk => ?_⟩
  have elast : s.readRefreshLast = decodeBool s.fb 128 s.readRefreshEntropy.2 := readIf_pos ⟨hk, hgk⟩ _ _ _
  rw [flast (.inl hgk), elast]
  exact dentropy.bit.1

end Sys2Proof.Machine

/-! SUPPORT. How far the elements of a header can move the decoder; with the statement about the position of an accepted frame
(40_bd_commands R125, 41_frame_header R178). -/

namespace Sys2Proof.Machine

variable {α β : Type} {fb : Memory}

/-! ### Counting decoded bits -/

/-- The read decodes at most `n` booleans, each of at most 7 shifts. -/
def Rd.Advances (n : Nat) (m : Rd α) : Prop := ∀ d, d.Ready → (m d).2.Ready ∧ (m d).2.pos ≤ d.pos + 7 * n

theorem Rd.Advances.mono {m n : Nat} {rd : Rd α} (h : rd.Advances m) (hmn : m ≤ n) : rd.Advances n := fun d hd =>
  ⟨(h d hd).1, (h d hd).2.trans (by omega)⟩

theorem Rd.Advances.pure (x : α) : Rd.Advances 0 (pure x : Rd α) := fun _ h => ⟨h, Nat.le_refl _⟩

theorem Rd.Advances.bind {m n : Nat} {rd : Rd α} {f : α → Rd β} (hrd : rd.Advances m) (hf : ∀ a, (f a).Advances n) :
    (rd >>= f).Advances (m + n) := fun d hd => by
  obtain ⟨hd', hpos⟩ := hrd d hd
  obtain ⟨hd'', hpos'⟩ := hf (rd d).1 _ hd'
  exact ⟨hd'', hpos'.trans (by omega)⟩

theorem Rd.Advances.map {n : Nat} {rd : Rd α} {f : α → β} (h : rd.Advances n) :
    Rd.Advances n (rd >>= fun x => Pure.pure (f x)) :=
  h.bind (n := 0) fun _ => .pure _

theorem Rd.Advances.ite {n : Nat} {b : Bool} {m m' : Rd α} (h : m.Advances n) (h' : m'.Advances n) :
    Rd.Advances n (if b then m else m') := by cases b <;> assumption

theorem decodeBool_advances (p : Prob) : (decodeBool fb p).Advances 1 := fun d hd =>
  ⟨decodeBool_ready fb p d hd, (decodeBoolAdvancesPosition fb p d hd).2⟩

theorem lit_advances (n : Nat) : (lit fb n).Advances n := by
  induction n with
  | zero => exact .pure 0
  | succ n ih =>
    intro d hd
    rw [lit_succ]
    obtain ⟨hd', hpos⟩ := decodeBool_advances (fb := fb) 128 d hd
    obtain ⟨hd'', hpos'⟩ := ih _ hd'
    exact ⟨hd'', hpos'.trans (by omega)⟩

theorem litField_advances (w n : Nat) : (litField fb w n).Advances n := (lit_advances n).map

theorem readProb_advances : Rd.Advances 8 (readProb fb) := by
  rw [← litField_eq_readProb]
  exact litField_advances 8 8

theorem signedLit_advances (n : Nat) : (signedLit fb n).Advances (n + 1) :=
  (lit_advances n).bind fun _ => (decodeBool_advances _).map

/-- An entry costs at most its presence bit and its replacement. -/
theorem updateAt_advances {n : Nat} (p : Prob) {rd : Rd α} (h : rd.Advances n) (absent : α) :
    (updateAt fb p rd absent).Advances (1 + n) :=
  (decodeBool_advances p).bind fun _ => .ite h ((Rd.Advances.pure absent).mono (Nat.zero_le n))

theorem whenSet_advances {n : Nat} {u : Bool} {rd : α → Rd α} (h : ∀ x, (rd x).Advances n) (x : α) :
    (whenSet u rd x).Advances n :=
  .ite (h x) ((Rd.Advances.pure x).mono (Nat.zero_le n))

theorem eachL_advances {n : Nat} {f : α → β → Rd β} (h : ∀ a b, (f a b).Advances n) (l : List (α × β)) :
    (eachL f l).Advances (l.length * n) := by
  induction l with
  | nil => exact .mono (.pure []) (Nat.zero_le _)
  | cons ab rest ih =>
    rw [List.length_cons, Nat.succ_mul, Nat.add_comm]
    exact (h ab.1 ab.2).bind fun _ => ih.map

theorem eachV_advances {k n : Nat} {f : α → β → Rd β} (h : ∀ a b, (f a b).Advances n) (ps : Vector α k)
    (old : Vector β k) : (eachV f ps old).Advances (k * n) := by
  have hlist := eachL_advances h (ps.toList.zip old.toList)
  rw [List.length_zip, Vector.length_toList, Vector.length_toList, Nat.min_self] at hlist
  exact hlist

theorem each_advances {k n : Nat} {f : β → Rd β} (h : ∀ b, (f b).Advances n) (old : Vector β k) :
    (each f old).Advances (k * n) :=
  eachV_advances (fun _ b => h b) old old

theorem readIf_advances {n : Nat} {rd : Rd α} (h : rd.Advances n) (c : Prop) [Decidable c] (absent : α) :
    Rd.Advances n (readIf c absent rd) := by
  by_cases hc : c
  · exact fun d hd => by rw [readIf_pos hc]; exact h d hd
  · exact fun d hd => by rw [readIf_neg hc]; exact ⟨hd, Nat.le_add_right _ _⟩

/-! ### The elements -/

variable (c : Params)

theorem segFeatureData_advances (g : Seg) :
    (segFeatureData c fb g).Advances (1 + (4 * (1 + (c.segQBits + 1)) + 4 * (1 + (c.segLfBits + 1)))) :=
  (decodeBool_advances _).bind fun _ => (each_advances (fun _ => updateAt_advances _ (signedLit_advances _) _) _).bind
    fun _ => (each_advances (fun _ => updateAt_advances _ (signedLit_advances _) _) _).map

theorem segTreeProbs_advances (g : Seg) : (segTreeProbs c fb g).Advances (3 * (1 + 8)) :=
  (each_advances (fun _ => updateAt_advances _ (litField_advances 8 8) _) _).map

theorem segHeader_advances (g : Seg) :
    (segHeader c fb g).Advances (1 + (1 + (1 +
      ((1 + (4 * (1 + (c.segQBits + 1)) + 4 * (1 + (c.segLfBits + 1)))) + 3 * (1 + 8))))) :=
  (decodeBool_advances _).bind fun _ => .ite
    ((decodeBool_advances _).bind fun _ => (decodeBool_advances _).bind fun _ =>
      (whenSet_advances (segFeatureData_advances c) _).bind fun _ => (whenSet_advances (segTreeProbs_advances c) _).map)
    ((Rd.Advances.pure _).mono (Nat.zero_le _))

theorem lfDeltas_advances (f : LoopFilter) :
    (lfDeltas c fb f).Advances (4 * (1 + (c.lfDeltaBits + 1)) + 4 * (1 + (c.lfDeltaBits + 1))) :=
  (each_advances (fun _ => updateAt_advances _ (signedLit_advances _) _) _).bind
    fun _ => (each_advances (fun _ => updateAt_advances _ (signedLit_advances _) _) _).map

theorem lfHeader_advances (f : LoopFilter) :
    (lfHeader c fb f).Advances (1 + (c.lfLevelBits + (3 + (1 +
      (1 + (4 * (1 + (c.lfDeltaBits + 1)) + 4 * (1 + (c.lfDeltaBits + 1)))))))) :=
  (decodeBool_advances _).bind fun _ => (lit_advances _).bind fun _ => (litField_advances 3 3).bind fun _ =>
    (decodeBool_advances _).bind fun _ => .ite
      ((decodeBool_advances _).bind fun _ => (whenSet_advances (lfDeltas_advances c) _).map)
      ((Rd.Advances.pure _).mono (Nat.zero_le _))

theorem quantHeader_advances : (quantHeader c fb).Advances (7 + 5 * (1 + (c.qdeltaBits.val + 1))) :=
  (litField_advances 7 7).bind fun _ =>
    (each_advances (fun _ => updateAt_advances _ (signedLit_advances _) _) _).map

theorem tokenProbs_advances (old : CoeffTable) : (tokenProbs c fb old).Advances (4 * (8 * (3 * (11 * (1 + 8))))) :=
  eachV_advances (eachV_advances (eachV_advances (eachV_advances fun p => updateAt_advances p (litField_advances 8 8))))
    _ _

theorem modeProbs_advances {n : Nat} (hn : 1 ≤ n) (old : Vector Prob n) : (modeProbs c fb old).Advances (n * (1 + 8)) := by
  unfold modeProbs
  split
  · exact each_advances (fun _ => updateAt_advances _ (litField_advances 8 8) _) old
  · exact (updateAt_advances _ (each_advances (fun _ => litField_advances 8 8) old) old).mono (by omega)

theorem mvProb_advances : (mvProb c fb).Advances 8 := by
  unfold mvProb
  split
  · exact litField_advances 8 8
  · exact (lit_advances 7).map.mono (by omega)

theorem mvProbs_advances (old : MvTable) : (mvProbs c fb old).Advances (2 * (19 * (1 + 8))) :=
  eachV_advances (eachV_advances fun p => updateAt_advances p (mvProb_advances c)) _ _

/-! ### The whole header -/

variable {s : State}

/-- The slice of the first partition of a good prefix lies inside FB. -/
theorem headerBd_ready (hg : s.CallerGood) (hp : s.PrefixGood) : s.headerBd.Ready := by
  have hfits : s.argBase.toNat + s.argLen.toNat ≤ 2 ^ 32 := (bufferFits_iff s).1 hg.2.2
  have hend : (if s.isKeyframe then 10 else 3) + s.tag.toNat / 32 ≤ s.argLen.toNat := hp.2.2.2
  rw [State.headerBd]
  refine construct_ready s.fb ?_
  rw [BitVec.toNat_ofNat, BitVec.toNat_ofNat]
  show (s.argBase.toNat + if s.isKeyframe then 10 else 3) % 2 ^ 32 + s.tag.toNat / 32 % 2 ^ 32 ≤ 2 ^ 32
  have := Nat.mod_le (s.argBase.toNat + if s.isKeyframe then 10 else 3) (2 ^ 32)
  have := Nat.mod_le (s.tag.toNat / 32) (2 ^ 32)
  omega

/-- A sound decoder at most `n` booleans past construction. -/
def Bd.Reaches (n : Nat) (d : Bd) : Prop := d.Ready ∧ d.pos ≤ 7 * n

theorem Rd.Advances.reaches {k n : Nat} {rd : Rd α} (h : rd.Advances k) {d : Bd} (hd : d.Reaches n) :
    (rd d).2.Reaches (n + k) := by
  obtain ⟨hready, hpos⟩ := h d hd.1
  have := hd.2
  exact ⟨hready, by omega⟩

theorem Bd.Reaches.mono {m n : Nat} {d : Bd} (h : d.Reaches m) (hmn : m ≤ n) : d.Reaches n :=
  ⟨h.1, h.2.trans (by omega)⟩

/-- Rows 1 to 19, under the suggested widths. -/
theorem front_reaches (hq : s.cfg.segQBits = 7) (hlf : s.cfg.segLfBits = 6) (hlevel : s.cfg.lfLevelBits = 6)
    (hdelta : s.cfg.lfDeltaBits = 6) (h : s.headerBd.Reaches 0) : s.readQuant.2.Reaches 231 := by
  have color := readIf_advances (decodeBool_advances (fb := s.fb) 128) (s.isKeyframe ∧ s.cfg.gkRows = true) false
  have hspace := color.reaches h
  have hclamp := color.reaches hspace
  have hseg := (segHeader_advances (fb := s.fb) s.cfg s.pcsIn.seg).reaches hclamp
  have hloop := (lfHeader_advances (fb := s.fb) s.cfg s.pcsIn.lf).reaches hseg
  have hcount := (lit_advances (fb := s.fb) s.cfg.partCntBits.val).reaches hloop
  have hquant := (quantHeader_advances (fb := s.fb) s.cfg).reaches hcount
  rw [hq, hlf, hlevel, hdelta] at hquant
  have hbits := s.cfg.partCntBits.isLt
  have hqbits := s.cfg.qdeltaBits.isLt
  exact Bd.Reaches.mono hquant (by omega)

/-- Rows 20 to 37. -/
theorem back_reaches (h : s.readQuant.2.Reaches 231) : s.readMv.2.Reaches 10183 := by
  have bit : ∀ (c : Prop) [Decidable c] (absent : Bool), Rd.Advances 1 (readIf c absent (decodeBool s.fb 128)) :=
    readIf_advances (decodeBool_advances 128)
  have mode : ∀ (c : Prop) [Decidable c], Rd.Advances 2 (readIf c 0 (lit s.fb 2)) := fun c =>
    readIf_advances (lit_advances 2) c 0
  have prob : ∀ (c : Prop) [Decidable c], Rd.Advances 8 (readIf c 0 (readProb s.fb)) := fun c =>
    readIf_advances readProb_advances c 0
  have halt := (bit (¬ s.isKeyframe) true).reaches ((bit (¬ s.isKeyframe) true).reaches h)
  have htoAlt := (mode (s.readAlternate.1 = false)).reaches ((mode (s.readGolden.1 = false)).reaches halt)
  have hbias := (bit (¬ s.isKeyframe) false).reaches ((bit (¬ s.isKeyframe) false).reaches htoAlt)
  have hlast := (bit (¬ s.isKeyframe ∧ s.cfg.gkRows = true) true).reaches
    ((decodeBool_advances (fb := s.fb) 128).reaches hbias)
  have hcoeff := (tokenProbs_advances (fb := s.fb) s.cfg s.pcsIn.entropy.coeff).reaches hlast
  have hskip := (prob (s.readNoSkip.1 = true)).reaches ((decodeBool_advances (fb := s.fb) 128).reaches hcoeff)
  have hinter := (prob (¬ s.isKeyframe)).reaches ((prob (¬ s.isKeyframe)).reaches ((prob (¬ s.isKeyframe)).reaches hskip))
  have hymode := (readIf_advances (modeProbs_advances (fb := s.fb) s.cfg (by decide) s.pcsIn.entropy.ymode)
    (¬ s.isKeyframe) s.pcsIn.entropy.ymode).reaches hinter
  have huvmode := (readIf_advances (modeProbs_advances (fb := s.fb) s.cfg (by decide) s.pcsIn.entropy.uvmode)
    (¬ s.isKeyframe) s.pcsIn.entropy.uvmode).reaches hymode
  exact (readIf_advances (mvProbs_advances (fb := s.fb) s.cfg s.pcsIn.entropy.mv) (¬ s.isKeyframe)
    s.pcsIn.entropy.mv).reaches huvmode

/-- Settles O51: at most 10183 booleans of at most 7 shifts. -/
theorem parsePositionBounded : Obligations.ParsePositionBounded := by
  intro s t hq hlf hlevel hdelta he ht
  obtain ⟨hg, hp, -⟩ := exec_fhParse_accepted he ht
  obtain ⟨-, hpos⟩ := back_reaches (front_reaches hq hlf hlevel hdelta ⟨headerBd_ready hg hp, Nat.le_refl 0⟩)
  obtain ⟨-, -, -, -, -, -, -, -, -, -, -, -, -, -, -, hbyte, -⟩ := backElementsInTableOrder s t he ht
  rw [hbyte (by omega)]
  omega

end Sys2Proof.Machine

/-! SUPPORT. Two parses that differ in PCS, its snapshot and the working copy alone: they decode the same booleans and end
alike; with the statements that no PCS field steers a parse and that a keyframe forgets PCS (41_frame_header R189,
93_implementation_defined U4). -/

namespace Sys2Proof.Machine

/-! ### Reads over different old values -/

section reads

variable {α β : Type} {fb : Memory}

theorem Rd.Rel.refl (m : Rd α) : m.Rel Eq Eq m := fun _ _ h => by cases h; exact ⟨rfl, rfl⟩

/-- Two reads that decode the same booleans, whatever values they give. -/
abbrev Rd.SameCourse (m : Rd α) (m' : Rd β) : Prop := m.Rel Eq (fun _ _ => True) m'

theorem Rd.Rel.sameCourse {S : α → β → Prop} {m : Rd α} {m' : Rd β} (h : m.Rel Eq S m') : m.SameCourse m' :=
  fun d d' hd => ⟨trivial, (h d d' hd).2⟩

/-- The value that stands for an absent entry decodes nothing. -/
theorem updateAt_sameCourse (p : Prob) (rd : Rd α) (absent absent' : α) :
    (updateAt fb p rd absent).SameCourse (updateAt fb p rd absent') :=
  (Rd.Rel.refl _).bind_eq fun _ => .ite (Rd.Rel.refl rd).sameCourse (.pure trivial)

theorem eachL_sameCourse {f : α → β → Rd β} (h : ∀ a b b', (f a b).SameCourse (f a b')) (ps : List α)
    (old old' : List β) (hlen : old.length = old'.length) :
    (eachL f (ps.zip old)).SameCourse (eachL f (ps.zip old')) := by
  induction ps generalizing old old' with
  | nil => exact .pure trivial
  | cons a ps ih =>
    cases old with
    | nil => cases old' with
      | nil => exact .pure trivial
      | cons b' old' => cases hlen
    | cons b old => cases old' with
      | nil => cases hlen
      | cons b' old' =>
        exact (h a b b').bind fun _ _ _ => (ih old old' (Nat.succ.inj hlen)).bind fun _ _ _ => .pure trivial

theorem eachV_sameCourse {n : Nat} {f : α → β → Rd β} (h : ∀ a b b', (f a b).SameCourse (f a b')) (ps : Vector α n)
    (old old' : Vector β n) : (eachV f ps old).SameCourse (eachV f ps old') := fun d d' hd =>
  ⟨trivial, (eachL_sameCourse h ps.toList old.toList old'.toList (by simp) d d' hd).2⟩

theorem eachL_sameCourse_zip {f : β → Rd β} (h : ∀ b b', (f b).SameCourse (f b')) (old old' : List β)
    (hlen : old.length = old'.length) :
    (eachL (fun _ b => f b) (old.zip old)).SameCourse (eachL (fun _ b => f b) (old'.zip old')) := by
  induction old generalizing old' with
  | nil => cases old' with
    | nil => exact .pure trivial
    | cons b' old' => cases hlen
  | cons b old ih => cases old' with
    | nil => cases hlen
    | cons b' old' => exact (h b b').bind fun _ _ _ => (ih old' (Nat.succ.inj hlen)).bind fun _ _ _ => .pure trivial

theorem each_sameCourse {n : Nat} {f : β → Rd β} (h : ∀ b b', (f b).SameCourse (f b')) (old old' : Vector β n) :
    (each f old).SameCourse (each f old') := fun d d' hd =>
  ⟨trivial, (eachL_sameCourse_zip h old.toList old'.toList (by simp) d d' hd).2⟩

variable (c : Params)

theorem segFeatureData_sameCourse (g g' : Seg) :
    (segFeatureData c fb g).Rel Eq (fun x x' => x.enabled = g.enabled ∧ x'.enabled = g'.enabled)
      (segFeatureData c fb g') :=
  (Rd.Rel.refl _).bind_eq fun _ =>
    (each_sameCourse (fun _ _ => updateAt_sameCourse _ _ _ _) _ _).bind fun _ _ _ =>
      (each_sameCourse (fun _ _ => updateAt_sameCourse _ _ _ _) _ _).bind fun _ _ _ => .pure ⟨rfl, rfl⟩

theorem segTreeProbs_sameCourse (g g' : Seg) :
    (segTreeProbs c fb g).Rel Eq (fun x x' => x.enabled = g.enabled ∧ x'.enabled = g'.enabled) (segTreeProbs c fb g') :=
  (each_sameCourse (fun _ _ => updateAt_sameCourse _ _ _ _) _ _).bind fun _ _ _ => .pure ⟨rfl, rfl⟩

/-- The segmentation header over other old values: the same flags. -/
theorem segHeader_sameCourse (g g' : Seg) :
    (segHeader c fb g).Rel Eq (fun r r' => r.2 = r'.2 ∧ r.1.enabled = r'.1.enabled) (segHeader c fb g') := by
  refine (Rd.Rel.refl _).bind_eq fun enabled => .ite ?_ (.pure ⟨rfl, rfl⟩)
  refine (Rd.Rel.refl _).bind_eq fun map => (Rd.Rel.refl _).bind_eq fun data => ?_
  refine Rd.Rel.bind (S := fun x x' => x.enabled = true ∧ x'.enabled = true)
    (.ite (segFeatureData_sameCourse c _ _) (.pure ⟨rfl, rfl⟩)) fun x x' hx => ?_
  refine Rd.Rel.bind (S := fun y y' => y.enabled = x.enabled ∧ y'.enabled = x'.enabled)
    (.ite (segTreeProbs_sameCourse c _ _) (.pure ⟨rfl, rfl⟩)) fun y y' hy => ?_
  exact .pure ⟨rfl, by rw [hy.1, hy.2, hx.1, hx.2]⟩

/-- The fields of the loop-filter header that are always coded. -/
def LoopFilter.SameCoded (f f' : LoopFilter) : Prop :=
  f'.filterType = f.filterType ∧ f'.level = f.level ∧ f'.sharpness = f.sharpness ∧ f'.adjEnable = f.adjEnable

theorem lfDeltas_sameCourse {f f' : LoopFilter} (h : f.SameCoded f') :
    (lfDeltas c fb f).Rel Eq LoopFilter.SameCoded (lfDeltas c fb f') :=
  (each_sameCourse (fun _ _ => updateAt_sameCourse _ _ _ _) _ _).bind fun _ _ _ =>
    (each_sameCourse (fun _ _ => updateAt_sameCourse _ _ _ _) _ _).bind fun _ _ _ => .pure h

/-- The loop-filter header over other old values: the same coded fields. -/
theorem lfHeader_sameCourse (f f' : LoopFilter) :
    (lfHeader c fb f).Rel Eq (fun r r' => r.2 = r'.2 ∧ r.1.SameCoded r'.1) (lfHeader c fb f') := by
  refine (Rd.Rel.refl _).bind_eq fun type => (Rd.Rel.refl _).bind_eq fun level => ?_
  refine (Rd.Rel.refl _).bind_eq fun sharpness => (Rd.Rel.refl _).bind_eq fun adj => ?_
  have hcoded : LoopFilter.SameCoded { f with filterType := type, level, sharpness, adjEnable := adj }
      { f' with filterType := type, level, sharpness, adjEnable := adj } := ⟨rfl, rfl, rfl, rfl⟩
  refine .ite ((Rd.Rel.refl _).bind_eq fun update => ?_) (.pure ⟨rfl, hcoded⟩)
  exact Rd.Rel.bind (.ite (lfDeltas_sameCourse c hcoded) (.pure hcoded)) fun _ _ hx => .pure ⟨rfl, hx⟩

theorem tokenProbs_sameCourse (old old' : CoeffTable) : (tokenProbs c fb old).SameCourse (tokenProbs c fb old') :=
  eachV_sameCourse (fun p => eachV_sameCourse (fun p => eachV_sameCourse (fun p => eachV_sameCourse
    (fun p => updateAt_sameCourse p _) p) p) p) _ _ _

theorem modeProbs_sameCourse {n : Nat} (old old' : Vector Prob n) :
    (modeProbs c fb old).SameCourse (modeProbs c fb old') := by
  unfold modeProbs
  split
  · exact each_sameCourse (fun _ _ => updateAt_sameCourse _ _ _ _) old old'
  · exact (Rd.Rel.refl _).bind_eq fun _ => .ite (each_sameCourse (fun _ _ => (Rd.Rel.refl _).sameCourse) old old')
      (.pure trivial)

theorem intraProbs_sameCourse (y y' : Vector Prob 4) (uv uv' : Vector Prob 3) :
    (intraProbs c fb y uv).SameCourse (intraProbs c fb y' uv') :=
  (modeProbs_sameCourse c y y').bind fun _ _ _ => (modeProbs_sameCourse c uv uv').bind fun _ _ _ => .pure trivial

theorem mvProbs_sameCourse (old old' : MvTable) : (mvProbs c fb old).SameCourse (mvProbs c fb old') :=
  eachV_sameCourse (fun p => eachV_sameCourse (fun p => updateAt_sameCourse p _) p) _ _ _

end reads

/-! ### States that differ in PCS, its snapshot and W -/

/-- `s'` is `s` over another codec state. -/
def SameButCodec (s s' : State) : Prop := ∃ p q e, s' = { s with pcs := p, pcsSnap := q, w := e }

/-- Two passes that end alike: both accept, or both raise one cause. -/
inductive Pass.SameEnd : Pass → Pass → Prop
  | ok {t t' : State} (h : SameButCodec t t') : Pass.SameEnd (.ok t) (.ok t')
  | error (c : Cause) {t t' : State} (h : SameButCodec t t') : Pass.SameEnd (.error (c, t)) (.error (c, t'))

theorem Pass.SameEnd.bind {p p' : Pass} {f f' : State → Pass} (hp : Pass.SameEnd p p')
    (hf : ∀ t t', SameButCodec t t' → Pass.SameEnd (f t) (f' t')) : Pass.SameEnd (p >>= f) (p' >>= f') := by
  cases hp with
  | ok h => exact hf _ _ h
  | error c h => exact .error c h

/-- Anything of a state that does not depend on the codec state. -/
theorem SameButCodec.keeps {γ : Type} {s s' : State} (h : SameButCodec s s') (f : State → γ)
    (hf : ∀ t p q e, f { t with pcs := p, pcsSnap := q, w := e } = f t := by intro _ _ _ _; rfl) : f s' = f s := by
  obtain ⟨p, q, e, rfl⟩ := h
  exact hf s p q e

theorem SameButCodec.ite {b : Bool} {s s' t t' : State} (h : SameButCodec s s') (h' : SameButCodec t t') :
    SameButCodec (if b then s else t) (if b then s' else t') := by cases b <;> assumption

/-- An update of other fields that reads no codec state. -/
theorem SameButCodec.map {s s' : State} (h : SameButCodec s s') {f : State → State}
    (hf : ∀ t p q e, f { t with pcs := p, pcsSnap := q, w := e } = { f t with pcs := p, pcsSnap := q, w := e } := by
      intro _ _ _ _; rfl) : SameButCodec (f s) (f s') := by
  obtain ⟨p, q, e, rfl⟩ := h
  exact ⟨p, q, e, hf s p q e⟩

theorem SameButCodec.decoding {α β : Type} {s s' : State} {rd : Rd α} {rd' : Rd β} {S : α → β → Prop}
    {store : α → State → State} {store' : β → State → State} (h : SameButCodec s s') (hrd : rd.Rel Eq S rd')
    (hstore : ∀ x x' t t', S x x' → SameButCodec t t' → SameButCodec (store x t) (store' x' t')) :
    SameButCodec (s.decoding rd store) (s'.decoding rd' store') := by
  obtain ⟨p, q, e, rfl⟩ := h
  obtain ⟨hx, hd⟩ := hrd s.bd s.bd rfl
  exact hstore _ _ _ _ hx ⟨p, q, e, by rw [hd]⟩

/-- A pass whose read sees no codec state. -/
theorem SameButCodec.decoding_same {α : Type} {s s' : State} (rd : Rd α) {store : α → State → State}
    (h : SameButCodec s s')
    (hstore : ∀ x t p q e, store x { t with pcs := p, pcsSnap := q, w := e } =
      { store x t with pcs := p, pcsSnap := q, w := e } := by intro _ _ _ _ _; rfl) :
    SameButCodec (s.decoding rd store) (s'.decoding rd store) :=
  h.decoding (Rd.Rel.refl rd) fun x _ _ _ hx ht => hx ▸ ht.map (f := store x) (hstore x)

/-! ### S1 -/

variable {s s' : State}

theorem parseTag_sameEnd (h : SameButCodec s s') : Pass.SameEnd (parseTag s) (parseTag s') := by
  have hset : SameButCodec s.setTag s'.setTag := h.map
  have hlen : s'.argLen = s.argLen := h.keeps State.argLen
  have hcfg : s'.cfg = s.cfg := h.keeps State.cfg
  have htag : s'.tag = s.tag := h.keeps State.tag
  unfold parseTag
  rw [hlen, hcfg, htag]
  split
  · exact .error _ h
  · split
    · exact .error _ h
    · exact .ok hset

theorem parseKeyExtension_sameEnd (h : SameButCodec s s') :
    Pass.SameEnd (parseKeyExtension s) (parseKeyExtension s') := by
  have hkey : SameButCodec s.keyExtension.setFirstPartOffset s'.keyExtension.setFirstPartOffset := by
    obtain ⟨p, q, e, rfl⟩ := h; exact ⟨_, q, e, rfl⟩
  have hoff : SameButCodec s.setFirstPartOffset s'.setFirstPartOffset := h.map
  have hkf : s'.fhr.keyFrame = s.fhr.keyFrame := h.keeps fun t => t.fhr.keyFrame
  have hlen : s'.argLen = s.argLen := h.keeps State.argLen
  have hcode : s'.startCodeOk = s.startCodeOk := h.keeps State.startCodeOk
  unfold parseKeyExtension
  rw [hkf, hlen, hcode]
  split
  · split
    · exact .error _ h
    · split
      · exact .ok hkey
      · exact .error _ h
  · exact .ok hoff

theorem checkFirstPart_sameEnd (h : SameButCodec s s') : Pass.SameEnd (checkFirstPart s) (checkFirstPart s') := by
  have hlen : s'.argLen = s.argLen := h.keeps State.argLen
  have hfhr : s'.fhr = s.fhr := h.keeps State.fhr
  unfold checkFirstPart
  rw [hlen, hfhr]
  split
  · exact .error _ h
  · exact .ok h

theorem openFirstPart_sameButCodec (h : SameButCodec s s') : SameButCodec s.openFirstPart s'.openFirstPart := by
  obtain ⟨p, q, e, rfl⟩ := h; exact ⟨p, q, _, rfl⟩

theorem beginParse_sameButCodec (h : SameButCodec s s') : SameButCodec s.beginParse s'.beginParse := by
  obtain ⟨p, q, e, rfl⟩ := h; exact ⟨p, _, e, rfl⟩

theorem parsePrefix_sameEnd (h : SameButCodec s s') : Pass.SameEnd (parsePrefix s) (parsePrefix s') :=
  (parseTag_sameEnd h).bind fun _ _ ht => (parseKeyExtension_sameEnd ht).bind fun _ _ hu =>
    (checkFirstPart_sameEnd hu).bind fun _ _ hv => .ok (openFirstPart_sameButCodec hv)

/-! ### The coded elements -/

theorem parseColor_sameButCodec (h : SameButCodec s s') : SameButCodec (parseColor s) (parseColor s') := by
  have hdec : SameButCodec (s.decoding (colorHeader s.fb) State.setColor) (s'.decoding (colorHeader s.fb) State.setColor) :=
    h.decoding_same _
  obtain ⟨p, q, e, rfl⟩ := h
  exact .ite hdec ⟨p, q, e, rfl⟩

theorem parseSegmentation_sameButCodec (h : SameButCodec s s') :
    SameButCodec (parseSegmentation s) (parseSegmentation s') := by
  have henter : SameButCodec (s.enter .s2) (s'.enter .s2) := h.map
  obtain ⟨p, q, e, rfl⟩ := h
  refine henter.decoding (segHeader_sameCourse s.cfg s.pcs.seg p.seg) fun x x' t t' hx ht => ?_
  obtain ⟨p, q, e, rfl⟩ := ht
  refine ⟨{ p with seg := x'.1 }, q, e, ?_⟩
  simp only [State.setSegmentation, hx.1]

theorem parseLoopFilter_sameButCodec (h : SameButCodec s s') :
    SameButCodec (parseLoopFilter s) (parseLoopFilter s') := by
  have henter : SameButCodec (s.enter .s3) (s'.enter .s3) := h.map
  obtain ⟨p, q, e, rfl⟩ := h
  refine henter.decoding (lfHeader_sameCourse s.cfg s.pcs.lf p.lf) fun x x' t t' hx ht => ?_
  obtain ⟨p, q, e, rfl⟩ := ht
  refine ⟨{ p with lf := x'.1 }, q, e, ?_⟩
  simp only [State.setLoopFilter, hx.1]

theorem parsePartCount_sameButCodec (h : SameButCodec s s') : SameButCodec (parsePartCount s) (parsePartCount s') := by
  have henter : SameButCodec (s.enter .s3p) (s'.enter .s3p) := h.map
  obtain ⟨p, q, e, rfl⟩ := h
  exact henter.decoding_same (lit s.fb s.cfg.partCntBits)

theorem parseQuant_sameButCodec (h : SameButCodec s s') : SameButCodec (parseQuant s) (parseQuant s') := by
  have henter : SameButCodec (s.enter .s4) (s'.enter .s4) := h.map
  obtain ⟨p, q, e, rfl⟩ := h
  exact henter.decoding_same (quantHeader s.cfg s.fb)

theorem parseTokenProbs_sameButCodec (h : SameButCodec s s') :
    SameButCodec (parseTokenProbs s) (parseTokenProbs s') := by
  have henter : SameButCodec (s.enter .s6t) (s'.enter .s6t) := h.map
  obtain ⟨p, q, e, rfl⟩ := h
  refine henter.decoding (tokenProbs_sameCourse s.cfg s.w.coeff e.coeff) fun x x' t t' _ ht => ?_
  obtain ⟨p, q, e, rfl⟩ := ht
  exact ⟨p, q, { e with coeff := x' }, rfl⟩

theorem parseSkip_sameButCodec (h : SameButCodec s s') : SameButCodec (parseSkip s) (parseSkip s') := by
  have henter : SameButCodec (s.enter .s7) (s'.enter .s7) := h.map
  obtain ⟨p, q, e, rfl⟩ := h
  exact henter.decoding_same (skipHeader s.fb)

theorem parseInterProbs_sameButCodec (h : SameButCodec s s') :
    SameButCodec (parseInterProbs s) (parseInterProbs s') := by
  have hdec : SameButCodec (s.decoding (interProbs s.fb) State.setInterProbs)
      (s'.decoding (interProbs s.fb) State.setInterProbs) := h.decoding_same _
  obtain ⟨p, q, e, rfl⟩ := h
  exact .ite ⟨p, q, e, rfl⟩ hdec

theorem parseIntraProbs_sameButCodec (h : SameButCodec s s') :
    SameButCodec (parseIntraProbs s) (parseIntraProbs s') := by
  have henter : SameButCodec (s.enter .s6i) (s'.enter .s6i) := h.map
  obtain ⟨p, q, e, rfl⟩ := h
  refine .ite ⟨p, q, e, rfl⟩ (henter.decoding (intraProbs_sameCourse s.cfg s.w.ymode e.ymode s.w.uvmode e.uvmode)
    fun x x' t t' _ ht => ?_)
  obtain ⟨p, q, e, rfl⟩ := ht
  exact ⟨p, q, { e with ymode := x'.1, uvmode := x'.2 }, rfl⟩

theorem parseMvProbs_sameButCodec (h : SameButCodec s s') : SameButCodec (parseMvProbs s) (parseMvProbs s') := by
  have henter : SameButCodec (s.enter .s6m) (s'.enter .s6m) := h.map
  obtain ⟨p, q, e, rfl⟩ := h
  refine .ite ⟨p, q, e, rfl⟩ (henter.decoding (mvProbs_sameCourse s.cfg s.w.mv e.mv) fun x x' t t' _ ht => ?_)
  obtain ⟨p, q, e, rfl⟩ := ht
  exact ⟨p, q, { e with mv := x' }, rfl⟩

theorem parseFrontElements_sameButCodec (h : SameButCodec s s') :
    SameButCodec (parseFrontElements s) (parseFrontElements s') :=
  parseQuant_sameButCodec (parsePartCount_sameButCodec (parseLoopFilter_sameButCodec
    (parseSegmentation_sameButCodec (parseColor_sameButCodec h))))

theorem parseBackElements_sameButCodec (h : SameButCodec s s') :
    SameButCodec (parseBackElements s) (parseBackElements s') :=
  parseMvProbs_sameButCodec (parseIntraProbs_sameButCodec (parseInterProbs_sameButCodec
    (parseSkip_sameButCodec (parseTokenProbs_sameButCodec h))))

theorem parseInterRefresh_sameEnd (h : SameButCodec s s') :
    Pass.SameEnd (parseInterRefresh s) (parseInterRefresh s') := by
  obtain ⟨p, q, e, rfl⟩ := h
  unfold parseInterRefresh
  generalize interRefresh s.cfg s.fb s.fhr.refreshLast s.bd = r
  obtain ⟨c | r, d⟩ := r
  · exact .error c ⟨p, q, e, rfl⟩
  · exact .ok ⟨p, q, e, rfl⟩

theorem parseRefresh_sameEnd (h : SameButCodec s s') : Pass.SameEnd (parseRefresh s) (parseRefresh s') := by
  have henter : SameButCodec (s.enter .s5) (s'.enter .s5) := h.map
  have hkey : SameButCodec (parseKeyRefresh (s.enter .s5)) (parseKeyRefresh (s'.enter .s5)) := by
    obtain ⟨p, q, e, rfl⟩ := h
    exact henter.decoding_same (keyRefreshHeader s.fb)
  have hkf : s'.fhr.keyFrame = s.fhr.keyFrame := h.keeps fun t => t.fhr.keyFrame
  unfold parseRefresh
  rw [hkf]
  split
  · exact .ok hkey
  · exact parseInterRefresh_sameEnd henter

theorem parseElements_sameEnd (h : SameButCodec s s') : Pass.SameEnd (parseElements s) (parseElements s') :=
  (parseRefresh_sameEnd (parseFrontElements_sameButCodec h)).bind fun _ _ ht => .ok (parseBackElements_sameButCodec ht)

/-! ### The partition layout and the whole frame -/

theorem reportPos_sameButCodec (h : SameButCodec s s') : SameButCodec s.reportPos s'.reportPos :=
  h.map fun t _ _ _ => by simp only [State.reportPos]; split <;> rfl

theorem parsePartitions_sameEnd (h : SameButCodec s s') : Pass.SameEnd (parsePartitions s) (parsePartitions s') := by
  obtain ⟨p, q, e, rfl⟩ := h
  unfold parsePartitions
  dsimp only
  split
  · exact .error _ ⟨p, q, e, rfl⟩
  · exact .ok ⟨p, q, e, rfl⟩

theorem parseFrame_sameEnd (h : SameButCodec s s') : Pass.SameEnd (parseFrame s) (parseFrame s') :=
  (parsePrefix_sameEnd (beginParse_sameButCodec h)).bind fun _ _ ht => (parseElements_sameEnd ht).bind fun _ _ hu =>
    parsePartitions_sameEnd (reportPos_sameButCodec hu)

/-! ### The command -/

theorem failParse_sameButCodec (c : Cause) (h : SameButCodec s s') : SameButCodec (s.failParse c) (s'.failParse c) := by
  obtain ⟨p, q, e, rfl⟩ := h
  cases c <;> exact ⟨_, q, e, rfl⟩

/-- `s'` is `s` but for the codec state and the three groups of `FHR` taken from it. -/
def SameButGroups (s s' : State) : Prop :=
  ∃ p q e g f w,
    s' = { s with pcs := p, pcsSnap := q, w := e, fhr := { s.fhr with seg := g, lf := f, entropy := w } }

theorem SameButCodec.sameButGroups (h : SameButCodec s s') : SameButGroups s s' := by
  obtain ⟨p, q, e, rfl⟩ := h
  exact ⟨p, q, e, s.fhr.seg, s.fhr.lf, s.fhr.entropy, rfl⟩

theorem commit_sameButGroups (h : SameButCodec s s') : SameButGroups s.commit s'.commit := by
  obtain ⟨p, q, e, rfl⟩ := h
  exact ⟨_, q, e, p.seg, p.lf, e, rfl⟩

/-- `FH.PARSE` over another codec state ends alike; without `Ok`, `FHR` is the same. -/
theorem execFhParse_sameButGroups (h : SameButCodec s s') {t : State} (he : execFhParse s = .next t) :
    ∃ t', execFhParse s' = .next t' ∧ SameButGroups t t' ∧ (t.result ≠ .ok → t'.fhr = t.fhr) := by
  have hnull : s'.argNull = s.argNull := h.keeps State.argNull
  have hlen : s'.argLen = s.argLen := h.keeps State.argLen
  have hfits : s'.bufferFits = s.bufferFits := h.keeps State.bufferFits
  have hfail {u u' : State} (c : Cause) (hu : SameButCodec u u') : SameButGroups (u.failParse c) (u'.failParse c) ∧
      ((u.failParse c).result ≠ .ok → (u'.failParse c).fhr = (u.failParse c).fhr) :=
    ⟨(failParse_sameButCodec c hu).sameButGroups, fun _ => (failParse_sameButCodec c hu).keeps State.fhr⟩
  have hend := parseFrame_sameEnd h
  by_cases hn : s.argNull = true
  · rw [execFhParse, if_pos hn, Host.Outcome.next.injEq] at he
    exact ⟨_, by rw [execFhParse, if_pos (hnull.trans hn)], he ▸ hfail _ h⟩
  by_cases hz : s.argLen = 0
  · rw [execFhParse, if_neg hn, if_pos hz, Host.Outcome.next.injEq] at he
    exact ⟨_, by rw [execFhParse, hnull, if_neg hn, if_pos (hlen.trans hz)], he ▸ hfail _ h⟩
  by_cases hb : s.bufferFits = true
  · rw [execFhParse, if_neg hn, if_neg hz, if_pos hb] at he
    rw [execFhParse, hnull, hlen, hfits, if_neg hn, if_neg hz, if_pos hb]
    generalize parseFrame s = p at he hend
    generalize parseFrame s' = p' at hend
    cases hend with
    | ok hu =>
      rw [Host.Outcome.next.injEq] at he
      exact ⟨_, rfl, he ▸ commit_sameButGroups hu, fun hn => absurd (he ▸ rfl) hn⟩
    | error c hu =>
      rw [Host.Outcome.next.injEq] at he
      exact ⟨_, rfl, he ▸ hfail c hu⟩
  · rw [execFhParse, if_neg hn, if_neg hz, if_neg hb] at he
    cases he

/-! ### The statements -/

theorem readSegmentation_sameCourse (h : SameButCodec s s') :
    s'.readSegmentation.1.1.enabled = s.readSegmentation.1.1.enabled ∧ s'.readSegmentation.2 = s.readSegmentation.2 := by
  rw [State.readSegmentation, State.readSegmentation, h.keeps State.cfg, h.keeps State.fb, h.keeps State.readClamping]
  generalize s.readClamping.2 = d
  obtain ⟨⟨-, henabled⟩, hbd⟩ := segHeader_sameCourse (fb := s.fb) s.cfg s.pcsIn.seg s'.pcsIn.seg d d rfl
  exact ⟨henabled.symm, hbd.symm⟩

theorem readLoopFilter_sameCourse (h : SameButCodec s s') :
    s.readLoopFilter.1.1.SameCoded s'.readLoopFilter.1.1 ∧ s'.readLoopFilter.2 = s.readLoopFilter.2 := by
  rw [State.readLoopFilter, State.readLoopFilter, h.keeps State.cfg, h.keeps State.fb, (readSegmentation_sameCourse h).2]
  generalize s.readSegmentation.2 = d
  obtain ⟨⟨-, hcoded⟩, hbd⟩ := lfHeader_sameCourse (fb := s.fb) s.cfg s.pcsIn.lf s'.pcsIn.lf d d rfl
  exact ⟨hcoded, hbd.symm⟩

theorem exec_fhParse_sameCoded (h : SameButCodec s s') {t t' : State} (he : exec .fhParse s = .next t)
    (ht : t.result = .ok) (he' : exec .fhParse s' = .next t') (ht' : t'.result = .ok) :
    t'.fhr.seg.enabled = t.fhr.seg.enabled ∧ t.fhr.lf.SameCoded t'.fhr.lf := by
  obtain ⟨-, eseg, -, -, elf, -⟩ := exec_fhParse_front he ht
  obtain ⟨-, eseg', -, -, elf', -⟩ := exec_fhParse_front he' ht'
  rw [eseg, eseg', elf, elf']
  exact ⟨(readSegmentation_sameCourse h).1, (readLoopFilter_sameCourse h).1⟩

/-- Settles O54: the two runs end alike, and the reads of the two headers agree on the fields always coded. -/
theorem outcomeIndependentOfPcs : Obligations.OutcomeIndependentOfPcs := by
  intro s t p he
  have h : SameButCodec s { s with pcs := p } := ⟨p, _, _, rfl⟩
  obtain ⟨t', he', hsame, hfhr⟩ := execFhParse_sameButGroups h he
  have hresult : t'.result = t.result := by obtain ⟨_, _, _, _, _, _, rfl⟩ := hsame; rfl
  obtain ⟨henabled, htype, hlevel, hsharp, hadj⟩ :
      t'.fhr.seg.enabled = t.fhr.seg.enabled ∧ t.fhr.lf.SameCoded t'.fhr.lf := by
    by_cases ht : t.result = .ok
    · exact exec_fhParse_sameCoded h he ht he' (hresult.trans ht)
    · rw [hfhr ht]
      exact ⟨rfl, rfl, rfl, rfl, rfl⟩
  refine ⟨t', he', hresult, ?_, ?_, ?_, ?_, henabled, htype, hlevel, hsharp, hadj, ?_⟩ <;>
    (obtain ⟨_, _, _, _, _, _, rfl⟩ := hsame; rfl)

section keyframe

variable (h : SameButCodec s s') (hk : s.isKeyframe)
include hk

theorem readRefreshLast_of_keyframe : s.readRefreshLast.2 = s.readRefreshEntropy.2 := by
  rw [State.readRefreshLast, readIf_neg fun hn => hn.1 hk]

include h

/-- A keyframe's elements start from the defaults, whatever PCS holds. -/
theorem pcsIn_of_keyframe : s'.pcsIn = s.pcsIn := by
  have hk' : s'.isKeyframe := (h.keeps State.isKeyframe).mpr hk
  rw [State.pcsIn, State.pcsIn, if_pos hk, if_pos hk', h.keeps State.cfg]

theorem readSegmentation_of_keyframe : s'.readSegmentation = s.readSegmentation := by
  rw [State.readSegmentation, State.readSegmentation, pcsIn_of_keyframe h hk, h.keeps State.cfg, h.keeps State.fb,
    h.keeps State.readClamping]

theorem readLoopFilter_of_keyframe : s'.readLoopFilter = s.readLoopFilter := by
  rw [State.readLoopFilter, State.readLoopFilter, pcsIn_of_keyframe h hk, readSegmentation_of_keyframe h hk,
    h.keeps State.cfg, h.keeps State.fb]

theorem readTokenProbs_of_keyframe : s'.readTokenProbs = s.readTokenProbs := by
  have hk' : s'.isKeyframe := (h.keeps State.isKeyframe).mpr hk
  have hquant : s'.readQuant = s.readQuant := by
    rw [State.readQuant, State.readQuant, State.readPartCount, State.readPartCount, readLoopFilter_of_keyframe h hk,
      h.keeps State.cfg, h.keeps State.fb]
  rw [State.readTokenProbs, State.readTokenProbs, pcsIn_of_keyframe h hk, readRefreshLast_of_keyframe hk,
    readRefreshLast_of_keyframe hk', State.readRefreshEntropy, State.readRefreshEntropy, readBiasAlternate_of_keyframe hk,
    readBiasAlternate_of_keyframe hk', hquant, h.keeps State.cfg, h.keeps State.fb]

variable {t t' : State} (he : exec .fhParse s = .next t) (ht : t.result = .ok) (he' : exec .fhParse s' = .next t')
  (ht' : t'.result = .ok)
include he ht he' ht'

/-- The tables a keyframe shows are those its header gives over the defaults. -/
theorem exec_fhParse_entropy_of_keyframe : t'.fhr.entropy = t.fhr.entropy := by
  have hk' : s'.isKeyframe := (h.keeps State.isKeyframe).mpr hk
  obtain ⟨-, -, -, -, -, -, -, -, hcoeff, -⟩ := backElementsInTableOrder s t he ht
  obtain ⟨-, -, -, -, -, -, -, -, hcoeff', -⟩ := backElementsInTableOrder s' t' he' ht'
  obtain ⟨hymode, huvmode, hmv⟩ := modeAndMotionVectorTables.1 s t hk he ht
  obtain ⟨hymode', huvmode', hmv'⟩ := modeAndMotionVectorTables.1 s' t' hk' he' ht'
  have hcfg : s'.cfg = s.cfg := h.keeps State.cfg
  refine Entropy.eq_of_tables ?_ ?_ ?_ ?_
  · rw [hcoeff, hcoeff', readTokenProbs_of_keyframe h hk]
  · rw [hymode, hymode', hcfg]
  · rw [huvmode, huvmode', hcfg]
  · rw [hmv, hmv', hcfg]

theorem exec_fhParse_headers_of_keyframe : t'.fhr.seg = t.fhr.seg ∧ t'.fhr.lf = t.fhr.lf := by
  obtain ⟨-, hseg, -, -, hlf, -⟩ := exec_fhParse_front he ht
  obtain ⟨-, hseg', -, -, hlf', -⟩ := exec_fhParse_front he' ht'
  rw [hseg, hseg', hlf, hlf', readSegmentation_of_keyframe h hk, readLoopFilter_of_keyframe h hk]
  exact ⟨rfl, rfl⟩

/-- PCS after a keyframe: the groups `FHR` shows, and the tables it shows or the defaults. -/
theorem exec_fhParse_pcs_of_keyframe (hrefresh : t'.fhr.refreshEntropyProbs = t.fhr.refreshEntropyProbs) :
    t'.pcs = t.pcs := by
  have hk' : s'.isKeyframe := (h.keeps State.isKeyframe).mpr hk
  obtain ⟨hseg, hlf⟩ := exec_fhParse_groups he ht
  obtain ⟨hseg', hlf'⟩ := exec_fhParse_groups he' ht'
  obtain ⟨hsegs, hlfs⟩ := exec_fhParse_headers_of_keyframe h hk he ht he' ht'
  refine Pcs.eq_of_parts (hseg'.symm.trans (hsegs.trans hseg)) (hlf'.symm.trans (hlfs.trans hlf)) ?_
  obtain ⟨hset, hunset, -⟩ := entropyCommitFollowsRefresh s t he ht
  obtain ⟨hset', hunset', -⟩ := entropyCommitFollowsRefresh s' t' he' ht'
  rcases Bool.eq_false_or_eq_true t.fhr.refreshEntropyProbs with hr | hr
  · rw [hset hr, hset' (hrefresh.trans hr), exec_fhParse_entropy_of_keyframe h hk he ht he' ht']
  · rw [hunset hr hk, hunset' (hrefresh.trans hr) hk', h.keeps State.cfg]

end keyframe

/-- An `Ok` frame leaves the snapshot of PCS it took, and the working copy it shows. -/
theorem exec_fhParse_snapshot {t : State} (he : exec .fhParse s = .next t) (ht : t.result = .ok) :
    t.pcsSnap = s.pcs ∧ t.w = t.fhr.entropy := by
  obtain ⟨-, -, v, entries, hv, -, rfl⟩ := exec_fhParse_accepted he ht
  rw [State.finish_fhr, State.finish_eq]
  exact ⟨(parseElements_kept_of_prefix hv).pcsSnap, rfl⟩

theorem SameButGroups.eq_overSnapshot (h : SameButGroups s s') (hpcs : s'.pcs = s.pcs) (hw : s'.w = s.w)
    (hseg : s'.fhr.seg = s.fhr.seg) (hlf : s'.fhr.lf = s.fhr.lf) (hentropy : s'.fhr.entropy = s.fhr.entropy) :
    s' = { s with pcsSnap := s'.pcsSnap } := by
  obtain ⟨p, q, e, g, f, w, rfl⟩ := h
  dsimp only at hpcs hw hseg hlf hentropy
  rw [hpcs, hw, hseg, hlf, hentropy]

/-- Settles O53: the two runs end alike, and what they take from the codec state a keyframe has set to the defaults. -/
theorem keyframeIndependentOfPcs : Obligations.KeyframeIndependentOfPcs := by
  intro s t p q e hk he ht
  have h : SameButCodec s { s with pcs := p, pcsSnap := q, w := e } := ⟨p, q, e, rfl⟩
  obtain ⟨t', he', hsame, -⟩ := execFhParse_sameButGroups h he
  have hresult : t'.result = .ok := by obtain ⟨_, _, _, _, _, _, rfl⟩ := hsame; exact ht
  have hrefresh : t'.fhr.refreshEntropyProbs = t.fhr.refreshEntropyProbs := by
    obtain ⟨_, _, _, _, _, _, rfl⟩ := hsame; rfl
  obtain ⟨hseg, hlf⟩ := exec_fhParse_headers_of_keyframe h hk he ht he' hresult
  have hentropy := exec_fhParse_entropy_of_keyframe h hk he ht he' hresult
  have hpcs := exec_fhParse_pcs_of_keyframe h hk he ht he' hresult hrefresh
  obtain ⟨-, hw⟩ := exec_fhParse_snapshot he ht
  obtain ⟨hsnap', hw'⟩ := exec_fhParse_snapshot he' hresult
  have heq := hsame.eq_overSnapshot hpcs (hw'.trans (hentropy.trans hw.symm)) hseg hlf hentropy
  rw [hsnap'] at heq
  rw [← heq]
  exact he'

end Sys2Proof.Machine

/-! SUPPORT. How a command ends: that every one completes, with one of the three results, and what a `BrokenData` leaves;
with the statements about exceptions (60_exceptions R220, R225). -/

namespace Sys2Proof.Machine

/-! ### Every command completes -/

/-- The one refusal is that of a buffer beyond the address space (20_memory R69). -/
theorem exec_completes (i : Instr) {s : State} (h : s.argNull = false → s.bufferFits = true) :
    ∃ t, exec i s = .next t := by
  by_cases hi : i = .fhParse
  · subst hi
    rcases execFhParse_cases s with ⟨-, e⟩ | ⟨-, -, e⟩ | ⟨hn, -, hb, -⟩ | ⟨-, _, -, e⟩ | ⟨-, _, _, -, e⟩
    case inr.inr.inl => exact absurd (h hn) (Bool.eq_false_iff.1 hb)
    all_goals exact ⟨_, e⟩
  · rcases exec_bd_cases s hi with e | ⟨_, -, -, e⟩ | ⟨-, -, -, e⟩ | ⟨-, hn, hb, -⟩ | ⟨-, -, e⟩
    case inr.inr.inr.inl => exact absurd (h hn) (Bool.eq_false_iff.1 hb)
    all_goals exact ⟨_, e⟩

/-- Bits 1:0 of `STATUS` are the result's code (10_state R32). -/
theorem status_mod_four (s : State) : s.status.toNat % 4 = s.result.code.toNat := by
  have := s.result.code_lt
  rw [status_toNat]
  omega

/-- Settles O10: nothing but the excluded buffers is refused, and each of the three results has its code in `STATUS`. -/
theorem everyCommandCompletes : Obligations.EveryCommandCompletes := by
  intro i s h
  obtain ⟨t, he⟩ := exec_completes i h
  refine ⟨t, he, ?_⟩
  rw [status_mod_four]
  cases t.result with
  | ok => exact .inl ⟨rfl, rfl⟩
  | brokenData => exact .inr (.inl ⟨rfl, rfl⟩)
  | error => exact .inr (.inr ⟨rfl, rfl⟩)

/-! ### What BrokenData leaves -/

/-- `BrokenData` comes from a pass that raises: the caller's contract gives an `Error` and the commit an `Ok`. -/
theorem exec_fhParse_brokenData {s t : State} (he : exec .fhParse s = .next t) (ht : t.result = .brokenData) :
    ∃ c p, parseFrame s = .error (c, p) ∧ c.result = .brokenData ∧ t = p.failParse c := by
  rcases exec_fhParse_next he with ⟨c, hc, rfl⟩ | ⟨p, -, rfl⟩ | hbroken
  · rw [failParse_error_eq hc] at ht
    cases ht
  · cases ht
  · exact hbroken

theorem pcsAfterFailure_of_rollback {s : State} (h : s.cfg.pcsOnFailure = .rollback) : s.pcsAfterFailure = s.pcsSnap := by
  simp only [State.pcsAfterFailure, h]

theorem pcsAfterFailure_within_of_any {s : State} (h : s.cfg.pcsOnFailure = .any) :
    s.pcsAfterFailure.Within s.cfg := by
  simp only [State.pcsAfterFailure, h]
  exact Pcs.hold_within _ _

/-- Settles O34: no pass writes the snapshot that the failure restores, nor the registers it leaves alone. -/
theorem brokenDataRollsBack : Obligations.BrokenDataRollsBack := by
  intro s t he ht
  obtain ⟨c, p, hp, hc, rfl⟩ := exec_fhParse_brokenData he ht
  have hk : Kept s.beginParse p := (parseFrame_error_kept hp).1
  have hcfg : p.cfg = s.cfg := hk.cfg
  rw [failParse_brokenData_eq hc]
  refine ⟨fun hroll => ?_, fun hany => ?_, rfl, rfl, hk.res, hk.argBase, hk.argLen, hk.argNull, hk.fb, ?_⟩
  · exact (pcsAfterFailure_of_rollback (hcfg ▸ hroll)).trans hk.pcsSnap
  · exact hcfg ▸ pcsAfterFailure_within_of_any (hcfg ▸ hany)
  · rw [status_toNat]
    rfl

end Sys2Proof.Machine

/-! SUPPORT. The idle block: a step with no action of HOST to come, and the state after reset; with the statements about them
(70_reset_and_hazards R250, R261). -/

namespace Sys2Proof.Machine

theorem step_of_idle {s : State} (h : s.pending = []) : step s = .next s := by
  simp only [step, h]

/-- Settles O6: only an action to come is performed. -/
theorem idleBlockDoesNothing : Obligations.IdleBlockDoesNothing := fun _ => step_of_idle

theorem reset_pending : State.reset.pending = [] := rfl

/-- `Ok`, no decoder and no frame header: every field of `STATUS` is 0 after reset. -/
theorem reset_status : State.reset.status = 0x0000 :=
  BitVec.eq_of_toNat_eq (status_toNat State.reset)

/-- Settles O58: the reset values of the registers, and no action to come. -/
theorem resetIsIdle : Obligations.ResetIsIdle :=
  ⟨rfl, rfl, reset_status, rfl, step_of_idle reset_pending⟩

end Sys2Proof.Machine
